-- ==== Sys2Proof/Word.lean ====
section
/-! DEFINITION. The fixed-width words of the CORE (spec/00_scope.md rules R1, R2, R4): `u8`, `u32` and `u64` are
bit vectors whose arithmetic wraps modulo 2^8, 2^32 and 2^64, as Lean's `BitVec` arithmetic does. -/

namespace Sys2Proof

/-- `u8` (rule R4). -/
abbrev Byte := BitVec 8

/-- `u32` (rule R2). -/
abbrev Word := BitVec 32

/-- `u64` (rule R1): a register, a host address or a source offset. -/
abbrev U64 := BitVec 64

end Sys2Proof
end

