-- ==== Sys2Proof/Syntax.lean ====
section
/-! DEFINITION. The commands of the CORE: one constructor for each row of spec/opcode_table.json, with the fields rule
R80 of spec/30_encoding.md lets that row set. The argument registers A0 to A3 carry the other operands (rule R74). -/

namespace Sys2Proof

/-- The WHENCE field (rule R77). Every value decodes (rule R72); ABS.SEEK refuses the fourth itself. -/
inductive Whence where
  /-- 0, BEGIN: from position 0. -/
  | fromBegin
  /-- 1, CURRENT: from the current position. -/
  | fromCurrent
  /-- 2, END: from the logical length. -/
  | fromEnd
  /-- 3, which ABS.SEEK answers with InvalidArgument. -/
  | three
deriving DecidableEq, Repr

/-- The KIND field of SEQ.OPEN (rule R78). -/
inductive SeqKind where
  /-- 0, BlockTea. -/
  | blockTea
  /-- 1, VariableBlockTea. -/
  | variableBlockTea
deriving DecidableEq, Repr

/-- The 28 commands of rule R80. `slot` is the SLOT field, `n` the N field. -/
inductive Instr where
  /-- NOP (R220). -/
  | nop
  /-- KEYLOAD (R221). -/
  | keyload
  /-- CLRERR (R222). -/
  | clrerr
  /-- SRC.SETPOS (R223). -/
  | srcSetpos
  /-- SRC.GETPOS (R224). -/
  | srcGetpos
  /-- BFC.ENC (R104). -/
  | bfcEnc
  /-- BFC.DEC (R105). -/
  | bfcDec
  /-- BTEA.DEC (R125). -/
  | bteaDec
  /-- BTEA.ENC (R126). -/
  | bteaEnc
  /-- VBT.DEC (R148). -/
  | vbtDec
  /-- VBT.ENC (R149). -/
  | vbtEnc
  /-- VBT.DECN (R150). -/
  | vbtDecn (n : Nat)
  /-- VBT.ENCN (R151). -/
  | vbtEncn (n : Nat)
  /-- ABS.OPEN (R172). -/
  | absOpen (slot : Nat)
  /-- ABS.READ (R174). -/
  | absRead (slot : Nat)
  /-- ABS.SEEK (R177). -/
  | absSeek (slot : Nat) (whence : Whence)
  /-- ABS.LEN (R178). -/
  | absLen (slot : Nat)
  /-- ABS.POS (R179). -/
  | absPos (slot : Nat)
  /-- ABS.WRITE (R180). -/
  | absWrite (slot : Nat)
  /-- ABS.FLUSH (R181). -/
  | absFlush (slot : Nat)
  /-- ABS.SETLEN (R182). -/
  | absSetlen (slot : Nat)
  /-- SEQ.OPEN (R200). -/
  | seqOpen (slot : Nat) (kind : SeqKind)
  /-- SEQ.READ (R201). -/
  | seqRead (slot : Nat)
  /-- SEQ.SEEK (R204). -/
  | seqSeek (slot : Nat) (whence : Whence)
  /-- SEQ.WRITE (R205). -/
  | seqWrite (slot : Nat)
  /-- SEQ.FLUSH (R206). -/
  | seqFlush (slot : Nat)
  /-- SEQ.SETLEN (R207). -/
  | seqSetlen (slot : Nat)
  /-- CLOSE (R225). -/
  | close (slot : Nat)
deriving DecidableEq, Repr

end Sys2Proof
end

