-- ==== Sys2Proof/WellFormed.lean ====
section
/-! DEFINITION. Which terms of `Instr` a command word can spell: SLOT is the four bits [11:8] and N the five bits
[20:16] of the word (spec/30_encoding.md rule R70). A value the command itself refuses (SLOT at or past N_SLOTS, N
outside 1..16, WHENCE 3) is well formed: it decodes, and the command's own rule raises the cause (rule R72). -/

namespace Sys2Proof

/-- A SLOT value the four bits [11:8] hold. -/
def slotFits (slot : Nat) : Bool := decide (slot < 16)

/-- An N value the five bits [20:16] hold. -/
def countFits (n : Nat) : Bool := decide (n < 32)

/-- Every field of the command fits its place in the command word. -/
def Instr.wellFormed : Instr → Bool
  | .nop => true
  | .keyload => true
  | .clrerr => true
  | .srcSetpos => true
  | .srcGetpos => true
  | .bfcEnc => true
  | .bfcDec => true
  | .bteaDec => true
  | .bteaEnc => true
  | .vbtDec => true
  | .vbtEnc => true
  | .vbtDecn n => countFits n
  | .vbtEncn n => countFits n
  | .absOpen slot => slotFits slot
  | .absRead slot => slotFits slot
  | .absSeek slot _ => slotFits slot
  | .absLen slot => slotFits slot
  | .absPos slot => slotFits slot
  | .absWrite slot => slotFits slot
  | .absFlush slot => slotFits slot
  | .absSetlen slot => slotFits slot
  | .seqOpen slot _ => slotFits slot
  | .seqRead slot => slotFits slot
  | .seqSeek slot _ => slotFits slot
  | .seqWrite slot => slotFits slot
  | .seqFlush slot => slotFits slot
  | .seqSetlen slot => slotFits slot
  | .close slot => slotFits slot

end Sys2Proof
end

