-- ==== Sys2Proof/Decode.lean ====
section
/-! DEFINITION. The command decoder and the encoder (spec/30_encoding.md rules R70 to R73 and R80). The decoder is total
on 32-bit words and rejects by name, in the priority of rule R245: RESERVED_BITS, then UNKNOWN_OP, then FIELD. -/

namespace Sys2Proof

/-- Why the decoder rejects a command word: the DETAIL codes of IllegalCommand (spec/60_exceptions.md rule R245). -/
inductive DecodeError where
  /-- 1 UNKNOWN_OP: OP is not assigned (R73). -/
  | unknownOp
  /-- 2 RESERVED_BITS: a bit of [31:21] or bit 15 is set (R71). -/
  | reservedBits
  /-- 3 FIELD: an assigned OP has a non-zero field it does not permit (R72). -/
  | field
deriving DecidableEq, Repr

/-- The operand fields of a command word (R70), as the command sees them. -/
structure Fields where
  /-- SLOT, bits [11:8]. -/
  slot : Nat
  /-- WHENCE, bits [13:12]. -/
  whence : Whence
  /-- KIND, bit [14]. -/
  kind : SeqKind
  /-- N, bits [20:16]. -/
  n : Nat
deriving DecidableEq, Repr

/-- The fields an opcode may set: the "fields" column of rule R80. -/
structure Permits where
  slot : Bool
  whence : Bool
  kind : Bool
  n : Bool
deriving DecidableEq, Repr

/-- OP, bits [7:0] of a command word (R70). -/
def opField (w : Word) : Byte := w.extractLsb' 0 8

/-- SLOT, bits [11:8] (R70, R79). -/
def slotField (w : Word) : BitVec 4 := w.extractLsb' 8 4

/-- WHENCE, bits [13:12] (R70, R77). -/
def whenceField (w : Word) : BitVec 2 := w.extractLsb' 12 2

/-- KIND, bit [14] (R70, R78). -/
def kindField (w : Word) : BitVec 1 := w.extractLsb' 14 1

/-- N, bits [20:16] (R70, R76). -/
def nField (w : Word) : BitVec 5 := w.extractLsb' 16 5

/-- A bit of [31:21] or bit 15 is set (R71). -/
def reservedSet (w : Word) : Bool := w.extractLsb' 21 11 != 0 || w.extractLsb' 15 1 != 0

/-- The value of a WHENCE field (R77). -/
def Whence.ofField (b : BitVec 2) : Whence :=
  if b = 0 then .fromBegin else if b = 1 then .fromCurrent else if b = 2 then .fromEnd else .three

/-- The WHENCE field of a value (R77). -/
def Whence.toField : Whence → BitVec 2
  | .fromBegin => 0
  | .fromCurrent => 1
  | .fromEnd => 2
  | .three => 3

/-- The value of a KIND field (R78). -/
def SeqKind.ofField (b : BitVec 1) : SeqKind := if b = 0 then .blockTea else .variableBlockTea

/-- The KIND field of a value (R78). -/
def SeqKind.toField : SeqKind → BitVec 1
  | .blockTea => 0
  | .variableBlockTea => 1

/-- All operand fields of a word. -/
def fieldsOf (w : Word) : Fields where
  slot := (slotField w).toNat
  whence := Whence.ofField (whenceField w)
  kind := SeqKind.ofField (kindField w)
  n := (nField w).toNat

/-- No field is permitted: OP alone. -/
def Permits.nothing : Permits := ⟨false, false, false, false⟩

/-- SLOT alone is permitted. -/
def Permits.slotOnly : Permits := ⟨true, false, false, false⟩

/-- SLOT and WHENCE are permitted. -/
def Permits.seek : Permits := ⟨true, true, false, false⟩

/-- SLOT and KIND are permitted. -/
def Permits.seqOpen : Permits := ⟨true, false, true, false⟩

/-- N alone is permitted. -/
def Permits.count : Permits := ⟨false, false, false, true⟩

/-- The row of rule R80 for an OP value: the fields it permits and the command they spell; `none` where the OP is not
assigned (R73). -/
def opRow (op : Byte) : Option (Permits × (Fields → Instr)) :=
  match op.toNat with
  | 0x00 => some (.nothing, fun _ => .nop)
  | 0x01 => some (.nothing, fun _ => .keyload)
  | 0x02 => some (.nothing, fun _ => .clrerr)
  | 0x03 => some (.nothing, fun _ => .srcSetpos)
  | 0x04 => some (.nothing, fun _ => .srcGetpos)
  | 0x10 => some (.nothing, fun _ => .bfcEnc)
  | 0x11 => some (.nothing, fun _ => .bfcDec)
  | 0x20 => some (.nothing, fun _ => .bteaDec)
  | 0x21 => some (.nothing, fun _ => .bteaEnc)
  | 0x30 => some (.nothing, fun _ => .vbtDec)
  | 0x31 => some (.nothing, fun _ => .vbtEnc)
  | 0x32 => some (.count, fun f => .vbtDecn f.n)
  | 0x33 => some (.count, fun f => .vbtEncn f.n)
  | 0x40 => some (.slotOnly, fun f => .absOpen f.slot)
  | 0x41 => some (.slotOnly, fun f => .absRead f.slot)
  | 0x42 => some (.seek, fun f => .absSeek f.slot f.whence)
  | 0x43 => some (.slotOnly, fun f => .absLen f.slot)
  | 0x44 => some (.slotOnly, fun f => .absPos f.slot)
  | 0x45 => some (.slotOnly, fun f => .absWrite f.slot)
  | 0x46 => some (.slotOnly, fun f => .absFlush f.slot)
  | 0x47 => some (.slotOnly, fun f => .absSetlen f.slot)
  | 0x50 => some (.seqOpen, fun f => .seqOpen f.slot f.kind)
  | 0x51 => some (.slotOnly, fun f => .seqRead f.slot)
  | 0x52 => some (.seek, fun f => .seqSeek f.slot f.whence)
  | 0x53 => some (.slotOnly, fun f => .seqWrite f.slot)
  | 0x54 => some (.slotOnly, fun f => .seqFlush f.slot)
  | 0x55 => some (.slotOnly, fun f => .seqSetlen f.slot)
  | 0x60 => some (.slotOnly, fun f => .close f.slot)
  | _ => none

/-- Every field the opcode does not permit is zero (R72). -/
def fieldsPermitted (p : Permits) (w : Word) : Bool :=
  (p.slot || slotField w == 0) && (p.whence || whenceField w == 0) && (p.kind || kindField w == 0)
    && (p.n || nField w == 0)

/-- The command decoder (R70 to R73, in the priority of R245). -/
def decode (w : Word) : Except DecodeError Instr :=
  if reservedSet w then .error .reservedBits
  else
    match opRow (opField w) with
    | none => .error .unknownOp
    | some (p, mk) => if fieldsPermitted p w then .ok (mk (fieldsOf w)) else .error .field

/-- A field's value at bit `lo` of a 32-bit word whose other bits are 0. -/
def placeField {n : Nat} (v : BitVec n) (lo : Nat) : Word := v.setWidth 32 <<< lo

/-- The command word of rule R70, each field in its place and the reserved bits zero. -/
def packWord (op : Byte) (slot : BitVec 4) (whence : BitVec 2) (kind : BitVec 1) (n : BitVec 5) : Word :=
  placeField op 0 ||| placeField slot 8 ||| placeField whence 12 ||| placeField kind 14 ||| placeField n 16

/-- A word that sets OP alone. -/
def packOp (op : Byte) : Word := packWord op 0 0 0 0

/-- A word that sets OP and SLOT. -/
def packSlot (op : Byte) (slot : Nat) : Word := packWord op (BitVec.ofNat 4 slot) 0 0 0

/-- A word that sets OP and N. -/
def packCount (op : Byte) (n : Nat) : Word := packWord op 0 0 0 (BitVec.ofNat 5 n)

/-- The encoder: the command word of a well-formed command (R80, R81: "the word with OP from rule R80, the named fields,
and every other bit 0"). -/
def encode : Instr → Word
  | .nop => packOp 0x00
  | .keyload => packOp 0x01
  | .clrerr => packOp 0x02
  | .srcSetpos => packOp 0x03
  | .srcGetpos => packOp 0x04
  | .bfcEnc => packOp 0x10
  | .bfcDec => packOp 0x11
  | .bteaDec => packOp 0x20
  | .bteaEnc => packOp 0x21
  | .vbtDec => packOp 0x30
  | .vbtEnc => packOp 0x31
  | .vbtDecn n => packCount 0x32 n
  | .vbtEncn n => packCount 0x33 n
  | .absOpen slot => packSlot 0x40 slot
  | .absRead slot => packSlot 0x41 slot
  | .absSeek slot whence => packWord 0x42 (BitVec.ofNat 4 slot) whence.toField 0 0
  | .absLen slot => packSlot 0x43 slot
  | .absPos slot => packSlot 0x44 slot
  | .absWrite slot => packSlot 0x45 slot
  | .absFlush slot => packSlot 0x46 slot
  | .absSetlen slot => packSlot 0x47 slot
  | .seqOpen slot kind => packWord 0x50 (BitVec.ofNat 4 slot) 0 kind.toField 0
  | .seqRead slot => packSlot 0x51 slot
  | .seqSeek slot whence => packWord 0x52 (BitVec.ofNat 4 slot) whence.toField 0 0
  | .seqWrite slot => packSlot 0x53 slot
  | .seqFlush slot => packSlot 0x54 slot
  | .seqSetlen slot => packSlot 0x55 slot
  | .close slot => packSlot 0x60 slot

/-- One row of rule R80's table: a word `w` is the command when `w &&& mask = pattern`. -/
structure OpcodeRow where
  mask : Word
  pattern : Word
deriving DecidableEq, Repr

/-- The mask and match columns of rule R80 for each command. -/
def Instr.row : Instr → OpcodeRow
  | .nop => ⟨0xFFFFFFFF, 0x00000000⟩
  | .keyload => ⟨0xFFFFFFFF, 0x00000001⟩
  | .clrerr => ⟨0xFFFFFFFF, 0x00000002⟩
  | .srcSetpos => ⟨0xFFFFFFFF, 0x00000003⟩
  | .srcGetpos => ⟨0xFFFFFFFF, 0x00000004⟩
  | .bfcEnc => ⟨0xFFFFFFFF, 0x00000010⟩
  | .bfcDec => ⟨0xFFFFFFFF, 0x00000011⟩
  | .bteaDec => ⟨0xFFFFFFFF, 0x00000020⟩
  | .bteaEnc => ⟨0xFFFFFFFF, 0x00000021⟩
  | .vbtDec => ⟨0xFFFFFFFF, 0x00000030⟩
  | .vbtEnc => ⟨0xFFFFFFFF, 0x00000031⟩
  | .vbtDecn _ => ⟨0xFFE0FFFF, 0x00000032⟩
  | .vbtEncn _ => ⟨0xFFE0FFFF, 0x00000033⟩
  | .absOpen _ => ⟨0xFFFFF0FF, 0x00000040⟩
  | .absRead _ => ⟨0xFFFFF0FF, 0x00000041⟩
  | .absSeek _ _ => ⟨0xFFFFC0FF, 0x00000042⟩
  | .absLen _ => ⟨0xFFFFF0FF, 0x00000043⟩
  | .absPos _ => ⟨0xFFFFF0FF, 0x00000044⟩
  | .absWrite _ => ⟨0xFFFFF0FF, 0x00000045⟩
  | .absFlush _ => ⟨0xFFFFF0FF, 0x00000046⟩
  | .absSetlen _ => ⟨0xFFFFF0FF, 0x00000047⟩
  | .seqOpen _ _ => ⟨0xFFFFB0FF, 0x00000050⟩
  | .seqRead _ => ⟨0xFFFFF0FF, 0x00000051⟩
  | .seqSeek _ _ => ⟨0xFFFFC0FF, 0x00000052⟩
  | .seqWrite _ => ⟨0xFFFFF0FF, 0x00000053⟩
  | .seqFlush _ => ⟨0xFFFFF0FF, 0x00000054⟩
  | .seqSetlen _ => ⟨0xFFFFF0FF, 0x00000055⟩
  | .close _ => ⟨0xFFFFF0FF, 0x00000060⟩

/-- What the decoder reads from the word whose low `nbits` bits are those of `w` and whose other bits are 0. A command
is one 32-bit word (R70), so no byte order enters: CMD bit 0 is bit 0 of the word. -/
def decodeTableWord (nbits w : Nat) : Option Instr :=
  match decode (BitVec.ofNat 32 (w % 2 ^ nbits)) with
  | .ok i => some i
  | .error _ => none

end Sys2Proof
end

