-- ==== Sys2Proof/Config.lean ====
section
/-! DEFINITION. What the spec leaves open (spec/93_implementation_defined.md section 2) as free values: constants with
no body, so that no proof can rest on a value of theirs. Each is applied to the plain counter `State.draws`, which
every use advances (notes/assumptions/1.md). The launch parameters of section 3 of that file (REG_BASE, HostMem,
N_SLOTS, N_SOURCES, the attached sources with their data and SRC_MAY_FAIL) are no constants here: they are plain data
in `State`, so that every statement about all states holds for every launch (notes/assumptions/2.md). -/

namespace Sys2Proof.Config

/-- Draw X1 (rule R63): whether a source read fails, asked only where SRC_MAY_FAIL holds for the source. -/
opaque drawReadFails : Nat → Bool

/-- Draws X2, X3, X5 and X6 (rules R63, R176, R201, R270): a source cursor that takes any value. -/
opaque drawCursor : Nat → U64

/-- Draws X4 and X6 (rules R176, R251, R270): a host byte that takes any value. -/
opaque drawByte : Nat → Byte

/-- ERRINFO of a HostAccessFault whose range starts at or past 2^64, a value the 64-bit register cannot hold and for
which the spec states no result (notes/assumptions/5.md). DESIGN CHOICE. -/
opaque drawErrinfo : Nat → U64

end Sys2Proof.Config
end

