-- ==== Sys2Proof/Machine/State.lean ====
section
/-! DEFINITION. The state of the CORE as plain data (spec/10_state.md), the reasons a step can stop, and the machine
right after reset. Launch parameters are fields too, so that a statement about every state holds for every launch. -/

namespace Sys2Proof.Machine

/-- A step that stops the machine. The CORE itself has no such event: a failing command is a next state (R240, R252). -/
inductive Fault where
  /-- Raised by ABS.READ, ABS.SEEK and SEQ.READ where the open slot names a source that
  is not attached. The spec describes no such state and no run reaches one (`Machine.State.Good`). Safe: the model stops
  where the spec says nothing (notes/assumptions/8.md). -/
  | detachedSource
deriving DecidableEq, Repr

/-- A host action or a command the model gives no next state. -/
inductive Refusal where
  /-- Raised by `exec` for a command without a meaning; no arm does. Safe. -/
  | notModelled (mnemonic : String)
  /-- Raised by a host access to the register window of a width or alignment other than those of R30, which says "A model
  must refuse it". Safe. -/
  | undefinedWindowAccess
  /-- Raised where the platform is said to move the cursor of a handle that has no source (R35: "A handle that is not
  attached has no state"). Safe (notes/assumptions/9.md). -/
  | noSuchSource
deriving DecidableEq, Repr

/-- The cipher key words K[0] to K[3] (R27): the registers KEY0 to KEY3, or the key a slot captured (R34). -/
structure Key where
  k0 : Word
  k1 : Word
  k2 : Word
  k3 : Word
deriving DecidableEq, Repr

/-- The fields of a slot of kind Aligned (R32). -/
structure Aligned where
  /-- The underlying source's handle. -/
  src : Nat
  /-- The key captured at ABS.OPEN. -/
  key : Key
  /-- The logical origin, `offset + 4`. -/
  origin : U64
  /-- The logical length. -/
  length : Word
  /-- The logical position. -/
  pos : U64
deriving DecidableEq, Repr

/-- The fields of a slot of kind SeqBlockTea or SeqVBT (R33). -/
structure Sequential where
  /-- The underlying source's handle. -/
  src : Nat
  /-- The key captured at SEQ.OPEN. -/
  key : Key
deriving DecidableEq, Repr

/-- A stream slot and its kind (R31). -/
inductive Slot where
  | closed
  | aligned (f : Aligned)
  | seqBlockTea (f : Sequential)
  | seqVbt (f : Sequential)
deriving DecidableEq, Repr

/-- An attached source (R35): its fixed data, its cursor, and the launch parameter SRC_MAY_FAIL (R63). -/
structure Source where
  data : List Byte
  cursor : U64
  mayFail : Bool
deriving DecidableEq, Repr

/-- A run of host addresses `[base, base + size)`; HostMem (R51) is a list of them. -/
structure Region where
  base : Nat
  size : Nat
deriving DecidableEq, Repr

/-- Host memory (R50): the bytes that differ from what an unlisted address reads as, in one canonical form. -/
abbrev Memory := List Host.Cell

/-- What the world outside the CORE does (spec/10_state.md section 1): the host's accesses between commands, and the
platform's events. -/
inductive HostAction where
  /-- A host write of `bytes` bytes at the bus address `addr` of the register window (R21, R30). -/
  | regWrite (addr : U64) (bytes : Nat) (value : U64)
  /-- A host read of `bytes` bytes at the bus address `addr` of the register window (R30). -/
  | regRead (addr : U64) (bytes : Nat)
  /-- A host write of one byte of host memory (R67). -/
  | memWrite (addr : U64) (value : Byte)
  /-- A host read of one byte of host memory (R67). -/
  | memRead (addr : U64)
  /-- A cursor moved by the platform outside the CORE, between commands (R65). -/
  | moveCursor (h : Nat) (cursor : U64)
  /-- Reset between commands (R270). -/
  | reset
  /-- A CMD write of `w` whose command reset interrupts (R270, X6). -/
  | commandThenReset (w : Word)
deriving DecidableEq, Repr

/-- Everything the spec gives the machine, and the model's own fields `host`, `hostData` and `draws`. -/
structure State where
  /-- CMD (R20, R21). -/
  cmd : Word
  /-- A0 (R22). -/
  a0 : U64
  /-- A1 (R22). -/
  a1 : U64
  /-- A2 (R22). -/
  a2 : U64
  /-- A3 (R22). -/
  a3 : U64
  /-- RES (R23). -/
  res : U64
  /-- STATUS (R24). -/
  status : Word
  /-- ERRINFO (R26). -/
  errinfo : U64
  /-- KEY0 to KEY3 (R27). -/
  key : Key
  /-- S[0] to S[N_SLOTS - 1] (R31); N_SLOTS is the length. -/
  slots : List Slot
  /-- The sources (R35); N_SOURCES is the length, and `none` is a handle that is not attached. -/
  sources : List (Option Source)
  /-- Host memory (R50). -/
  mem : Memory
  /-- HostMem (R51), a launch parameter. -/
  hostMem : List Region
  /-- REG_BASE (R20, R56), a launch parameter. -/
  regBase : U64
  /-- The MODEL's own: the host actions still to come, in order (R37: "The host's sequence of register writes is the
  program"). -/
  host : List HostAction
  /-- The MODEL's own: what the host's last read returned (R21, R30). -/
  hostData : U64
  /-- The MODEL's own: how many free values of `Config` have been drawn. -/
  draws : Nat
deriving DecidableEq, Repr

/-- The machine right after reset (R20, R40), with the launch of notes/assumptions/2.md, which is the model's choice:
N_SLOTS = 4 (the reference value), one source handle that is not attached, REG_BASE 0, every host address admitted but
the 0x60 bytes of the window there, host memory with nothing listed, and no host action pending. DESIGN CHOICE. -/
def State.reset : State where
  cmd := 0
  a0 := 0
  a1 := 0
  a2 := 0
  a3 := 0
  res := 0
  status := 0
  errinfo := 0
  key := ⟨0, 0, 0, 0⟩
  slots := [.closed, .closed, .closed, .closed]
  sources := [none]
  mem := []
  hostMem := [⟨0x60, 2 ^ 64 - 0x60⟩]
  regBase := 0
  host := []
  hostData := 0
  draws := 0

end Sys2Proof.Machine
end

