-- ==== Sys2Proof/Machine/Bytes.lean ====
section
/-! DEFINITION. Bytes and words: the 8-bit rotations (spec/00_scope.md rule R5), the little-endian order that every
multi-byte value of the CORE uses (rule R6; spec/20_memory.md rule R53), and the key (spec/40_byte_feedback.md rule
R100). -/

namespace Sys2Proof.Machine

/-- `rotl8(x, r)` (R5), defined apart at r = 0 so that no shift by 8 occurs. -/
def rotl8 (x : Byte) (r : Nat) : Byte := if r = 0 then x else (x <<< r) ||| (x >>> (8 - r))

/-- `rotr8(x, r)` (R5). -/
def rotr8 (x : Byte) (r : Nat) : Byte := if r = 0 then x else (x >>> r) ||| (x <<< (8 - r))

/-- `le32(b0, b1, b2, b3)` (R6): b0 is the least significant byte. -/
def le32 (b0 b1 b2 b3 : Byte) : Word :=
  placeField b0 0 ||| placeField b1 8 ||| placeField b2 16 ||| placeField b3 24

/-- `bytes_le32(w)` (R6). -/
def bytesLe32 (w : Word) : List Byte :=
  [w.extractLsb' 0 8, w.extractLsb' 8 8, w.extractLsb' 16 8, w.extractLsb' 24 8]

/-- `bytes_to_words` (R145): word i from bytes 4i to 4i+3; bytes that fill no word are dropped. -/
def bytesToWords : List Byte → List Word
  | b0 :: b1 :: b2 :: b3 :: rest => le32 b0 b1 b2 b3 :: bytesToWords rest
  | _ => []

/-- `words_to_bytes` (R145). -/
def wordsToBytes : List Word → List Byte
  | [] => []
  | w :: rest => bytesLe32 w ++ wordsToBytes rest

/-- The key word K[j], j in 0..3 (R27). -/
def Key.word (K : Key) (j : Nat) : Word :=
  match j with
  | 0 => K.k0
  | 1 => K.k1
  | 2 => K.k2
  | _ => K.k3

/-- `kb[j]` (R100): byte `j mod 4` of word K[j / 4]. -/
def keyByte (K : Key) (j : Nat) : Byte := (K.word (j / 4)).extractLsb' (8 * (j % 4)) 8

/-- Byte i of a byte sequence (R7). -/
def byteAt (bs : List Byte) (i : Nat) : Byte := bs.getD i 0

/-- The key of a 16-byte key buffer: `K[j] = le32(kbuf[4j .. 4j+4))` (R172, R200, R221). -/
def keyOfBytes (kbuf : List Byte) : Key where
  k0 := le32 (byteAt kbuf 0) (byteAt kbuf 1) (byteAt kbuf 2) (byteAt kbuf 3)
  k1 := le32 (byteAt kbuf 4) (byteAt kbuf 5) (byteAt kbuf 6) (byteAt kbuf 7)
  k2 := le32 (byteAt kbuf 8) (byteAt kbuf 9) (byteAt kbuf 10) (byteAt kbuf 11)
  k3 := le32 (byteAt kbuf 12) (byteAt kbuf 13) (byteAt kbuf 14) (byteAt kbuf 15)

end Sys2Proof.Machine
end

