-- ==== Sys2Proof/Machine/Flags.lean ====
section
/-! DEFINITION. STATUS and its fields (spec/10_state.md rules R24, R25, R27), and the causes of a failing command with
their codes, DETAIL codes, phases and ERRINFO values (spec/60_exceptions.md rules R241 to R249). -/

namespace Sys2Proof.Machine

/-- STATUS from its fields, the reserved bits 0 (R24). -/
def packStatus (err keyv : Bool) (detail : BitVec 8) (phase : BitVec 4) (cause : BitVec 8) : Word :=
  placeField cause 0 ||| placeField phase 8 ||| placeField detail 16 ||| placeField (BitVec.ofBool keyv) 30
    ||| placeField (BitVec.ofBool err) 31

/-- STATUS.CAUSE, bits [7:0]. -/
def statusCause (st : Word) : BitVec 8 := st.extractLsb' 0 8

/-- STATUS.PHASE, bits [11:8]. -/
def statusPhase (st : Word) : BitVec 4 := st.extractLsb' 8 4

/-- STATUS.DETAIL, bits [23:16]. -/
def statusDetail (st : Word) : BitVec 8 := st.extractLsb' 16 8

/-- STATUS.KEYV, bit 30: the key registers hold a key loaded by KEYLOAD. -/
def statusKeyv (st : Word) : Bool := st.getLsbD 30

/-- STATUS.ERR, bit 31, the sticky error flag. -/
def statusErr (st : Word) : Bool := st.getLsbD 31

/-- The reserved bits [15:12] and [29:24] read 0 (R24). -/
def statusReservedClear (st : Word) : Bool := st.extractLsb' 12 4 == 0 && st.extractLsb' 24 6 == 0

/-- DETAIL of InvalidArgument (R242). -/
inductive ArgDetail where
  | startNeg
  | countNeg
  | buflenNeg
  | tooLarge
  | range
  | offsetNeg
  | whence
  | nRange
  | sourceHandle
deriving DecidableEq, Repr

/-- DETAIL of UnsupportedOperation (R243). -/
inductive UnsupportedDetail where
  | write
  | flush
  | setlen
  | seek
deriving DecidableEq, Repr

/-- STATUS.PHASE of UnderlyingIOFailure (R244). -/
inductive Phase where
  | header
  | blockScratch
  | content
deriving DecidableEq, Repr

/-- DETAIL of UnderlyingIOFailure (R244). -/
inductive IoDetail where
  | device
  | short
deriving DecidableEq, Repr

/-- DETAIL of SlotState (R246). -/
inductive SlotDetail where
  | slotRange
  | closed
  | wrongKind
  | alreadyOpen
deriving DecidableEq, Repr

/-- `raise C(detail, info)` (R7, R240): a cause with what its rule makes it carry. -/
inductive Failure where
  /-- 0x01 (R242), with its ERRINFO. -/
  | invalidArgument (d : ArgDetail) (info : U64)
  /-- 0x02 (R243). -/
  | unsupportedOperation (d : UnsupportedDetail)
  /-- 0x03 (R244), with the source offset ERRINFO holds. -/
  | underlyingIO (phase : Phase) (d : IoDetail) (offset : U64)
  /-- 0x80 (R245), with the command word. -/
  | illegalCommand (d : DecodeError) (word : Word)
  /-- 0x81 (R246), with SLOT. -/
  | slotState (d : SlotDetail) (slot : Nat)
  /-- 0x82 (R247), with the first address not admitted, or the start of a range that wraps. -/
  | hostAccess (addr : Nat)
  /-- 0x83 (R248), with the decoded length. -/
  | badLengthPrefix (length : Word)
  /-- 0x84 (R249). -/
  | keyNotLoaded
deriving DecidableEq, Repr

/-- The DETAIL codes of R242. -/
def ArgDetail.code : ArgDetail → BitVec 8
  | .startNeg => 1
  | .countNeg => 2
  | .buflenNeg => 3
  | .tooLarge => 4
  | .range => 5
  | .offsetNeg => 6
  | .whence => 7
  | .nRange => 8
  | .sourceHandle => 9

/-- The DETAIL codes of R243. -/
def UnsupportedDetail.code : UnsupportedDetail → BitVec 8
  | .write => 1
  | .flush => 2
  | .setlen => 3
  | .seek => 4

/-- The PHASE codes of R244. -/
def Phase.code : Phase → BitVec 4
  | .header => 1
  | .blockScratch => 2
  | .content => 3

/-- The DETAIL codes of R244. -/
def IoDetail.code : IoDetail → BitVec 8
  | .device => 1
  | .short => 2

/-- The DETAIL codes of R246. -/
def SlotDetail.code : SlotDetail → BitVec 8
  | .slotRange => 1
  | .closed => 2
  | .wrongKind => 3
  | .alreadyOpen => 4

/-- The DETAIL codes of R245. -/
def illegalCode : DecodeError → BitVec 8
  | .unknownOp => 1
  | .reservedBits => 2
  | .field => 3

/-- The cause codes of R241. -/
def Failure.cause : Failure → BitVec 8
  | .invalidArgument _ _ => 0x01
  | .unsupportedOperation _ => 0x02
  | .underlyingIO _ _ _ => 0x03
  | .illegalCommand _ _ => 0x80
  | .slotState _ _ => 0x81
  | .hostAccess _ => 0x82
  | .badLengthPrefix _ => 0x83
  | .keyNotLoaded => 0x84

/-- STATUS.PHASE of a failure: 0 for every cause but UnderlyingIOFailure (R240). -/
def Failure.phase : Failure → BitVec 4
  | .invalidArgument _ _ => 0
  | .unsupportedOperation _ => 0
  | .underlyingIO p _ _ => p.code
  | .illegalCommand _ _ => 0
  | .slotState _ _ => 0
  | .hostAccess _ => 0
  | .badLengthPrefix _ => 0
  | .keyNotLoaded => 0

/-- STATUS.DETAIL of a failure (R242 to R249). -/
def Failure.detail : Failure → BitVec 8
  | .invalidArgument d _ => d.code
  | .unsupportedOperation d => d.code
  | .underlyingIO _ d _ => d.code
  | .illegalCommand d _ => illegalCode d
  | .slotState d _ => d.code
  | .hostAccess _ => 0
  | .badLengthPrefix _ => 0
  | .keyNotLoaded => 0

/-- ERRINFO of a failure, zero-extended to 64 bits (R240, R242 to R249). An address at or past 2^64, which the register
cannot hold, leaves the free value drawn at `c` (notes/assumptions/5.md). -/
def Failure.info (f : Failure) (c : Nat) : U64 :=
  match f with
  | .invalidArgument _ info => info
  | .unsupportedOperation _ => 0
  | .underlyingIO _ _ offset => offset
  | .illegalCommand _ word => word.setWidth 64
  | .slotState _ slot => BitVec.ofNat 64 slot
  | .hostAccess addr => if addr < 2 ^ 64 then BitVec.ofNat 64 addr else Config.drawErrinfo c
  | .badLengthPrefix length => length.setWidth 64
  | .keyNotLoaded => 0

/-- How many free values a failure draws. -/
def Failure.drawn : Failure → Nat
  | .invalidArgument _ _ => 0
  | .unsupportedOperation _ => 0
  | .underlyingIO _ _ _ => 0
  | .illegalCommand _ _ => 0
  | .slotState _ _ => 0
  | .hostAccess addr => if addr < 2 ^ 64 then 0 else 1
  | .badLengthPrefix _ => 0
  | .keyNotLoaded => 0

/-- STATUS after a successful command: CAUSE, PHASE and DETAIL 0, ERR and KEYV unchanged (R24, R240). -/
def statusOnSuccess (st : Word) : Word := packStatus (statusErr st) (statusKeyv st) 0 0 0

/-- STATUS after a failing command: the cause's fields, ERR set, KEYV unchanged (R25, R240). -/
def statusOnFailure (f : Failure) (st : Word) : Word := packStatus true (statusKeyv st) f.detail f.phase f.cause

/-- STATUS with KEYV set, the other fields as they are: KEYLOAD's own effect (R221). -/
def statusSetKeyv (st : Word) : Word := st ||| 0x40000000#32

/-- STATUS with ERR cleared, the other fields as they are: CLRERR's own effect (R222). -/
def statusClearErr (st : Word) : Word := st &&& 0x7FFFFFFF#32

end Sys2Proof.Machine
end

