-- ==== Sys2Proof/Machine/Ops.lean ====
section
/-! DEFINITION. The named operations the meanings share: host memory (spec/20_memory.md rules R51, R52), the sources
(R63, R64), the slots, the outcome of a command (spec/60_exceptions.md rule R240) and reset (spec/10_state.md rule R40,
spec/70_reset_and_hazards.md rule R270). -/

namespace Sys2Proof.Machine

/-! ## Host memory -/

/-- What an unlisted address reads as: 0 (notes/assumptions/3.md). DESIGN CHOICE. -/
def Memory.unlisted : Byte := 0

/-- The byte at an address. -/
def Memory.byte : Memory → Nat → Byte
  | [], _ => Memory.unlisted
  | (b, v) :: rest, a => if a = b then v else Memory.byte rest a

/-- Stores one byte, keeping the canonical form. -/
def Memory.store : Memory → Nat → Byte → Memory
  | [], a, v => if v = Memory.unlisted then [] else [(a, v)]
  | (b, w) :: rest, a, v =>
    if a < b then (if v = Memory.unlisted then (b, w) :: rest else (a, v) :: (b, w) :: rest)
    else if a = b then (if v = Memory.unlisted then rest else (a, v) :: rest)
    else (b, w) :: Memory.store rest a v

/-- `MemWrite(a, n, bs)` on the memory alone (R52): `bs[i]` at address a+i. -/
def Memory.write : Memory → Nat → List Byte → Memory
  | m, _, [] => m
  | m, a, b :: bs => Memory.write (Memory.store m a b) (a + 1) bs

/-- The listed addresses rise strictly from `lo`, lie below 2^64, and no entry holds what an unlisted address reads. -/
def Memory.wfFrom : Nat → Memory → Bool
  | _, [] => true
  | lo, (a, v) :: rest => decide (lo ≤ a) && decide (a < 2 ^ 64) && decide (v ≠ Memory.unlisted) && Memory.wfFrom (a + 1) rest

/-- The canonical form of host memory. -/
def Memory.wf (m : Memory) : Bool := Memory.wfFrom 0 m

/-- `MemRead(a, n)` (R52). -/
def memRead (s : State) (a n : Nat) : List Byte := (List.range n).map (fun i => s.mem.byte (a + i))

/-- `MemWrite(a, n, bs)` (R52). -/
def memWrite (s : State) (a : Nat) (bs : List Byte) : State := { s with mem := s.mem.write a bs }

/-- The n bytes from `a` take any values (X4, X6): n free values. -/
def memHavoc (s : State) (a n : Nat) : State :=
  { s with mem := s.mem.write a ((List.range n).map (fun i => Config.drawByte (s.draws + i))), draws := s.draws + n }

/-! ## Admission by HostMem (R51) -/

/-- A host address the region holds. -/
def Region.contains (r : Region) (a : Nat) : Bool := decide (r.base ≤ a) && decide (a < r.base + r.size)

/-- An address of HostMem. -/
def admits (hostMem : List Region) (a : Nat) : Bool := hostMem.any (fun r => r.contains a)

/-- The lowest address of `[a, stop)` that is not in HostMem, looking at most `fuel` regions far: past a region that
holds `a`, the search goes on at the region's end. -/
def gapFrom (hostMem : List Region) : Nat → Nat → Nat → Option Nat
  | 0, a, stop => if a < stop then some a else none
  | fuel + 1, a, stop =>
    if a < stop then
      match hostMem.find? (fun r => r.contains a) with
      | none => some a
      | some r => gapFrom hostMem fuel (r.base + r.size) stop
    else none

/-- The lowest address of `[a, a+n)` that is not in HostMem. -/
def firstGap (hostMem : List Region) (a n : Nat) : Option Nat := gapFrom hostMem hostMem.length a (a + n)

/-- The check of a host range before a command's first access (R51, R247). A range is exact: it does not wrap. -/
def checkRange (s : State) (a n : Nat) : Except Failure Unit :=
  if n = 0 then .ok ()
  else if 2 ^ 64 < a + n then .error (.hostAccess a)
  else
    match firstGap s.hostMem a n with
    | none => .ok ()
    | some x => .error (.hostAccess x)

/-! ## Sources -/

/-- The source of handle h, where `h < N_SOURCES` and h is attached (R35). -/
def sourceOf (s : State) (h : Nat) : Option Source := (s.sources[h]?).join

/-- `SrcSeek(h, off)` (R64): sets the cursor, and never fails. -/
def srcSeek (s : State) (h : Nat) (c : U64) : State :=
  { s with sources := s.sources.modify h (Option.map (fun src => { src with cursor := c })) }

/-- The cursor of h takes any value (X2, X3, X5, X6): one free value. -/
def srcCursorDraw (s : State) (h : Nat) : State :=
  { srcSeek s h (Config.drawCursor s.draws) with draws := s.draws + 1 }

/-- The bytes `data[off .. off + d)` with `d = min(n, max(0, srclen - off))` (R63). -/
def delivery (src : Source) (off n : Nat) : List Byte := (src.data.drop off).take n

/-- `SrcRead(h, off, n)` of the source `src` of handle h (R63): `none` is a failure. Each read draws once. -/
def srcRead (s : State) (h : Nat) (src : Source) (off n : Nat) : State × Option (List Byte) :=
  if src.mayFail && Config.drawReadFails s.draws then (srcCursorDraw s h, none)
  else
    ({ srcSeek s h (BitVec.ofNat 64 (off + (delivery src off n).length)) with draws := s.draws + 1 },
      some (delivery src off n))

/-! ## Slots -/

/-- `S[slot] <- v`. -/
def setSlot (s : State) (slot : Nat) (v : Slot) : State := { s with slots := s.slots.set slot v }

/-! ## The outcome of a command (R240) -/

/-- Success: STATUS.CAUSE, PHASE and DETAIL and ERRINFO become 0, RES the rule's result, ERR and KEYV unchanged. -/
def succeed (s : State) (res : U64) : State :=
  { s with status := statusOnSuccess s.status, errinfo := 0, res := res }

/-- `raise`: a failing command, the CORE's only exception (R240). STATUS takes the cause, PHASE and DETAIL and ERR = 1,
ERRINFO the cause's value, RES 0. Nothing is saved and control goes nowhere (R252), so there is no return from it. -/
def raise (s : State) (f : Failure) : State :=
  { s with status := statusOnFailure f s.status, errinfo := f.info s.draws, res := 0, draws := s.draws + f.drawn }

/-! ## Reset (R40, R270) -/

/-- Reset between commands: every register of R20 at its reset value and every slot Closed; host memory, the sources
and the launch parameters as they are. -/
def resetCore (s : State) : State :=
  { s with
    cmd := 0, a0 := 0, a1 := 0, a2 := 0, a3 := 0, res := 0, status := 0, errinfo := 0, key := ⟨0, 0, 0, 0⟩,
    slots := s.slots.map (fun _ => .closed) }

end Sys2Proof.Machine
end

