-- ==== Sys2Proof/Machine/Operands.lean ====
section
/-! DEFINITION. The operand forms of spec/30_encoding.md rule R74 and their checks, in the order each command's rule and
spec/60_exceptions.md rule R250 give: the checks of a command touch nothing (R250, R251). -/

namespace Sys2Proof.Machine

/-- MAX_COUNT (spec/00_scope.md section 4). -/
def maxCount : Int := 2 ^ 31 - 1

/-- A host range `[addr, addr + count)`. -/
structure Span where
  addr : Nat
  count : Nat
deriving DecidableEq, Repr

/-- A check that raises its failure where it does not hold. -/
def require (ok : Bool) (f : Failure) : Except Failure Unit := if ok then .ok () else .error f

/-! ## BUF and BUFN (R74, R75) -/

/-- The checks of R75 in their order, `count` being as_i64(A3) or 4·N; the sums are exact. -/
def bufSpan (s : State) (count : Int) : Except Failure Span :=
  if s.a2.toInt < 0 then .error (.invalidArgument .startNeg s.a2)
  else if count < 0 then .error (.invalidArgument .countNeg s.a3)
  else if s.a1.toInt < 0 then .error (.invalidArgument .buflenNeg s.a1)
  else if maxCount < s.a1.toInt ∨ maxCount < count then
    .error (.invalidArgument .tooLarge (BitVec.ofInt 64 (max s.a1.toInt count)))
  else if s.a1.toInt < s.a2.toInt + count then
    .error (.invalidArgument .range (BitVec.ofInt 64 (s.a2.toInt + count)))
  else .ok ⟨s.a0.toNat + s.a2.toNat, count.toNat⟩

/-- A BUF or BUFN operand whose range HostMem admits (R75, R51). -/
def admittedSpan (s : State) (count : Int) : Except Failure Span := do
  let r ← bufSpan s count
  checkRange s r.addr r.count
  return r

/-- The BUF form: count is A3 (R74). -/
def bufOperand (s : State) : Except Failure Span := admittedSpan s s.a3.toInt

/-- The operand of a cipher command of form BUF (R104): KEYV first, then the operand. -/
def cipherOperand (s : State) : Except Failure Span := do
  require (statusKeyv s.status) .keyNotLoaded
  bufOperand s

/-- The operand of a cipher command of form BUFN (R150, R151): KEYV, then N at least `least` and at most 16 (R76), then
the operand with count 4·N. -/
def cipherOperandN (s : State) (least n : Nat) : Except Failure Span := do
  require (statusKeyv s.status) .keyNotLoaded
  require (decide (least ≤ n ∧ n ≤ 16)) (.invalidArgument .nRange (BitVec.ofNat 64 n))
  admittedSpan s (4 * (n : Int))

/-! ## Key buffers (KEYADDR, AOPEN, SOPEN) -/

/-- The key of the 16-byte key buffer at a host address, its range checked first (R51, R172, R200, R221). -/
def keyBuffer (s : State) (addr : U64) : Except Failure Key := do
  checkRange s addr.toNat 16
  return keyOfBytes (memRead s addr.toNat 16)

/-! ## Source handles and offsets (AOPEN, SOPEN, SRCPOS, SRCH) -/

/-- The source A0 names (R242 detail SOURCE_HANDLE). -/
def sourceOperand (s : State) : Except Failure Source :=
  match sourceOf s s.a0.toNat with
  | none => .error (.invalidArgument .sourceHandle s.a0)
  | some src => .ok src

/-- A1 read as an i64 offset that is not negative (R242 detail OFFSET_NEG). -/
def offsetOperand (s : State) : Except Failure U64 := do
  require (decide (0 ≤ s.a1.toInt)) (.invalidArgument .offsetNeg s.a1)
  return s.a1

/-! ## Slots (R79, R246) -/

/-- The slot SLOT names. -/
def slotOperand (s : State) (slot : Nat) : Except Failure Slot :=
  match s.slots[slot]? with
  | none => .error (.slotState .slotRange slot)
  | some v => .ok v

/-- `require_slot(Aligned)` (43_aligned_block_stream.md). -/
def alignedSlot (s : State) (slot : Nat) : Except Failure Aligned := do
  match ← slotOperand s slot with
  | .closed => .error (.slotState .closed slot)
  | .aligned f => .ok f
  | .seqBlockTea _ => .error (.slotState .wrongKind slot)
  | .seqVbt _ => .error (.slotState .wrongKind slot)

/-- `require_slot(Seq)` (44_sequential_stream.md), with the slot's variant. -/
def seqSlot (s : State) (slot : Nat) : Except Failure (SeqKind × Sequential) := do
  match ← slotOperand s slot with
  | .closed => .error (.slotState .closed slot)
  | .aligned _ => .error (.slotState .wrongKind slot)
  | .seqBlockTea f => .ok (.blockTea, f)
  | .seqVbt f => .ok (.variableBlockTea, f)

/-- The slot an OPEN command takes is Closed (R172, R200). -/
def closedSlot (s : State) (slot : Nat) : Except Failure Unit := do
  match ← slotOperand s slot with
  | .closed => .ok ()
  | .aligned _ => .error (.slotState .alreadyOpen slot)
  | .seqBlockTea _ => .error (.slotState .alreadyOpen slot)
  | .seqVbt _ => .error (.slotState .alreadyOpen slot)

/-! ## A command as its checks and its effect -/

/-- What a command answers. -/
abbrev Result := Host.Outcome State Fault Refusal

/-- A command that raises the first failure of its checks, and otherwise has its effect (R8, R250, R251). -/
def command {α : Type} (s : State) (checks : Except Failure α) (effect : α → Result) : Result :=
  match checks with
  | .error f => .next (raise s f)
  | .ok x => effect x

/-- A command over an operand range in place: it reads the whole range, then writes `f` of its bytes (R59). -/
def inPlace (s : State) (f : List Byte → List Byte) (r : Span) : Result :=
  .next (succeed (memWrite s r.addr (f (memRead s r.addr r.count))) 0)

end Sys2Proof.Machine
end

