-- ==== Sys2Proof/Machine/BlockTea.lean ====
section
/-! DEFINITION. BlockTeaCipher (spec/41_block_tea.md): the block functions of rules R122 and R123, the byte layout of
R124, and the commands BTEA.DEC and BTEA.ENC. -/

namespace Sys2Proof.Machine

/-- DELTA (R120). -/
def delta : Word := 0x9E3779B9

/-- ROUNDS (R120). -/
def bteaRounds : Nat := 32

/-- The initial decrypt sum, DELTA · ROUNDS mod 2^32 (R120). -/
def bteaSum0 : Word := 0xC6EF3720

/-- The block-mix F (R121). -/
def bteaMix (v : Word) : Word := ((v <<< 4) ^^^ (v >>> 5)) + v

/-- The key word K[(sum >> 11) & 3]. -/
def keyHigh (K : Key) (sum : Word) : Word := K.word ((sum >>> 11) &&& 3).toNat

/-- The key word K[sum & 3]. -/
def keyLow (K : Key) (sum : Word) : Word := K.word (sum &&& 3).toNat

/-- One pass of R122: `v1`, then `v0` with the decremented sum. -/
def btDecPass (K : Key) (sum : Word) (v : Word × Word) : Word × Word :=
  match v.2 - (bteaMix v.1 ^^^ (sum + keyHigh K sum)) with
  | v1 => (v.1 - (bteaMix v1 ^^^ (sum - delta + keyLow K (sum - delta))), v1)

/-- One pass of R123: `v0`, then `v1` with the incremented sum. -/
def btEncPass (K : Key) (sum : Word) (v : Word × Word) : Word × Word :=
  match v.1 + (bteaMix v.2 ^^^ (sum + keyLow K sum)) with
  | v0 => (v0, v.2 + (bteaMix v0 ^^^ (sum + delta + keyHigh K (sum + delta))))

/-- The passes of R122 from a sum. -/
def btDecPasses (K : Key) : Nat → Word → Word × Word → Word × Word
  | 0, _, v => v
  | k + 1, sum, v => btDecPasses K k (sum - delta) (btDecPass K sum v)

/-- The passes of R123 from a sum. -/
def btEncPasses (K : Key) : Nat → Word → Word × Word → Word × Word
  | 0, _, v => v
  | k + 1, sum, v => btEncPasses K k (sum + delta) (btEncPass K sum v)

/-- `BT_dec_block` (R122). -/
def btDecBlock (K : Key) (v : Word × Word) : Word × Word := btDecPasses K bteaRounds bteaSum0 v

/-- `BT_enc_block` (R123). -/
def btEncBlock (K : Key) (v : Word × Word) : Word × Word := btEncPasses K bteaRounds 0 v

/-- The eight bytes of a block's two words, v0 at the lower offset (R124). -/
def blockBytes (v : Word × Word) : List Byte := bytesLe32 v.1 ++ bytesLe32 v.2

/-- A block function on the complete 8-byte blocks of a byte sequence; the trailing 0 to 7 bytes are left as they are
(R124). -/
def btBlocks (f : Word × Word → Word × Word) : List Byte → List Byte
  | b0 :: b1 :: b2 :: b3 :: b4 :: b5 :: b6 :: b7 :: rest =>
    blockBytes (f (le32 b0 b1 b2 b3, le32 b4 b5 b6 b7)) ++ btBlocks f rest
  | tail => tail

/-- `BT_dec(K, x)` (R124). -/
def btDec (K : Key) (x : List Byte) : List Byte := btBlocks (btDecBlock K) x

/-- `BT_enc(K, x)` (R124). -/
def btEnc (K : Key) (x : List Byte) : List Byte := btBlocks (btEncBlock K) x

/-- BTEA.DEC (R125). -/
def execBteaDec (s : State) : Result := command s (cipherOperand s) (inPlace s (btDec s.key))

/-- BTEA.ENC (R126). -/
def execBteaEnc (s : State) : Result := command s (cipherOperand s) (inPlace s (btEnc s.key))

end Sys2Proof.Machine
end

