-- ==== Sys2Proof/Machine/ByteFeedback.lean ====
section
/-! DEFINITION. ByteFeedbackCipher (spec/40_byte_feedback.md): the functions of rules R101 and R102 and the commands
BFC.ENC and BFC.DEC. -/

namespace Sys2Proof.Machine

/-- Step 2's rotation of k_hi, `rotl8(k_hi, (p + L - i) mod 7)` (R101): the sum is exact, and positive because i < L. -/
def bfcMask (K : Key) (L i : Nat) (p : Byte) : Byte := rotl8 (keyByte K (15 - i % 16)) ((p.toNat + L - i) % 7)

/-- Step 3's rotation amount, `(~p) mod 7` (R101, R4). -/
def bfcTurn (p : Byte) : Nat := (255 - p.toNat) % 7

/-- One byte of R101. -/
def bfcEncByte (K : Key) (L i : Nat) (p x : Byte) : Byte :=
  rotr8 ((x + (keyByte K (i % 16) >>> 2)) ^^^ bfcMask K L i p) (bfcTurn p)

/-- One byte of R102. -/
def bfcDecByte (K : Key) (L i : Nat) (p c : Byte) : Byte :=
  (rotl8 c (bfcTurn p) ^^^ bfcMask K L i p) - (keyByte K (i % 16) >>> 2)

/-- The loop of R101 from index i with feedback p: the feedback is the byte just written. -/
def bfcEncFrom (K : Key) (L : Nat) : Nat → Byte → List Byte → List Byte
  | _, _, [] => []
  | i, p, x :: xs => bfcEncByte K L i p x :: bfcEncFrom K L (i + 1) (bfcEncByte K L i p x) xs

/-- The loop of R102 from index i with feedback p: the feedback is the byte just read (90_conflicts.md C1). -/
def bfcDecFrom (K : Key) (L : Nat) : Nat → Byte → List Byte → List Byte
  | _, _, [] => []
  | i, p, c :: cs => bfcDecByte K L i p c :: bfcDecFrom K L (i + 1) c cs

/-- `BFC_enc(kb, x)` (R101, R103). -/
def bfcEnc (K : Key) (x : List Byte) : List Byte := bfcEncFrom K x.length 0 0 x

/-- `BFC_dec(kb, y)` (R102, R103). -/
def bfcDec (K : Key) (y : List Byte) : List Byte := bfcDecFrom K y.length 0 0 y

/-- BFC.ENC (R104). -/
def execBfcEnc (s : State) : Result := command s (cipherOperand s) (inPlace s (bfcEnc s.key))

/-- BFC.DEC (R105). -/
def execBfcDec (s : State) : Result := command s (cipherOperand s) (inPlace s (bfcDec s.key))

end Sys2Proof.Machine
end

