-- ==== Sys2Proof/Machine/VariableBlockTea.lean ====
section
/-! DEFINITION. VariableBlockTeaCipher (spec/42_variable_block_tea.md): the word-block functions of rules R140 to R143,
the byte routing of R145 and R146, and the commands VBT.DEC, VBT.ENC, VBT.DECN and VBT.ENCN. -/

namespace Sys2Proof.Machine

/-- MX (R140); `e` is a number in 0..3. -/
def mx (K : Key) (z y sum : Word) (p e : Nat) : Word :=
  (((z >>> 5) ^^^ (y <<< 2)) + ((y >>> 3) ^^^ (z <<< 4))) ^^^ ((sum ^^^ y) + (K.word ((p % 4) ^^^ e) ^^^ z))

/-- `rounds(n) = 6 + floor(52 / n)` (R141). -/
def vbtRounds (n : Nat) : Nat := 6 + 52 / n

/-- `e <- (sum >> 2) & 3` (R142, R143). -/
def vbtE (sum : Word) : Nat := ((sum >>> 2) &&& 3).toNat

/-- Word i of a block. -/
def wordAt (v : List Word) (i : Nat) : Word := v.getD i 0

/-- The inner loop of R142, for p from its argument down to 1, with y the value just written. -/
def vbtDecInner (K : Key) (sum : Word) (e : Nat) : Nat → List Word → Word → List Word × Word
  | 0, v, y => (v, y)
  | p + 1, v, y =>
    match wordAt v (p + 1) - mx K (wordAt v p) y sum (p + 1) e with
    | w => vbtDecInner K sum e p (v.set (p + 1) w) w

/-- One pass of R142: the inner loop, then word 0. -/
def vbtDecPass (K : Key) (sum : Word) (v : List Word) : List Word :=
  match vbtDecInner K sum (vbtE sum) (v.length - 1) v (wordAt v 0) with
  | (v1, y) => v1.set 0 (wordAt v1 0 - mx K (wordAt v1 (v.length - 1)) y sum 0 (vbtE sum))

/-- `while sum != 0` of R142, whose passes are at most `fuel`; the sum steps at the end of the pass (decision D5). -/
def vbtDecLoop (K : Key) : Nat → Word → List Word → List Word
  | 0, _, v => v
  | fuel + 1, sum, v => if sum = 0 then v else vbtDecLoop K fuel (sum - delta) (vbtDecPass K sum v)

/-- `VBT_dec_words(K, v)` (R142). -/
def vbtDecWords (K : Key) (v : List Word) : List Word :=
  vbtDecLoop K (vbtRounds v.length) (BitVec.ofNat 32 (vbtRounds v.length) * delta) v

/-- The inner loop of R143: `left` words from index p upward, with z the value just written. -/
def vbtEncInner (K : Key) (sum : Word) (e : Nat) : Nat → Nat → List Word → Word → List Word × Word
  | 0, _, v, z => (v, z)
  | left + 1, p, v, z =>
    match wordAt v p + mx K z (wordAt v (p + 1)) sum p e with
    | w => vbtEncInner K sum e left (p + 1) (v.set p w) w

/-- One pass of R143, with the sum already incremented: words 0 to n-2, then word n-1. -/
def vbtEncPass (K : Key) (sum : Word) (v : List Word) : List Word :=
  match vbtEncInner K sum (vbtE sum) (v.length - 1) 0 v (wordAt v (v.length - 1)) with
  | (v1, z) =>
    v1.set (v.length - 1)
      (wordAt v1 (v.length - 1) + mx K z (wordAt v1 0) sum (v.length - 1) (vbtE sum))

/-- The passes of R143: the sum steps at the start of the pass. -/
def vbtEncLoop (K : Key) : Nat → Word → List Word → List Word
  | 0, _, v => v
  | k + 1, sum, v => vbtEncLoop K k (sum + delta) (vbtEncPass K (sum + delta) v)

/-- `VBT_enc_words(K, v)` (R143). -/
def vbtEncWords (K : Key) (v : List Word) : List Word := vbtEncLoop K (vbtRounds v.length) 0 v

/-- A word-block function on the bytes of a block. -/
def onWords (f : List Word → List Word) (bs : List Byte) : List Byte := wordsToBytes (f (bytesToWords bs))

/-- The tail of R145, 0 to 63 bytes: a word tail where `floor(left / 4) > 1`, then the bytes left to the byte cipher. -/
def vbtTail (fw : List Word → List Word) (fb : List Byte → List Byte) (x : List Byte) : List Byte :=
  if 1 < x.length / 4 then onWords fw (x.take (4 * (x.length / 4))) ++ fb (x.drop (4 * (x.length / 4))) else fb x

/-- The full 64-byte blocks of R145, then the tail. -/
def vbtBlocks (fw : List Word → List Word) (fb : List Byte → List Byte) : Nat → List Byte → List Byte
  | 0, x => vbtTail fw fb x
  | full + 1, x => onWords fw (x.take 64) ++ vbtBlocks fw fb full (x.drop 64)

/-- The byte-level routing of R145 and R146: `fw` on words, `fb` on the byte tail. -/
def vbtRoute (fw : List Word → List Word) (fb : List Byte → List Byte) (x : List Byte) : List Byte :=
  vbtBlocks fw fb (x.length / 64) x

/-- `VBT_dec(K, x)` (R145). -/
def vbtDec (K : Key) (x : List Byte) : List Byte := vbtRoute (vbtDecWords K) (bfcDec K) x

/-- `VBT_enc(K, x)` (R146). -/
def vbtEnc (K : Key) (x : List Byte) : List Byte := vbtRoute (vbtEncWords K) (bfcEnc K) x

/-- VBT.DEC (R148). -/
def execVbtDec (s : State) : Result := command s (cipherOperand s) (inPlace s (vbtDec s.key))

/-- VBT.ENC (R149). -/
def execVbtEnc (s : State) : Result := command s (cipherOperand s) (inPlace s (vbtEnc s.key))

/-- VBT.DECN (R150): 1 ≤ N ≤ 16. -/
def execVbtDecn (n : Nat) (s : State) : Result :=
  command s (cipherOperandN s 1 n) (inPlace s (onWords (vbtDecWords s.key)))

/-- VBT.ENCN (R151): 2 ≤ N ≤ 16. -/
def execVbtEncn (n : Nat) (s : State) : Result :=
  command s (cipherOperandN s 2 n) (inPlace s (onWords (vbtEncWords s.key)))

end Sys2Proof.Machine
end

