-- ==== Sys2Proof/Machine/AlignedStream.lean ====
section
/-! DEFINITION. AlignedBlockStream (spec/43_aligned_block_stream.md): the content of a stream (rule R170), the source
reads of ABS.READ (R171, R174, R175), and the eight ABS commands. -/

namespace Sys2Proof.Machine

/-- `Content(s)` (R170): the whole content of a stream over a source's data, decrypted once. -/
def content (data : List Byte) (f : Aligned) : List Byte :=
  vbtDec f.key ((data.drop f.origin.toNat).take f.length.toNat)

/-! ## ABS.OPEN -/

/-- What ABS.OPEN takes: the source, the offset and the stream's key. -/
structure OpenOperand where
  source : Source
  offset : U64
  key : Key
deriving DecidableEq, Repr

/-- The checks of ABS.OPEN in the order of R172. -/
def absOpenOperand (slot : Nat) (s : State) : Except Failure OpenOperand := do
  closedSlot s slot
  let src ← sourceOperand s
  let off ← offsetOperand s
  let k ← keyBuffer s s.a2
  return ⟨src, off, k⟩

/-- The length prefix: `le32` of the 4 bytes decrypted once (R172, R173). -/
def lengthPrefix (k : Key) (raw : List Byte) : Word :=
  match vbtDec k raw with
  | bs => le32 (byteAt bs 0) (byteAt bs 1) (byteAt bs 2) (byteAt bs 3)

/-- A failure after ABS.OPEN's source read leaves the cursor at the open offset (R172). -/
def absOpenFails (s : State) (h : Nat) (off : U64) (f : Failure) : Result := .next (raise (srcSeek s h off) f)

/-- ABS.OPEN's steps 1, 3 and 4 (R172). -/
def absOpenEffect (slot : Nat) (s : State) (o : OpenOperand) : Result :=
  match srcRead s s.a0.toNat o.source o.offset.toNat 4 with
  | (s1, none) => absOpenFails s1 s.a0.toNat o.offset (.underlyingIO .header .device o.offset)
  | (s1, some raw) =>
    if raw.length < 4 then
      absOpenFails s1 s.a0.toNat o.offset
        (.underlyingIO .header .short (BitVec.ofNat 64 (o.offset.toNat + raw.length)))
    else
      match lengthPrefix o.key raw with
      | length =>
        if 2 ^ 31 ≤ length.toNat then absOpenFails s1 s.a0.toNat o.offset (.badLengthPrefix length)
        else
          .next (succeed (setSlot s1 slot (.aligned ⟨s.a0.toNat, o.key, o.offset + 4, length, 0⟩))
            (length.setWidth 64))

/-- ABS.OPEN (R172). -/
def execAbsOpen (slot : Nat) (s : State) : Result :=
  command s (absOpenOperand slot s) (absOpenEffect slot s)

/-! ## ABS.READ -/

/-- One source read of ABS.READ: logical positions `[first, first + size)` are read and decrypted as one range, and the
bytes `[skip, skip + keep)` of the result are delivered. -/
structure ReadStep where
  phase : Phase
  first : Nat
  size : Nat
  skip : Nat
  keep : Nat
deriving DecidableEq, Repr

/-- The scratch read of block b (R171), delivering positions `[q, q + keep)`. -/
def blockStep (length b q keep : Nat) : ReadStep :=
  ⟨.blockScratch, 64 * b, min 64 (length - 64 * b), q - 64 * b, keep⟩

/-- The source reads of a read of n > 0 bytes at pos, in order: head, middle and tail (R174, R175). -/
def readPlan (length pos n : Nat) : List ReadStep :=
  let stop := pos + n
  let bf := pos / 64
  let bl := (stop - 1) / 64
  let mid := 64 * (bf + 1)
  let me := if stop % 64 = 0 then stop else 64 * bl
  blockStep length bf pos (min stop mid - pos)
    :: (if bf < bl then
          (if mid < me then [⟨.content, mid, me - mid, 0, me - mid⟩] else [])
            ++ (if stop % 64 = 0 then [] else [blockStep length bl (64 * bl) (stop - 64 * bl)])
        else [])

/-- Runs the reads in order up to the first failure (R174, R250): each is one SrcRead at `origin + first`, which fails
with DEVICE, or with SHORT where it delivers fewer bytes than it needs. -/
def runReads (f : Aligned) (src : Source) : List ReadStep → State → State × Except Failure (List Byte)
  | [], s => (s, .ok [])
  | r :: rest, s =>
    match srcRead s f.src src (f.origin.toNat + r.first) r.size with
    | (s1, none) => (s1, .error (.underlyingIO r.phase .device (BitVec.ofNat 64 (f.origin.toNat + r.first))))
    | (s1, some raw) =>
      if raw.length < r.size then
        (s1, .error (.underlyingIO r.phase .short (BitVec.ofNat 64 (f.origin.toNat + r.first + raw.length))))
      else
        match runReads f src rest s1 with
        | (s2, .error e) => (s2, .error e)
        | (s2, .ok out) => (s2, .ok (((vbtDec f.key raw).drop r.skip).take r.keep ++ out))

/-- The checks of ABS.READ in the order of R174. -/
def absReadOperand (slot : Nat) (s : State) : Except Failure (Aligned × Span) := do
  let f ← alignedSlot s slot
  let r ← bufOperand s
  return (f, r)

/-- The clamp of R174: `n = min(count, length - pos)`. -/
def absReadCount (f : Aligned) (count : Nat) : Nat := min count (f.length.toNat - f.pos.toNat)

/-- ABS.READ's effect for n > 0 (R174, R176). A failing read leaves the n destination bytes any values and the position
as it was; after either outcome the source's cursor takes any value. -/
def absReadSome (slot : Nat) (s : State) (f : Aligned) (src : Source) (addr n : Nat) : Result :=
  match runReads f src (readPlan f.length.toNat f.pos.toNat n) s with
  | (s1, .error e) => .next (raise (srcCursorDraw (memHavoc s1 addr n) f.src) e)
  | (s1, .ok out) =>
    .next (succeed
      (srcCursorDraw
        (setSlot (memWrite s1 addr out) slot (.aligned { f with pos := BitVec.ofNat 64 (f.pos.toNat + n) })) f.src)
      (BitVec.ofNat 64 n))

/-- ABS.READ's effect (R174): nothing is touched where n = 0. -/
def absReadEffect (slot : Nat) (s : State) (o : Aligned × Span) : Result :=
  match absReadCount o.1 o.2.count with
  | 0 => .next (succeed s 0)
  | n + 1 =>
    match sourceOf s o.1.src with
    | none => .fault .detachedSource
    | some src => absReadSome slot s o.1 src o.2.addr (n + 1)

/-- ABS.READ (R174). -/
def execAbsRead (slot : Nat) (s : State) : Result :=
  command s (absReadOperand slot s) (absReadEffect slot s)

/-! ## ABS.SEEK and the queries -/

/-- The checks of ABS.SEEK in the order of R177. -/
def absSeekOperand (slot : Nat) (whence : Whence) (s : State) : Except Failure Aligned := do
  let f ← alignedSlot s slot
  require (decide (whence ≠ .three)) (.invalidArgument .whence 3)
  return f

/-- The seek's base (R77, R177); WHENCE 3 is refused before it is asked for. -/
def seekBase (f : Aligned) : Whence → Int
  | .fromBegin => 0
  | .fromCurrent => f.pos.toNat
  | .fromEnd => f.length.toNat
  | .three => 0

/-- The new position (R177): the exact target, clamped to `[0, length]`. -/
def seekTarget (f : Aligned) (whence : Whence) (offset : U64) : Nat :=
  (min (max (seekBase f whence + offset.toInt) 0) f.length.toNat).toNat

/-- ABS.SEEK's effect (R177): the position is set, and the source's cursor to origin + pos. -/
def absSeekEffect (slot : Nat) (s : State) (f : Aligned) (target : Nat) : Result :=
  match sourceOf s f.src with
  | none => .fault .detachedSource
  | some _ =>
    .next (succeed
      (srcSeek (setSlot s slot (.aligned { f with pos := BitVec.ofNat 64 target })) f.src
        (BitVec.ofNat 64 (f.origin.toNat + target)))
      (BitVec.ofNat 64 target))

/-- ABS.SEEK (R177). -/
def execAbsSeek (slot : Nat) (whence : Whence) (s : State) : Result :=
  command s (absSeekOperand slot whence s) fun f => absSeekEffect slot s f (seekTarget f whence s.a0)

/-- ABS.LEN (R178). -/
def execAbsLen (slot : Nat) (s : State) : Result :=
  command s (alignedSlot s slot) fun f => .next (succeed s (f.length.setWidth 64))

/-- ABS.POS (R179). -/
def execAbsPos (slot : Nat) (s : State) : Result :=
  command s (alignedSlot s slot) fun f => .next (succeed s f.pos)

/-! ## Refused operations -/

/-- A refused operation of an open Aligned stream (R180 to R182): the slot check comes first. -/
def absUnsupported (slot : Nat) (d : UnsupportedDetail) (s : State) : Result :=
  command s (alignedSlot s slot) fun _ => .next (raise s (.unsupportedOperation d))

/-- ABS.WRITE (R180). -/
def execAbsWrite (slot : Nat) (s : State) : Result := absUnsupported slot .write s

/-- ABS.FLUSH (R181). -/
def execAbsFlush (slot : Nat) (s : State) : Result := absUnsupported slot .flush s

/-- ABS.SETLEN (R182). -/
def execAbsSetlen (slot : Nat) (s : State) : Result := absUnsupported slot .setlen s

end Sys2Proof.Machine
end

