-- ==== Sys2Proof/Machine/Control.lean ====
section
/-! DEFINITION. The control commands (spec/46_host_control.md rules R220 to R225): NOP, KEYLOAD, CLRERR, SRC.SETPOS,
SRC.GETPOS and CLOSE. -/

namespace Sys2Proof.Machine

/-- NOP (R220): `RES <- 0`. -/
def execNop (s : State) : Result := .next (succeed s 0)

/-- KEYLOAD (R221): loads K[0..3] from the key buffer at A0 and sets KEYV. -/
def execKeyload (s : State) : Result :=
  command s (keyBuffer s s.a0) fun k =>
    .next (succeed { s with key := k, status := statusSetKeyv s.status } 0)

/-- CLRERR (R222): `STATUS.ERR <- 0`. -/
def execClrerr (s : State) : Result := .next (succeed { s with status := statusClearErr s.status } 0)

/-- The operands of SRC.SETPOS, in the order of R223. -/
def setposOperand (s : State) : Except Failure U64 := do
  let _ ← sourceOperand s
  offsetOperand s

/-- SRC.SETPOS (R223): sets the cursor of the source A0 names to A1, which RES holds. -/
def execSrcSetpos (s : State) : Result :=
  command s (setposOperand s) fun q => .next (succeed (srcSeek s s.a0.toNat q) q)

/-- SRC.GETPOS (R224): RES holds the cursor of the source A0 names. -/
def execSrcGetpos (s : State) : Result :=
  command s (sourceOperand s) fun src => .next (succeed s src.cursor)

/-- CLOSE (R225): the slot becomes Closed, whatever it was; its source is not touched. -/
def execClose (slot : Nat) (s : State) : Result :=
  command s (slotOperand s slot) fun _ => .next (succeed (setSlot s slot .closed) 0)

end Sys2Proof.Machine
end

