-- ==== Sys2Proof/Machine/SequentialStream.lean ====
section
/-! DEFINITION. SequentialCipherStream (spec/44_sequential_stream.md): the six SEQ commands. -/

namespace Sys2Proof.Machine

/-! ## SEQ.OPEN -/

/-- The checks of SEQ.OPEN in the order of R200, and the stream's key. -/
def seqOpenOperand (slot : Nat) (s : State) : Except Failure Key := do
  closedSlot s slot
  let _ ← sourceOperand s
  keyBuffer s s.a2

/-- The slot of a sequential stream of a variant (R78, R200). -/
def seqSlotOf (kind : SeqKind) (f : Sequential) : Slot :=
  match kind with
  | .blockTea => .seqBlockTea f
  | .variableBlockTea => .seqVbt f

/-- SEQ.OPEN (R200): the source is neither read nor moved. -/
def execSeqOpen (slot : Nat) (kind : SeqKind) (s : State) : Result :=
  command s (seqOpenOperand slot s) fun k =>
    .next (succeed (setSlot s slot (seqSlotOf kind ⟨s.a0.toNat, k⟩)) 0)

/-! ## SEQ.READ -/

/-- The checks of SEQ.READ in the order of R201. -/
def seqReadOperand (slot : Nat) (s : State) : Except Failure ((SeqKind × Sequential) × Span) := do
  let f ← seqSlot s slot
  let r ← bufOperand s
  return (f, r)

/-- The decrypt of a variant (R201 to R203). -/
def seqDec (kind : SeqKind) (K : Key) (raw : List Byte) : List Byte :=
  match kind with
  | .blockTea => btDec K raw
  | .variableBlockTea => vbtDec K raw

/-- SEQ.READ's effect for count > 0 (R201): the bytes at the source's cursor, decrypted alone. A short delivery is a
normal result; a failing read writes no host byte. -/
def seqReadSome (s : State) (kind : SeqKind) (f : Sequential) (src : Source) (r : Span) : Result :=
  match srcRead s f.src src src.cursor.toNat r.count with
  | (s1, none) => .next (raise s1 (.underlyingIO .content .device src.cursor))
  | (s1, some raw) =>
    .next (succeed (memWrite s1 r.addr (seqDec kind f.key raw)) (BitVec.ofNat 64 raw.length))

/-- SEQ.READ's effect (R201): no source access where count = 0. -/
def seqReadEffect (s : State) (o : (SeqKind × Sequential) × Span) : Result :=
  if o.2.count = 0 then .next (succeed s 0)
  else
    match sourceOf s o.1.2.src with
    | none => .fault .detachedSource
    | some src => seqReadSome s o.1.1 o.1.2 src o.2

/-- SEQ.READ (R201). -/
def execSeqRead (slot : Nat) (s : State) : Result :=
  command s (seqReadOperand slot s) (seqReadEffect s)

/-! ## Refused operations -/

/-- A refused operation of an open sequential stream (R204 to R207): the slot check comes first. -/
def seqUnsupported (slot : Nat) (d : UnsupportedDetail) (s : State) : Result :=
  command s (seqSlot s slot) fun _ => .next (raise s (.unsupportedOperation d))

/-- SEQ.SEEK (R204): refused for every WHENCE, 3 among them. -/
def execSeqSeek (slot : Nat) (_whence : Whence) (s : State) : Result := seqUnsupported slot .seek s

/-- SEQ.WRITE (R205). -/
def execSeqWrite (slot : Nat) (s : State) : Result := seqUnsupported slot .write s

/-- SEQ.FLUSH (R206). -/
def execSeqFlush (slot : Nat) (s : State) : Result := seqUnsupported slot .flush s

/-- SEQ.SETLEN (R207). -/
def execSeqSetlen (slot : Nat) (s : State) : Result := seqUnsupported slot .setlen s

end Sys2Proof.Machine
end

