-- ==== Sys2Proof/Machine/Dispatch.lean ====
section
/-! DEFINITION. The meaning of each command: one arm for each constructor of `Instr`. -/

namespace Sys2Proof.Machine

def exec (i : Instr) (s : State) : Host.Outcome State Fault Refusal :=
  match i with
  | .nop => Sys2Proof.Machine.execNop s
  | .keyload => Sys2Proof.Machine.execKeyload s
  | .clrerr => Sys2Proof.Machine.execClrerr s
  | .srcSetpos => Sys2Proof.Machine.execSrcSetpos s
  | .srcGetpos => Sys2Proof.Machine.execSrcGetpos s
  | .bfcEnc => Sys2Proof.Machine.execBfcEnc s
  | .bfcDec => Sys2Proof.Machine.execBfcDec s
  | .bteaDec => Sys2Proof.Machine.execBteaDec s
  | .bteaEnc => Sys2Proof.Machine.execBteaEnc s
  | .vbtDec => Sys2Proof.Machine.execVbtDec s
  | .vbtEnc => Sys2Proof.Machine.execVbtEnc s
  | .vbtDecn n => Sys2Proof.Machine.execVbtDecn n s
  | .vbtEncn n => Sys2Proof.Machine.execVbtEncn n s
  | .absOpen slot => Sys2Proof.Machine.execAbsOpen slot s
  | .absRead slot => Sys2Proof.Machine.execAbsRead slot s
  | .absSeek slot whence => Sys2Proof.Machine.execAbsSeek slot whence s
  | .absLen slot => Sys2Proof.Machine.execAbsLen slot s
  | .absPos slot => Sys2Proof.Machine.execAbsPos slot s
  | .absWrite slot => Sys2Proof.Machine.execAbsWrite slot s
  | .absFlush slot => Sys2Proof.Machine.execAbsFlush slot s
  | .absSetlen slot => Sys2Proof.Machine.execAbsSetlen slot s
  | .seqOpen slot kind => Sys2Proof.Machine.execSeqOpen slot kind s
  | .seqRead slot => Sys2Proof.Machine.execSeqRead slot s
  | .seqSeek slot whence => Sys2Proof.Machine.execSeqSeek slot whence s
  | .seqWrite slot => Sys2Proof.Machine.execSeqWrite slot s
  | .seqFlush slot => Sys2Proof.Machine.execSeqFlush slot s
  | .seqSetlen slot => Sys2Proof.Machine.execSeqSetlen slot s
  | .close slot => Sys2Proof.Machine.execClose slot s

end Sys2Proof.Machine
end

