-- ==== Sys2Proof/Machine/Interrupted.lean ====
section
/-! DEFINITION. Reset that interrupts a command (spec/70_reset_and_hazards.md rule R270, draw X6): the host bytes the
command would write and the cursor of the source it uses take any values, and the CORE is in the reset state. -/

namespace Sys2Proof.Machine

/-- What a command would write to host memory and which source's cursor it would move. -/
structure Footprint where
  span : Option Span
  source : Option Nat
deriving DecidableEq, Repr

/-- A command that touches neither host memory nor a source. -/
def Footprint.nothing : Footprint := ⟨none, none⟩

/-- The footprint of a cipher command: its operand range, where its checks pass. -/
def cipherFootprint (operand : Except Failure Span) : Footprint :=
  match operand with
  | .error _ => .nothing
  | .ok r => ⟨some r, none⟩

/-- The footprint of a command that only uses the source of handle `h`, where its checks pass. -/
def sourceFootprint {α : Type} (operand : Except Failure α) (h : α → Nat) : Footprint :=
  match operand with
  | .error _ => .nothing
  | .ok x => ⟨none, some (h x)⟩

/-- The footprint of ABS.READ: the n bytes it delivers, and its source. -/
def absReadFootprint (slot : Nat) (s : State) : Footprint :=
  match absReadOperand slot s with
  | .error _ => .nothing
  | .ok (f, r) =>
    if absReadCount f r.count = 0 then .nothing else ⟨some ⟨r.addr, absReadCount f r.count⟩, some f.src⟩

/-- The footprint of SEQ.READ: the bytes its source can deliver, and its source. -/
def seqReadFootprint (slot : Nat) (s : State) : Footprint :=
  match seqReadOperand slot s with
  | .error _ => .nothing
  | .ok ((_, f), r) =>
    match sourceOf s f.src with
    | none => .nothing
    | some src =>
      if r.count = 0 then .nothing else ⟨some ⟨r.addr, (delivery src src.cursor.toNat r.count).length⟩, some f.src⟩

/-- What each command would write and use in a state (notes/assumptions/10.md). A command that only seeks its source is
counted as using it, since whether the seek had happened is not stated. -/
def footprint (i : Instr) (s : State) : Footprint :=
  match i with
  | .nop => .nothing
  | .keyload => .nothing
  | .clrerr => .nothing
  | .srcSetpos => sourceFootprint (setposOperand s) (fun _ => s.a0.toNat)
  | .srcGetpos => .nothing
  | .bfcEnc => cipherFootprint (cipherOperand s)
  | .bfcDec => cipherFootprint (cipherOperand s)
  | .bteaDec => cipherFootprint (cipherOperand s)
  | .bteaEnc => cipherFootprint (cipherOperand s)
  | .vbtDec => cipherFootprint (cipherOperand s)
  | .vbtEnc => cipherFootprint (cipherOperand s)
  | .vbtDecn n => cipherFootprint (cipherOperandN s 1 n)
  | .vbtEncn n => cipherFootprint (cipherOperandN s 2 n)
  | .absOpen slot => sourceFootprint (absOpenOperand slot s) (fun _ => s.a0.toNat)
  | .absRead slot => absReadFootprint slot s
  | .absSeek slot whence => sourceFootprint (absSeekOperand slot whence s) (fun f => f.src)
  | .absLen _ => .nothing
  | .absPos _ => .nothing
  | .absWrite _ => .nothing
  | .absFlush _ => .nothing
  | .absSetlen _ => .nothing
  | .seqOpen _ _ => .nothing
  | .seqRead slot => seqReadFootprint slot s
  | .seqSeek _ _ => .nothing
  | .seqWrite _ => .nothing
  | .seqFlush _ => .nothing
  | .seqSetlen _ => .nothing
  | .close _ => .nothing

/-- The bytes and the cursor of a footprint take any values (X6). -/
def havocFootprint (p : Footprint) (s : State) : State :=
  match (match p.span with | none => s | some r => memHavoc s r.addr r.count) with
  | s1 =>
    match p.source with
    | none => s1
    | some h => srcCursorDraw s1 h

/-- The state after reset interrupts the command the word `w` spells; an illegal word has no effect to interrupt
(R245). -/
def interruptedReset (w : Word) (s : State) : State :=
  match decode w with
  | .error _ => resetCore s
  | .ok i => resetCore (havocFootprint (footprint i s) s)

end Sys2Proof.Machine
end

