-- ==== Sys2Proof/Machine/Window.lean ====
section
/-! DEFINITION. The register window as the host sees it (spec/10_state.md rules R20, R28, R29, R30): which register an
access reaches, what a read returns and what a write changes. A write of CMD issues a command; that is
Machine/Command.lean. -/

namespace Sys2Proof.Machine

/-- The registers of R20. -/
inductive HostReg where
  | cmd
  | a0
  | a1
  | a2
  | a3
  | res
  | status
  | errinfo
  | key0
  | key1
  | key2
  | key3
  | id
  | params
deriving DecidableEq, Repr

/-- What a host access reaches (R30). -/
inductive WindowAccess where
  /-- A register at its own width. -/
  | whole (r : HostReg)
  /-- A 32-bit half of a 64-bit register: bits [31:0], or [63:32] where `high`. -/
  | half (r : HostReg) (high : Bool)
  /-- An unmapped offset: reads 0, ignores writes. -/
  | unmapped
  /-- Any other access: no defined effect. -/
  | undefined
deriving DecidableEq, Repr

/-- The offset of a register (R20). -/
def HostReg.offset : HostReg → Nat
  | .cmd => 0x00
  | .a0 => 0x08
  | .a1 => 0x10
  | .a2 => 0x18
  | .a3 => 0x20
  | .res => 0x28
  | .status => 0x30
  | .errinfo => 0x38
  | .key0 => 0x40
  | .key1 => 0x44
  | .key2 => 0x48
  | .key3 => 0x4C
  | .id => 0x50
  | .params => 0x58

/-- The width of a register in bytes (R20). -/
def HostReg.bytes : HostReg → Nat
  | .cmd => 4
  | .a0 => 8
  | .a1 => 8
  | .a2 => 8
  | .a3 => 8
  | .res => 8
  | .status => 4
  | .errinfo => 8
  | .key0 => 4
  | .key1 => 4
  | .key2 => 4
  | .key3 => 4
  | .id => 4
  | .params => 4

/-- Every register of the window. -/
def hostRegs : List HostReg :=
  [.cmd, .a0, .a1, .a2, .a3, .res, .status, .errinfo, .key0, .key1, .key2, .key3, .id, .params]

/-- The offsets R20 lists as unmapped. -/
def unmappedOffset (off : Nat) : Bool := off == 0x04 || off == 0x54 || off == 0x5C || decide (0x60 ≤ off)

/-- What the host access of `bytes` bytes at a window offset reaches (R20, R30). Offset 0x34 is in no register and not
among the unmapped ones, so an access to it is undefined (notes/assumptions/7.md). -/
def windowAccess (off bytes : Nat) : WindowAccess :=
  match hostRegs.find? (fun r => r.offset == off && r.bytes == bytes) with
  | some r => .whole r
  | none =>
    match hostRegs.find? (fun r => r.bytes == 8 && bytes == 4 && (r.offset == off || r.offset + 4 == off)) with
    | some r => .half r (r.offset + 4 == off)
    | none =>
      if (bytes = 4 ∨ bytes = 8) ∧ off % bytes = 0 ∧ unmappedOffset off = true then .unmapped else .undefined

/-- ID (R28). -/
def idValue : Word := 0x4F5A3243

/-- N_SLOTS (R31). -/
def nSlots (s : State) : Nat := s.slots.length

/-- N_SOURCES (R35). -/
def nSources (s : State) : Nat := s.sources.length

/-- PARAMS (R20, R29): {16'b0, N_SOURCES[7:0], N_SLOTS[7:0]}. -/
def paramsValue (s : State) : Word :=
  placeField (BitVec.ofNat 8 (nSlots s)) 0 ||| placeField (BitVec.ofNat 8 (nSources s)) 8

/-- The value of a register, zero-extended to 64 bits. -/
def readReg (s : State) : HostReg → U64
  | .cmd => s.cmd.setWidth 64
  | .a0 => s.a0
  | .a1 => s.a1
  | .a2 => s.a2
  | .a3 => s.a3
  | .res => s.res
  | .status => s.status.setWidth 64
  | .errinfo => s.errinfo
  | .key0 => s.key.k0.setWidth 64
  | .key1 => s.key.k1.setWidth 64
  | .key2 => s.key.k2.setWidth 64
  | .key3 => s.key.k3.setWidth 64
  | .id => idValue.setWidth 64
  | .params => (paramsValue s).setWidth 64

/-- A host write of a whole register other than CMD: A0 to A3 take the value, a read-only register ignores it (R22,
R30). CMD is stored by the command it issues (R21). -/
def writeReg (s : State) (r : HostReg) (v : U64) : State :=
  match r with
  | .a0 => { s with a0 := v }
  | .a1 => { s with a1 := v }
  | .a2 => { s with a2 := v }
  | .a3 => { s with a3 := v }
  | .cmd => s
  | .res => s
  | .status => s
  | .errinfo => s
  | .key0 => s
  | .key1 => s
  | .key2 => s
  | .key3 => s
  | .id => s
  | .params => s

/-- A 32-bit half of a value (R30): bits [63:32] where `high`, else [31:0]. -/
def halfOf (high : Bool) (v : U64) : U64 :=
  if high then (v.extractLsb' 32 32).setWidth 64 else (v.extractLsb' 0 32).setWidth 64

/-- A value with one 32-bit half replaced (R30). -/
def withHalf (high : Bool) (v : U64) (w : Word) : U64 :=
  if high then (w.setWidth 64 <<< 32) ||| (v.extractLsb' 0 32).setWidth 64
  else ((v.extractLsb' 32 32).setWidth 64 <<< 32) ||| w.setWidth 64

/-- The offset of a bus address in the window: bytes from REG_BASE (R20). -/
def windowOffset (s : State) (addr : U64) : Nat := (addr - s.regBase).toNat

/-- What a host read of the window returns (R30); `none` is an access with no defined effect. -/
def windowRead (s : State) (off bytes : Nat) : Option U64 :=
  match windowAccess off bytes with
  | .whole r => some (readReg s r)
  | .half r high => some (halfOf high (readReg s r))
  | .unmapped => some 0
  | .undefined => none

end Sys2Proof.Machine
end

