-- ==== Sys2Proof/Machine/Command.lean ====
section
/-! DEFINITION. A CMD write runs one command to completion (spec/10_state.md rule R21), and what each action of the
world outside the CORE does. -/

namespace Sys2Proof.Machine

/-- A host write of `w` to CMD (R21): CMD takes `w`, then the command it encodes runs to completion. A word the decoder
rejects raises IllegalCommand (R245). -/
def runCommand (w : Word) (s : State) : Result :=
  match decode w with
  | .error d => .next (raise { s with cmd := w } (.illegalCommand d w))
  | .ok i => exec i { s with cmd := w }

/-- A host write to the window (R21, R30). -/
def windowWrite (off bytes : Nat) (v : U64) (s : State) : Result :=
  match windowAccess off bytes with
  | .whole r => if r = .cmd then runCommand (v.setWidth 32) s else .next (writeReg s r v)
  | .half r high => .next (writeReg s r (withHalf high (readReg s r) (v.setWidth 32)))
  | .unmapped => .next s
  | .undefined => .refused .undefinedWindowAccess

/-- One action of the world outside the CORE, taken between commands (R58, R65, R67, R270). -/
def act (a : HostAction) (s : State) : Result :=
  match a with
  | .regWrite addr bytes v => windowWrite (windowOffset s addr) bytes v s
  | .regRead addr bytes =>
    match windowRead s (windowOffset s addr) bytes with
    | none => .refused .undefinedWindowAccess
    | some v => .next { s with hostData := v }
  | .memWrite addr v => .next (memWrite s addr.toNat [v])
  | .memRead addr => .next { s with hostData := (s.mem.byte addr.toNat).setWidth 64 }
  | .moveCursor h c =>
    match sourceOf s h with
    | none => .refused .noSuchSource
    | some _ => .next (srcSeek s h c)
  | .reset => .next (resetCore s)
  | .commandThenReset w => .next (interruptedReset w s)

end Sys2Proof.Machine
end

