-- ==== Sys2Proof/Machine/Step.lean ====
section
/-! DEFINITION. One step of the machine: the first pending action of the world outside the CORE. -/

namespace Sys2Proof.Machine

/-- One step: the first pending host action. With none pending the CORE holds its state and does nothing (R259, R271). -/
def step (s : State) : Host.Outcome State Fault Refusal :=
  match s.host with
  | [] => .next s
  | a :: rest => act a { s with host := rest }

/-- `s` with the host about to write to CMD the word whose low `nbits` bits are those of `w` (the others 0), before
anything else it has pending. A host write of CMD is how a command reaches the CORE (R21, notes/assumptions/4.md). -/
def State.withFetchWord (s : State) (nbits w : Nat) : State :=
  { s with host := .regWrite s.regBase 4 (BitVec.ofNat 64 (w % 2 ^ nbits)) :: s.host }

end Sys2Proof.Machine
end

