-- ==== Sys2Proof/Machine/Assembler.lean ====
section
/-! DEFINITION. The host program syntax (spec/30_encoding.md rules R81 and R82): statements, the host accesses they stand
for, the pseudo-instructions and their expansion, and the reading of program text. What the rules leave open of the
text's form is in notes/assumptions/14.md. -/

namespace Sys2Proof.Machine

/-! ## Statements (R81) -/

/-- A statement of a host program: `mov`, `rd`, a command, or `.word`. -/
inductive Statement where
  /-- `mov Ak, <imm>`: a host write of register Ak. -/
  | mov (r : Fin 4) (imm : Int)
  /-- `rd <REG>`: a host read of a register. -/
  | rd (r : HostReg)
  /-- A command: a host write of CMD. -/
  | command (i : Instr)
  /-- `.word <imm32>`: an arbitrary word written to CMD. -/
  | word (w : Word)
deriving DecidableEq, Repr

/-- The argument register Ak. -/
def argReg (k : Fin 4) : HostReg :=
  match k with
  | 0 => .a0
  | 1 => .a1
  | 2 => .a2
  | 3 => .a3

/-- The registers `rd` names: RES, STATUS, ERRINFO, KEY0–KEY3, ID and PARAMS. -/
def readable : List HostReg := [.res, .status, .errinfo, .key0, .key1, .key2, .key3, .id, .params]

/-- The bus address of a register. -/
def busAddress (base : U64) (r : HostReg) : U64 := base + BitVec.ofNat 64 r.offset

/-- The host access a statement stands for. -/
def Statement.action (base : U64) : Statement → HostAction
  | .mov k imm => .regWrite (busAddress base (argReg k)) 8 (BitVec.ofInt 64 imm)
  | .rd r => .regRead (busAddress base r) r.bytes
  | .command i => .regWrite (busAddress base .cmd) 4 ((encode i).setWidth 64)
  | .word w => .regWrite (busAddress base .cmd) 4 (w.setWidth 64)

/-- The state with the host about to run a program, before anything else it has pending. -/
def State.withProgram (s : State) (p : List Statement) : State :=
  { s with host := p.map (Statement.action s.regBase) ++ s.host }

/-! ## Pseudo-instructions (R82) -/

/-- The commands with the pseudo-instruction `<cipher> <buf>, <buflen>, <start>, <count>`. -/
inductive CipherOp where
  | bfcEnc
  | bfcDec
  | bteaDec
  | bteaEnc
  | vbtDec
  | vbtEnc
deriving DecidableEq, Repr

/-- The command of a cipher pseudo-instruction. -/
def CipherOp.instr : CipherOp → Instr
  | .bfcEnc => .bfcEnc
  | .bfcDec => .bfcDec
  | .bteaDec => .bteaDec
  | .bteaEnc => .bteaEnc
  | .vbtDec => .vbtDec
  | .vbtEnc => .vbtEnc

/-- The pseudo-instructions of R82. -/
inductive Pseudo where
  | keyload (addr : Int)
  | cipher (op : CipherOp) (buf buflen start count : Int)
  | vbtDecn (n : Nat) (buf buflen start : Int)
  | vbtEncn (n : Nat) (buf buflen start : Int)
  | absOpen (slot : Nat) (h off keyaddr : Int)
  | absRead (slot : Nat) (buf buflen start count : Int)
  | seqRead (slot : Nat) (buf buflen start count : Int)
  | absSeek (slot : Nat) (whence : Whence) (off : Int)
  | seqOpen (slot : Nat) (kind : SeqKind) (h keyaddr : Int)
  | srcSetpos (h pos : Int)
  | srcGetpos (h : Int)
deriving DecidableEq, Repr

/-- The four movs of the BUF form, in register order, then the command. -/
def bufMovs (buf buflen start count : Int) (i : Instr) : List Statement :=
  [.mov 0 buf, .mov 1 buflen, .mov 2 start, .mov 3 count, .command i]

/-- The expansion of a pseudo-instruction: its movs in register order, then the command (R82). -/
def Pseudo.expand : Pseudo → List Statement
  | .keyload addr => [.mov 0 addr, .command .keyload]
  | .cipher op buf buflen start count => bufMovs buf buflen start count op.instr
  | .vbtDecn n buf buflen start => [.mov 0 buf, .mov 1 buflen, .mov 2 start, .command (.vbtDecn n)]
  | .vbtEncn n buf buflen start => [.mov 0 buf, .mov 1 buflen, .mov 2 start, .command (.vbtEncn n)]
  | .absOpen slot h off keyaddr => [.mov 0 h, .mov 1 off, .mov 2 keyaddr, .command (.absOpen slot)]
  | .absRead slot buf buflen start count => bufMovs buf buflen start count (.absRead slot)
  | .seqRead slot buf buflen start count => bufMovs buf buflen start count (.seqRead slot)
  | .absSeek slot whence off => [.mov 0 off, .command (.absSeek slot whence)]
  | .seqOpen slot kind h keyaddr => [.mov 0 h, .mov 2 keyaddr, .command (.seqOpen slot kind)]
  | .srcSetpos h pos => [.mov 0 h, .mov 1 pos, .command .srcSetpos]
  | .srcGetpos h => [.mov 0 h, .command .srcGetpos]

/-! ## Program text (R81) -/

/-- The value of a digit in a base of at most 16. -/
def digit (base : Nat) (c : Char) : Option Nat :=
  let v :=
    if '0' ≤ c ∧ c ≤ '9' then c.toNat - '0'.toNat
    else if 'a' ≤ c ∧ c ≤ 'f' then c.toNat - 'a'.toNat + 10
    else base
  if v < base then some v else none

/-- Digits, most significant first, onto a value already read. -/
def digitsOnto (base : Nat) : Nat → List Char → Option Nat
  | acc, [] => some acc
  | acc, c :: cs =>
    match digit base c with
    | none => none
    | some d => digitsOnto base (acc * base + d) cs

/-- A decimal or `0x` hexadecimal number, in lower case. Leading zeros are taken (notes/assumptions/14.md, DESIGN
CHOICE). -/
def readNat : List Char → Option Nat
  | [] => none
  | ['0', 'x'] => none
  | '0' :: 'x' :: cs => digitsOnto 16 0 cs
  | cs => digitsOnto 10 0 cs

/-- `<imm>`: from −2^63 to 2^64 − 1. A negative one is a minus sign directly before a number (notes/assumptions/14.md,
DESIGN CHOICE). -/
def readImm : List Char → Option Int
  | '-' :: cs => (readNat cs).bind fun n => if n ≤ 2 ^ 63 then some (-(n : Int)) else none
  | cs => (readNat cs).bind fun n => if n < 2 ^ 64 then some (n : Int) else none

/-- A number of at most `hi`, and at least `lo`: `<SLOT>`, `<N>` and `<imm32>`. R81 gives these no number base; each is
read as decimal or `0x` hexadecimal, leading zeros and all (notes/assumptions/14.md, DESIGN CHOICE). -/
def readBetween (lo hi : Nat) (cs : List Char) : Option Nat :=
  (readNat cs).bind fun n => if lo ≤ n ∧ n ≤ hi then some n else none

/-- `s<SLOT>`, SLOT a value the four bits hold, decimal or `0x` hexadecimal (notes/assumptions/14.md, DESIGN CHOICE). -/
def readSlot : List Char → Option Nat
  | 's' :: cs => readBetween 0 15 cs
  | _ => none

/-- `<whence>`: `begin`, `cur` or `end`. -/
def readWhence (cs : List Char) : Option Whence :=
  match String.ofList cs with
  | "begin" => some .fromBegin
  | "cur" => some .fromCurrent
  | "end" => some .fromEnd
  | _ => none

/-- `<kind>`: `btea` or `vbt`. -/
def readKind (cs : List Char) : Option SeqKind :=
  match String.ofList cs with
  | "btea" => some .blockTea
  | "vbt" => some .variableBlockTea
  | _ => none

/-- `Ak`. -/
def readArg (cs : List Char) : Option (Fin 4) :=
  match String.ofList cs with
  | "a0" => some 0
  | "a1" => some 1
  | "a2" => some 2
  | "a3" => some 3
  | _ => none

/-- A register `rd` names. -/
def readReadable (cs : List Char) : Option HostReg :=
  match String.ofList cs with
  | "res" => some .res
  | "status" => some .status
  | "errinfo" => some .errinfo
  | "key0" => some .key0
  | "key1" => some .key1
  | "key2" => some .key2
  | "key3" => some .key3
  | "id" => some .id
  | "params" => some .params
  | _ => none

/-- A command that takes no operand. -/
def plainCommand (m : String) : Option Instr :=
  match m with
  | "nop" => some .nop
  | "keyload" => some .keyload
  | "clrerr" => some .clrerr
  | "src.setpos" => some .srcSetpos
  | "src.getpos" => some .srcGetpos
  | "bfc.enc" => some .bfcEnc
  | "bfc.dec" => some .bfcDec
  | "btea.dec" => some .bteaDec
  | "btea.enc" => some .bteaEnc
  | "vbt.dec" => some .vbtDec
  | "vbt.enc" => some .vbtEnc
  | _ => none

/-- A command whose one operand is `s<SLOT>`. -/
def slotCommand (m : String) : Option (Nat → Instr) :=
  match m with
  | "abs.open" => some .absOpen
  | "abs.read" => some .absRead
  | "abs.len" => some .absLen
  | "abs.pos" => some .absPos
  | "abs.write" => some .absWrite
  | "abs.flush" => some .absFlush
  | "abs.setlen" => some .absSetlen
  | "seq.read" => some .seqRead
  | "seq.write" => some .seqWrite
  | "seq.flush" => some .seqFlush
  | "seq.setlen" => some .seqSetlen
  | "close" => some .close
  | _ => none

/-- The cipher of a cipher pseudo-instruction. -/
def cipherOp (m : String) : Option CipherOp :=
  match m with
  | "bfc.enc" => some .bfcEnc
  | "bfc.dec" => some .bfcDec
  | "btea.dec" => some .bteaDec
  | "btea.enc" => some .bteaEnc
  | "vbt.dec" => some .vbtDec
  | "vbt.enc" => some .vbtEnc
  | _ => none

/-- A statement with the operands of R81: `mov`, `rd`, `.word`, or a command. R81 gives `<imm32>` of `.word` no range: it
is read as 0 to 2^32 - 1, and a negative one is refused (notes/assumptions/14.md, DESIGN CHOICE). -/
def readStatement (m : String) (ops : List (List Char)) : Option Statement :=
  match m, ops with
  | "mov", [r, v] => do return .mov (← readArg r) (← readImm v)
  | "rd", [r] => (readReadable r).map .rd
  | ".word", [v] => (readBetween 0 (2 ^ 32 - 1) v).map fun n => .word (BitVec.ofNat 32 n)
  | "vbt.decn", [n] => (readBetween 1 16 n).map fun k => .command (.vbtDecn k)
  | "vbt.encn", [n] => (readBetween 1 16 n).map fun k => .command (.vbtEncn k)
  | "abs.seek", [s, w] => do return .command (.absSeek (← readSlot s) (← readWhence w))
  | "seq.seek", [s, w] => do return .command (.seqSeek (← readSlot s) (← readWhence w))
  | "seq.open", [s, k] => do return .command (.seqOpen (← readSlot s) (← readKind k))
  | _, [] => (plainCommand m).map .command
  | _, [s] => do return .command ((← slotCommand m) (← readSlot s))
  | _, _ => none

/-- A pseudo-instruction of R82. The numbers of its movs are read as `<imm>` (notes/assumptions/14.md, DESIGN CHOICE). -/
def readPseudo (m : String) (ops : List (List Char)) : Option Pseudo :=
  match m, ops with
  | "keyload", [a] => (readImm a).map .keyload
  | "src.getpos", [h] => (readImm h).map .srcGetpos
  | "src.setpos", [h, p] => do return .srcSetpos (← readImm h) (← readImm p)
  | "vbt.decn", [n, b, l, st] => do
    return .vbtDecn (← readBetween 1 16 n) (← readImm b) (← readImm l) (← readImm st)
  | "vbt.encn", [n, b, l, st] => do
    return .vbtEncn (← readBetween 1 16 n) (← readImm b) (← readImm l) (← readImm st)
  | "abs.open", [s, h, o, k] => do return .absOpen (← readSlot s) (← readImm h) (← readImm o) (← readImm k)
  | "abs.read", [s, b, l, st, c] => do
    return .absRead (← readSlot s) (← readImm b) (← readImm l) (← readImm st) (← readImm c)
  | "seq.read", [s, b, l, st, c] => do
    return .seqRead (← readSlot s) (← readImm b) (← readImm l) (← readImm st) (← readImm c)
  | "abs.seek", [s, w, o] => do return .absSeek (← readSlot s) (← readWhence w) (← readImm o)
  | "seq.open", [s, k, h, a] => do return .seqOpen (← readSlot s) (← readKind k) (← readImm h) (← readImm a)
  | _, [b, l, st, c] => do
    return .cipher (← cipherOp m) (← readImm b) (← readImm l) (← readImm st) (← readImm c)
  | _, _ => none

/-- White space inside a line. -/
def isBlank (c : Char) : Bool := c == ' ' || c == '\t' || c == '\r'

/-- A text without the white space at its two ends. -/
def trim (cs : List Char) : List Char := ((cs.dropWhile isBlank).reverse.dropWhile isBlank).reverse

/-- The parts of a text between separators; a text without one is a single part. -/
def splitAt (sep : Char) : List Char → List (List Char)
  | [] => [[]]
  | c :: cs =>
    if c = sep then [] :: splitAt sep cs
    else
      match splitAt sep cs with
      | [] => [[c]]
      | part :: parts => (c :: part) :: parts

/-- The operands after a mnemonic, separated by commas. -/
def operandsOf (cs : List Char) : List (List Char) :=
  match trim cs with
  | [] => []
  | rest => (splitAt ',' rest).map trim

/-- One line: nothing, a statement, or a pseudo-instruction's expansion. Case is ignored, in the operands too
(notes/assumptions/14.md, DESIGN CHOICE), and `;` starts a comment. -/
def readLine (line : List Char) : Option (List Statement) :=
  match trim ((line.takeWhile (fun c => c != ';')).map Char.toLower) with
  | [] => some []
  | cs =>
    let m := String.ofList (cs.takeWhile (fun c => !isBlank c))
    let ops := operandsOf (cs.dropWhile (fun c => !isBlank c))
    match readStatement m ops with
    | some st => some [st]
    | none => (readPseudo m ops).map Pseudo.expand

/-- The statements of a program text, one line after the other; `none` where a line does not read. -/
def assemble (text : String) : Option (List Statement) :=
  ((splitAt '\n' text.toList).mapM readLine).map List.flatten

end Sys2Proof.Machine
end

