-- ==== Sys2Proof/Safety.lean ====
section
/-! DEFINITION. What the spec promises of every state the CORE can be in, in the terms the statements use. -/

namespace Sys2Proof.Machine

/-- STATUS, ERRINFO and RES as a command leaves them (spec/10_state.md R23 to R26, spec/60_exceptions.md R240, R241):
reserved bits 0, CAUSE one of the codes of R241, no PHASE but of UnderlyingIOFailure, ERR set while CAUSE is not 0, and
ERRINFO 0 on success, RES 0 on failure. -/
def StatusGood (s : State) : Prop :=
  statusReservedClear s.status = true ∧
  statusCause s.status ∈ ([0x00, 0x01, 0x02, 0x03, 0x80, 0x81, 0x82, 0x83, 0x84] : List (BitVec 8)) ∧
  (statusCause s.status ≠ 0x03 → statusPhase s.status = 0) ∧
  (statusCause s.status ≠ 0 → statusErr s.status = true ∧ s.res = 0) ∧
  (statusCause s.status = 0 → statusDetail s.status = 0 ∧ s.errinfo = 0)

/-- What R32, R33 and R35 promise of a slot: its source is attached, and an Aligned slot has pos ≤ length < 2^31 and
an origin `offset + 4` of a non-negative i64 offset. -/
def SlotGood (s : State) : Slot → Prop
  | .closed => True
  | .aligned f =>
    sourceOf s f.src ≠ none ∧ f.pos.toNat ≤ f.length.toNat ∧ f.length.toNat < 2 ^ 31 ∧
      4 ≤ f.origin.toNat ∧ f.origin.toNat < 2 ^ 63 + 4
  | .seqBlockTea f => sourceOf s f.src ≠ none
  | .seqVbt f => sourceOf s f.src ≠ none

/-- The launch parameters are in the ranges of 93_implementation_defined.md section 3: N_SLOTS and N_SOURCES, a source
of fewer than 2^63 bytes (R35), and REG_BASE at a host address with the window's 0x60 bytes free, which is read as: the
window does not wrap, and HostMem admits none of its bytes (notes/assumptions/2.md, DEDUCED). -/
structure LaunchGood (s : State) : Prop where
  slots : 1 ≤ nSlots s ∧ nSlots s ≤ 16
  sources : 1 ≤ nSources s ∧ nSources s ≤ 255
  data : ∀ h src, sourceOf s h = some src → src.data.length < 2 ^ 63
  window : s.regBase.toNat + 0x60 ≤ 2 ^ 64
  windowFree : ∀ off, off < 0x60 → admits s.hostMem (s.regBase.toNat + off) = false

/-- The invariant of the CORE: every state a run from reset reaches meets it. -/
structure State.Good (s : State) : Prop where
  /-- Host memory has its canonical form. -/
  mem : Memory.wf s.mem = true
  /-- STATUS, ERRINFO and RES are as a command leaves them. -/
  status : StatusGood s
  /-- Every slot is as its kind promises. -/
  slots : ∀ v ∈ s.slots, SlotGood s v
  /-- The launch parameters are in range. -/
  launch : LaunchGood s

/-- What a run cannot change (R29, R35, R65): N_SLOTS and N_SOURCES, which handles are attached, each source's data and
SRC_MAY_FAIL, HostMem and REG_BASE. -/
structure SameLaunch (s t : State) : Prop where
  slots : nSlots t = nSlots s
  sources : t.sources.map (Option.map fun src => (src.data, src.mayFail))
    = s.sources.map (Option.map fun src => (src.data, src.mayFail))
  hostMem : t.hostMem = s.hostMem
  regBase : t.regBase = s.regBase

/-! ## Outcomes (R240) -/

/-- The success of R240, with the value RES holds: CAUSE, PHASE and DETAIL and ERRINFO are 0. -/
structure Succeeds (t : State) (res : U64) : Prop where
  res : t.res = res
  cause : statusCause t.status = 0
  phase : statusPhase t.status = 0
  detail : statusDetail t.status = 0
  errinfo : t.errinfo = 0

/-- The failure of R240 with a cause, its PHASE and DETAIL, and ERRINFO: ERR is 1 and RES 0. -/
structure Fails (t : State) (cause : BitVec 8) (phase : BitVec 4) (detail : BitVec 8) (info : U64) : Prop where
  res : t.res = 0
  cause : statusCause t.status = cause
  phase : statusPhase t.status = phase
  detail : statusDetail t.status = detail
  err : statusErr t.status = true
  errinfo : t.errinfo = info

/-- ERR and KEYV, the CORE's only flags (R39), are as they were. -/
def FlagsKept (s t : State) : Prop :=
  statusErr t.status = statusErr s.status ∧ statusKeyv t.status = statusKeyv s.status

/-! ## Frames -/

/-- What no command changes: CMD and A0 to A3, which the host alone writes (R21, R22), the launch parameters HostMem and
REG_BASE, and the host's own pending actions and read data. -/
structure SameInputs (s t : State) : Prop where
  cmd : t.cmd = s.cmd
  a0 : t.a0 = s.a0
  a1 : t.a1 = s.a1
  a2 : t.a2 = s.a2
  a3 : t.a3 = s.a3
  hostMem : t.hostMem = s.hostMem
  regBase : t.regBase = s.regBase
  host : t.host = s.host
  hostData : t.hostData = s.hostData

/-- Every byte of host memory reads as it did. -/
def SameMemory (s t : State) : Prop := ∀ x, Memory.byte t.mem x = Memory.byte s.mem x

/-- Every byte of host memory outside `[a, a+n)` reads as it did. -/
def SameMemoryOutside (s t : State) (a n : Nat) : Prop :=
  ∀ x, ¬(a ≤ x ∧ x < a + n) → Memory.byte t.mem x = Memory.byte s.mem x

/-- Nothing but STATUS, ERRINFO and RES changes. -/
structure OnlyReports (s t : State) : Prop where
  inputs : SameInputs s t
  keyv : statusKeyv t.status = statusKeyv s.status
  key : t.key = s.key
  slots : t.slots = s.slots
  sources : t.sources = s.sources
  memory : SameMemory s t

/-- Every source other than h is as it was. -/
def OtherSourcesKept (s t : State) (h : Nat) : Prop := ∀ j, j ≠ h → sourceOf t j = sourceOf s j

/-- Source h is as it was but for its cursor, which is `c`. -/
def CursorSet (s t : State) (h : Nat) (c : U64) : Prop :=
  sourceOf t h = (sourceOf s h).map (fun src => { src with cursor := c })

/-- A cipher command over `[a, a+n)` in place (R59, R104): it succeeds, the range holds `f` of its old bytes, and
nothing else changes. -/
structure InPlaceDone (s t : State) (a n : Nat) (f : List Byte → List Byte) : Prop where
  outcome : Succeeds t 0
  flags : FlagsKept s t
  inputs : SameInputs s t
  key : t.key = s.key
  slots : t.slots = s.slots
  sources : t.sources = s.sources
  range : memRead t a n = f (memRead s a n)
  outside : SameMemoryOutside s t a n

/-! ## Operands -/

/-- No check of R75 fails: start, count and buflen are not negative, buflen and count are at most MAX_COUNT, and
start + count is at most buflen. -/
def BufValid (s : State) (count : Int) : Prop :=
  0 ≤ s.a2.toInt ∧ 0 ≤ count ∧ 0 ≤ s.a1.toInt ∧ s.a1.toInt ≤ maxCount ∧ count ≤ maxCount ∧
    s.a2.toInt + count ≤ s.a1.toInt

/-- HostMem admits the host range `[a, a+n)` (R51): it is empty, or lies below 2^64 with every byte in HostMem. -/
def Admitted (s : State) (a n : Nat) : Prop :=
  n = 0 ∨ a + n ≤ 2 ^ 64 ∧ ∀ x, a ≤ x → x < a + n → admits s.hostMem x = true

/-- The start of the operand range of R75, `A0 + start`. -/
def bufStart (s : State) : Nat := s.a0.toNat + s.a2.toNat

/-- The command is of form BUF or BUFN, the checks its rule makes before those of R75 pass, and its count is `count`. -/
def TakesBuf (s : State) (i : Instr) (count : Int) : Prop :=
  ((i ∈ ([.bfcEnc, .bfcDec, .bteaDec, .bteaEnc, .vbtDec, .vbtEnc] : List Instr)) ∧ statusKeyv s.status = true ∧
      count = s.a3.toInt) ∨
    (∃ n, (i = .vbtDecn n ∧ 1 ≤ n ∨ i = .vbtEncn n ∧ 2 ≤ n) ∧ n ≤ 16 ∧ statusKeyv s.status = true ∧
      count = 4 * (n : Int)) ∨
    (∃ slot f, i = .absRead slot ∧ s.slots[slot]? = some (.aligned f) ∧ count = s.a3.toInt) ∨
    (∃ slot f, i = .seqRead slot ∧
      (s.slots[slot]? = some (.seqBlockTea f) ∨ s.slots[slot]? = some (.seqVbt f)) ∧ count = s.a3.toInt)

/-- The cipher commands, which need KEYV (R249). -/
def IsCipher (i : Instr) : Prop :=
  i ∈ ([.bfcEnc, .bfcDec, .bteaDec, .bteaEnc, .vbtDec, .vbtEnc] : List Instr) ∨
    (∃ n, i = .vbtDecn n) ∨ (∃ n, i = .vbtEncn n)

/-- The ABS commands that need an open Aligned stream in `slot`. -/
def IsAbsOn (i : Instr) (slot : Nat) : Prop :=
  i ∈ ([.absRead slot, .absLen slot, .absPos slot, .absWrite slot, .absFlush slot, .absSetlen slot] : List Instr) ∨
    ∃ whence, i = .absSeek slot whence

/-- The SEQ commands that need an open sequential stream in `slot`. -/
def IsSeqOn (i : Instr) (slot : Nat) : Prop :=
  i ∈ ([.seqRead slot, .seqWrite slot, .seqFlush slot, .seqSetlen slot] : List Instr) ∨ ∃ whence, i = .seqSeek slot whence

/-- The two OPEN commands on `slot`. -/
def IsOpenOn (i : Instr) (slot : Nat) : Prop := i = .absOpen slot ∨ ∃ kind, i = .seqOpen slot kind

/-- The OP values rule R80 assigns. -/
def assignedOps : List Nat :=
  [0x00, 0x01, 0x02, 0x03, 0x04, 0x10, 0x11, 0x20, 0x21, 0x30, 0x31, 0x32, 0x33, 0x40, 0x41, 0x42, 0x43, 0x44, 0x45,
    0x46, 0x47, 0x50, 0x51, 0x52, 0x53, 0x54, 0x55, 0x60]

/-- Two slots hold the same stream: the same kind, source, key, origin and length; only a position may differ (R32 to
R34). -/
def SameStream : Slot → Slot → Prop
  | .closed, v => v = .closed
  | .aligned f, v => ∃ pos, v = .aligned { f with pos := pos }
  | .seqBlockTea f, v => v = .seqBlockTea f
  | .seqVbt f, v => v = .seqVbt f

/-- A command that fails with nothing done but the report: exec answers a next state with the failure of R240, and
nothing but STATUS, ERRINFO and RES changes (R251). -/
def FailsCleanly (i : Instr) (s : State) (cause : BitVec 8) (detail : BitVec 8) (info : U64) : Prop :=
  ∃ t, exec i s = .next t ∧ Fails t cause 0 detail info ∧ OnlyReports s t

/-- A write of `w` to CMD that raises IllegalCommand (R245): CMD takes `w`, and nothing else but STATUS, ERRINFO and RES
changes. -/
def RaisesIllegalCommand (w : Word) (s : State) (detail : BitVec 8) : Prop :=
  ∃ t, runCommand w s = .next t ∧ Fails t 0x80 0 detail (w.setWidth 64) ∧ OnlyReports { s with cmd := w } t

/-- The key buffer at a host address holds the key `K` (R6, R172, R200, R221). -/
def KeyAt (s : State) (addr : Nat) (K : Key) : Prop :=
  ∀ j, j < 4 →
    K.word j = le32 (Memory.byte s.mem (addr + 4 * j)) (Memory.byte s.mem (addr + 4 * j + 1))
      (Memory.byte s.mem (addr + 4 * j + 2)) (Memory.byte s.mem (addr + 4 * j + 3))

/-- ABS.OPEN's success (R172): the slot holds the stream, the cursor of its source is the origin, RES is the length. -/
structure AbsOpened (s t : State) (slot : Nat) (K : Key) (length : Word) : Prop where
  outcome : Succeeds t (length.setWidth 64)
  flags : FlagsKept s t
  inputs : SameInputs s t
  key : t.key = s.key
  slots : t.slots = s.slots.set slot (.aligned ⟨s.a0.toNat, K, s.a1 + 4, length, 0⟩)
  cursor : CursorSet s t s.a0.toNat (s.a1 + 4)
  sources : OtherSourcesKept s t s.a0.toNat
  memory : SameMemory s t

/-- ABS.OPEN's failure after its source read (R172, R251): the slot stays as it was, and the cursor is the open offset. -/
structure AbsOpenFailed (s t : State) (cause : BitVec 8) (phase : BitVec 4) (detail : BitVec 8) (info : U64) : Prop where
  outcome : Fails t cause phase detail info
  keyv : statusKeyv t.status = statusKeyv s.status
  inputs : SameInputs s t
  key : t.key = s.key
  slots : t.slots = s.slots
  cursor : CursorSet s t s.a0.toNat s.a1
  sources : OtherSourcesKept s t s.a0.toNat
  memory : SameMemory s t

/-- ABS.READ's success with n bytes (R174, R176): they are `bytes`, the position moves past them, and the cursor of the
source is left open. -/
structure AbsReadDone (s t : State) (slot : Nat) (f : Aligned) (n : Nat) (bytes : List Byte) : Prop where
  outcome : Succeeds t (BitVec.ofNat 64 n)
  flags : FlagsKept s t
  inputs : SameInputs s t
  key : t.key = s.key
  slots : t.slots = s.slots.set slot (.aligned { f with pos := BitVec.ofNat 64 (f.pos.toNat + n) })
  cursor : ∃ c, CursorSet s t f.src c
  sources : OtherSourcesKept s t f.src
  range : memRead t (bufStart s) n = bytes
  outside : SameMemoryOutside s t (bufStart s) n

/-- A read of a stream that fails in its source (R176, R251): no slot changes, no host byte outside the n destination
bytes changes, and the cursor of the source is left open. -/
structure StreamReadFailed (s t : State) (src n : Nat) : Prop where
  keyv : statusKeyv t.status = statusKeyv s.status
  inputs : SameInputs s t
  key : t.key = s.key
  slots : t.slots = s.slots
  cursor : ∃ c, CursorSet s t src c
  sources : OtherSourcesKept s t src
  outside : SameMemoryOutside s t (bufStart s) n

/-- SEQ.READ's success with the bytes `raw` of the source (R201): the host range holds `out`, the cursor moves past
`raw`, RES is their number. -/
structure SeqReadDone (s t : State) (f : Sequential) (src : Source) (raw out : List Byte) : Prop where
  outcome : Succeeds t (BitVec.ofNat 64 raw.length)
  flags : FlagsKept s t
  inputs : SameInputs s t
  key : t.key = s.key
  slots : t.slots = s.slots
  cursor : CursorSet s t f.src (src.cursor + BitVec.ofNat 64 raw.length)
  sources : OtherSourcesKept s t f.src
  range : memRead t (bufStart s) raw.length = out
  outside : SameMemoryOutside s t (bufStart s) raw.length

/-- No host byte and no source changes but the bytes and the cursor a footprint names. -/
structure OnlyFootprint (p : Footprint) (s t : State) : Prop where
  bytes : ∀ x, (∀ r, p.span = some r → ¬(r.addr ≤ x ∧ x < r.addr + r.count)) →
    Memory.byte t.mem x = Memory.byte s.mem x
  others : ∀ h, p.source ≠ some h → sourceOf t h = sourceOf s h
  cursor : ∀ h, p.source = some h → sourceOf t h = sourceOf s h ∨ ∃ c, CursorSet s t h c

/-! ## What the host does -/

/-- The action is a host write of `w` to CMD (R21). -/
def IsCmdWrite (s : State) (a : HostAction) (w : Word) : Prop :=
  ∃ addr v, a = .regWrite addr 4 v ∧ windowOffset s addr = 0 ∧ v.setWidth 32 = w

/-- The action is a reset (R270). -/
def IsReset (a : HostAction) : Prop := a = .reset ∨ ∃ w, a = .commandThenReset w

/-- The state of the CORE that R40 gives after reset, over the sources, host memory and launch parameters of `s`. -/
structure CoreIsReset (s t : State) : Prop where
  cmd : t.cmd = 0
  a0 : t.a0 = 0
  a1 : t.a1 = 0
  a2 : t.a2 = 0
  a3 : t.a3 = 0
  res : t.res = 0
  status : t.status = 0
  errinfo : t.errinfo = 0
  key : t.key = ⟨0, 0, 0, 0⟩
  slots : t.slots = List.replicate (nSlots s) .closed
  launch : SameLaunch s t

end Sys2Proof.Machine
end

