-- ==== Sys2Proof/Certificates/Slice0/Obligations.lean ====
section
/-! DEFINITION. The statements about the CORE, from the numbered rules of spec/. Host memory of every state of a run has
its canonical form (`Memory.wf`); a statement about a store takes that as a premise. -/

open Sys2Proof Sys2Proof.Machine

/-! ## The command word (spec/30_encoding.md) -/

/-- Decoding the word of a well-formed command gives the command back, with every field at every value its bits hold. -/
def Obligations.DecodeOfEncode : Prop :=
  ∀ i : Instr, i.wellFormed = true → decode (encode i) = .ok i

/-- A word the decoder accepts is the word of the command it gives, and that command is well formed: no bit is
dropped. -/
def Obligations.EncodeOfDecode : Prop :=
  ∀ (w : Word) (i : Instr), decode w = .ok i → encode i = w ∧ i.wellFormed = true

/-- R80: "a word `w` is the command when `w & mask == match`", for each row of the table. -/
def Obligations.DecoderFollowsMaskAndMatch : Prop :=
  ∀ (w : Word) (j : Instr), w &&& j.row.mask = j.row.pattern ↔ ∃ i, decode w = .ok i ∧ i.row = j.row

/-- R71 to R73 and R245: the words that are no command, in the priority RESERVED_BITS, UNKNOWN_OP, FIELD. -/
def Obligations.RejectedWordsRaiseIllegalCommand : Prop :=
  ((List.range 256).filter fun op => decide (op ∉ assignedOps)).length = 228 ∧
    ∀ (w : Word) (s : State),
      (w &&& 0xFFE08000 ≠ 0 → RaisesIllegalCommand w s 2) ∧
      (w &&& 0xFFE08000 = 0 → (opField w).toNat ∉ assignedOps → RaisesIllegalCommand w s 1) ∧
      (w &&& 0xFFE08000 = 0 → (opField w).toNat ∈ assignedOps →
        (∀ i : Instr, w &&& i.row.mask ≠ i.row.pattern) → RaisesIllegalCommand w s 3) ∧
      ∀ i : Instr, w &&& i.row.mask = i.row.pattern → ∃ j, decode w = .ok j

/-- Words written out from R70 and R80 decode to the commands they stand for. -/
def Obligations.SampleWordsDecode : Prop :=
  decode 0x00000001 = .ok .keyload ∧ decode 0x00000011 = .ok .bfcDec ∧ decode 0x00000020 = .ok .bteaDec ∧
    decode 0x00100032 = .ok (.vbtDecn 16) ∧ decode 0x00001342 = .ok (.absSeek 3 .fromCurrent) ∧
    decode 0x00004150 = .ok (.seqOpen 1 .variableBlockTea) ∧ decode 0x00000F60 = .ok (.close 15)

/-! ## The step -/

/-- R21, R58: a host write of a command's word to CMD runs that command, with CMD holding the word, on the rest of the
host's actions; so does the word `withFetchWord` places. -/
def Obligations.StepRunsTheDecodedCommand : Prop :=
  ∀ (s : State) (w : Word) (i : Instr), decode w = .ok i →
    (∀ addr v rest, s.host = .regWrite addr 4 v :: rest → windowOffset s addr = 0 → v.setWidth 32 = w →
      step s = exec i { s with host := rest, cmd := w }) ∧
    step (s.withFetchWord 32 w.toNat) = exec i { s with cmd := w }

/-- R259, R271: between commands the CORE holds its state and does nothing; and a step does what the first of the
host's pending actions does, and takes it alone (R58). The list of pending actions is the model's own
(notes/assumptions/4.md). -/
def Obligations.StepTakesOneHostAction : Prop :=
  ∀ s : State, (s.host = [] → step s = .next s) ∧
    ∀ a rest, s.host = a :: rest →
      step s = act a { s with host := rest } ∧ ∀ t, step s = .next t → t.host = rest

/-- R81: a command statement writes its command's word to CMD, and a `mov` statement writes its register. -/
def Obligations.StatementsRunAsWritten : Prop :=
  ∀ (s : State) (i : Instr) (imm : Int),
    (i.wellFormed = true → step (s.withProgram [.command i]) = exec i { s with cmd := encode i }) ∧
    step (s.withProgram [.mov 0 imm]) = .next { s with a0 := BitVec.ofInt 64 imm } ∧
    step (s.withProgram [.mov 1 imm]) = .next { s with a1 := BitVec.ofInt 64 imm } ∧
    step (s.withProgram [.mov 2 imm]) = .next { s with a2 := BitVec.ofInt 64 imm } ∧
    step (s.withProgram [.mov 3 imm]) = .next { s with a3 := BitVec.ofInt 64 imm }

/-! ## Invariants and whole-machine rules -/

/-- Every step keeps the invariant of the CORE. -/
def Obligations.StepKeepsGood : Prop :=
  ∀ s t : State, s.Good → step s = .next t → t.Good

/-- The state after reset, with the launch of notes/assumptions/2.md, meets the invariant; its registers and slots are
as R20 and R40 say. -/
def Obligations.ResetStateIsGood : Prop :=
  State.reset.Good ∧ CoreIsReset State.reset State.reset

/-- R29, R35: no step changes N_SLOTS, N_SOURCES, an attached source's data or any other launch parameter, and PARAMS
is constant. -/
def Obligations.StepKeepsLaunch : Prop :=
  ∀ s t : State, step s = .next t → SameLaunch s t ∧ paramsValue t = paramsValue s

/-- From a state of the invariant no step faults, and only the two host actions the spec gives no effect are refused: a
window access outside R30, and a move of the cursor of a handle with no source, which is the model's choice
(notes/assumptions/9.md). -/
def Obligations.GoodStatesNeverFault : Prop :=
  ∀ s : State, s.Good → (∀ f, step s ≠ .fault f) ∧
    ∀ r, step s = .refused r →
      (∃ addr bytes v rest, (s.host = .regWrite addr bytes v :: rest ∨ s.host = .regRead addr bytes :: rest) ∧
        windowAccess (windowOffset s addr) bytes = .undefined) ∨
      ∃ h c rest, s.host = .moveCursor h c :: rest ∧ sourceOf s h = none

/-- R240: every word written to CMD ends with exactly one outcome, success or one cause, and a CMD write always
completes. -/
def Obligations.EveryCommandEndsWithOneOutcome : Prop :=
  ∀ (w : Word) (s : State), s.Good → ∃ t, runCommand w s = .next t ∧
    ((∃ res, Succeeds t res ∧ (w ≠ 2 → statusErr t.status = statusErr s.status)) ∨
      ∃ cause phase detail info,
        cause ∈ ([0x01, 0x02, 0x03, 0x80, 0x81, 0x82, 0x83, 0x84] : List (BitVec 8)) ∧
        (cause ≠ 0x03 → phase = 0) ∧ Fails t cause phase detail info) ∧
    (w ≠ 1 → statusKeyv t.status = statusKeyv s.status)

/-- R25: ERR is set by every command that ends with CAUSE other than 0, left by a successful one, and cleared by CLRERR
and by reset alone. -/
def Obligations.ErrIsSticky : Prop :=
  (∀ (w : Word) (s t : State), runCommand w s = .next t →
    (statusCause t.status ≠ 0 → statusErr t.status = true) ∧
    (statusCause t.status = 0 → w ≠ 2 → statusErr t.status = statusErr s.status) ∧
    (w = 2 → statusErr t.status = false)) ∧
  (∀ (a : HostAction) (s t : State), act a s = .next t →
    (IsReset a → statusErr t.status = false) ∧
    (statusErr s.status = true → statusErr t.status = false → IsReset a ∨ IsCmdWrite s a 2))

/-- R21, R22: CMD holds the last value written, and no command changes A0 to A3, HostMem, REG_BASE, the host's pending
actions or its read data. -/
def Obligations.CommandsKeepTheirInputs : Prop :=
  ∀ (w : Word) (s t : State), runCommand w s = .next t → SameInputs { s with cmd := w } t

/-- R27, R39: the key registers and KEYV change by KEYLOAD and by reset alone. -/
def Obligations.KeyChangesByKeyloadAlone : Prop :=
  ∀ (a : HostAction) (s t : State), act a s = .next t →
    t.key ≠ s.key ∨ statusKeyv t.status ≠ statusKeyv s.status → IsReset a ∨ IsCmdWrite s a 1

/-- R34: an open slot keeps its kind, source, key, origin and length until CLOSE (or reset); KEYLOAD changes the key
registers and no slot. -/
def Obligations.OpenSlotKeepsItsStream : Prop :=
  (∀ (a : HostAction) (s t : State) (slot : Nat) (v : Slot), act a s = .next t →
    s.slots[slot]? = some v → v ≠ .closed →
    (∃ v', t.slots[slot]? = some v' ∧ SameStream v v') ∨
      t.slots[slot]? = some .closed ∧ (IsReset a ∨ ∃ w, IsCmdWrite s a w ∧ decode w = .ok (.close slot))) ∧
  ∀ (s : State) (K : Key), Admitted s s.a0.toNat 16 → KeyAt s s.a0.toNat K →
    ∃ t, exec .keyload s = .next t ∧ t.key = K ∧ t.slots = s.slots

/-- R251: what a failed command leaves, row by row of its table. The read of `n` bytes that ABS.READ makes is the clamp
of R174. -/
def Obligations.FailuresLeaveWhatTheTableSays : Prop :=
  ∀ (w : Word) (s t : State), s.Good → runCommand w s = .next t → statusCause t.status ≠ 0 →
    t.key = s.key ∧ statusKeyv t.status = statusKeyv s.status ∧ SameLaunch s t ∧
    (statusCause t.status ≠ 0x03 → statusCause t.status ≠ 0x83 → OnlyReports { s with cmd := w } t) ∧
    (statusCause t.status = 0x03 → ∃ slot,
      decode w = .ok (.absOpen slot) ∨ decode w = .ok (.absRead slot) ∨ decode w = .ok (.seqRead slot)) ∧
    (statusCause t.status = 0x83 → ∃ slot, decode w = .ok (.absOpen slot)) ∧
    (∀ slot, decode w = .ok (.absOpen slot) → statusCause t.status = 0x03 ∨ statusCause t.status = 0x83 →
      SameMemory s t ∧ t.slots = s.slots ∧ s.slots[slot]? = some .closed ∧ CursorSet s t s.a0.toNat s.a1 ∧
        OtherSourcesKept s t s.a0.toNat) ∧
    (∀ slot f, decode w = .ok (.absRead slot) → s.slots[slot]? = some (.aligned f) → statusCause t.status = 0x03 →
      StreamReadFailed { s with cmd := w } t f.src (min s.a3.toNat (f.length.toNat - f.pos.toNat)))

/-! ## Control commands (spec/46_host_control.md) -/

/-- R220: NOP. -/
def Obligations.NopDoesNothing : Prop :=
  (∀ w, decode w = .ok .nop ↔ w = 0) ∧
  ∀ s, (∃ t, exec .nop s = .next t ∧ Succeeds t 0 ∧ FlagsKept s t ∧ OnlyReports s t) ∧ RaisesIllegalCommand 0x100 s 3

/-- R221: KEYLOAD over an admitted key buffer. -/
def Obligations.KeyloadLoadsTheKey : Prop :=
  ∀ (s : State) (K : Key), Admitted s s.a0.toNat 16 → KeyAt s s.a0.toNat K →
    ∃ t, exec .keyload s = .next t ∧ Succeeds t 0 ∧ statusErr t.status = statusErr s.status ∧
      statusKeyv t.status = true ∧ t.key = K ∧ SameInputs s t ∧ t.slots = s.slots ∧ t.sources = s.sources ∧
      SameMemory s t

/-- R222: CLRERR. -/
def Obligations.ClrerrClearsErr : Prop :=
  ∀ s, ∃ t, exec .clrerr s = .next t ∧ Succeeds t 0 ∧ statusErr t.status = false ∧ OnlyReports s t

/-- R223: SRC.SETPOS on an attached handle, with a position that is not negative; past the end is legal. -/
def Obligations.SetposMovesOneCursor : Prop :=
  ∀ (s : State) (src : Source), sourceOf s s.a0.toNat = some src → 0 ≤ s.a1.toInt →
    ∃ t, exec .srcSetpos s = .next t ∧ Succeeds t s.a1 ∧ FlagsKept s t ∧ CursorSet s t s.a0.toNat s.a1 ∧
      OtherSourcesKept s t s.a0.toNat ∧ SameInputs s t ∧ t.key = s.key ∧ t.slots = s.slots ∧ SameMemory s t

/-- R224: SRC.GETPOS on an attached handle. -/
def Obligations.GetposReportsTheCursor : Prop :=
  ∀ (s : State) (src : Source), sourceOf s s.a0.toNat = some src →
    ∃ t, exec .srcGetpos s = .next t ∧ Succeeds t src.cursor ∧ FlagsKept s t ∧ OnlyReports s t

/-- R225: CLOSE of any slot below N_SLOTS, whatever it holds. -/
def Obligations.CloseClosesTheSlot : Prop :=
  ∀ (s : State) (slot : Nat), slot < nSlots s →
    ∃ t, exec (.close slot) s = .next t ∧ Succeeds t 0 ∧ FlagsKept s t ∧ t.slots = s.slots.set slot .closed ∧
      SameInputs s t ∧ t.key = s.key ∧ t.sources = s.sources ∧ SameMemory s t

/-- R242: SOURCE_HANDLE for a handle that is not attached, and OFFSET_NEG after it. SRC.SETPOS and SRC.GETPOS make no
slot check; the OPEN commands come to these checks where their slot is Closed (R250). -/
def Obligations.SourceOperandsAreChecked : Prop :=
  ∀ s : State,
    (sourceOf s s.a0.toNat = none →
      FailsCleanly .srcSetpos s 1 9 s.a0 ∧ FailsCleanly .srcGetpos s 1 9 s.a0 ∧
      ∀ slot, s.slots[slot]? = some .closed →
        FailsCleanly (.absOpen slot) s 1 9 s.a0 ∧ ∀ kind, FailsCleanly (.seqOpen slot kind) s 1 9 s.a0) ∧
    (∀ src, sourceOf s s.a0.toNat = some src → s.a1.toInt < 0 →
      FailsCleanly .srcSetpos s 1 6 s.a1 ∧
      ∀ slot, s.slots[slot]? = some .closed → FailsCleanly (.absOpen slot) s 1 6 s.a1)

/-! ## The operand checks of the BUF and BUFN forms -/

/-- R75: the checks in order, each with its DETAIL and ERRINFO. -/
def Obligations.BufChecksRunInOrder : Prop :=
  ∀ (s : State) (i : Instr) (count : Int), TakesBuf s i count →
    (s.a2.toInt < 0 → FailsCleanly i s 1 1 s.a2) ∧
    (0 ≤ s.a2.toInt → count < 0 → FailsCleanly i s 1 2 s.a3) ∧
    (0 ≤ s.a2.toInt → 0 ≤ count → s.a1.toInt < 0 → FailsCleanly i s 1 3 s.a1) ∧
    (0 ≤ s.a2.toInt → 0 ≤ count → 0 ≤ s.a1.toInt → 2 ^ 31 - 1 < s.a1.toInt ∨ 2 ^ 31 - 1 < count →
      FailsCleanly i s 1 4 (BitVec.ofInt 64 (max s.a1.toInt count))) ∧
    (0 ≤ s.a2.toInt → 0 ≤ count → s.a1.toInt ≤ 2 ^ 31 - 1 → count ≤ 2 ^ 31 - 1 → 0 ≤ s.a1.toInt →
      s.a1.toInt < s.a2.toInt + count → FailsCleanly i s 1 5 (BitVec.ofInt 64 (s.a2.toInt + count)))

/-- R51, R75, R247: a host range that is not admitted, of every command that takes one, fails before any access. That
an operand range whose start A0 + start is 2^64 or more fails, and does not wrap, is the model's reading
(notes/assumptions/6.md, DEDUCED); the value of ERRINFO there is open, the model's choice (notes/assumptions/5.md). -/
def Obligations.HostRangesAreAdmittedFirst : Prop :=
  ∀ (s : State) (i : Instr) (a n : Nat),
    (∃ count, TakesBuf s i count ∧ BufValid s count ∧ a = bufStart s ∧ n = count.toNat) ∨
      (i = .keyload ∧ a = s.a0.toNat ∧ n = 16) ∨
      (∃ slot src, i = .absOpen slot ∧ s.slots[slot]? = some .closed ∧ sourceOf s s.a0.toNat = some src ∧
        0 ≤ s.a1.toInt ∧ a = s.a2.toNat ∧ n = 16) ∨
      (∃ slot kind src, i = .seqOpen slot kind ∧ s.slots[slot]? = some .closed ∧
        sourceOf s s.a0.toNat = some src ∧ a = s.a2.toNat ∧ n = 16) →
    n ≠ 0 →
    (2 ^ 64 < a + n → ∃ info, FailsCleanly i s 0x82 0 info ∧ (a < 2 ^ 64 → info = BitVec.ofNat 64 a)) ∧
    (a + n ≤ 2 ^ 64 → ∀ g, a ≤ g → g < a + n → admits s.hostMem g = false →
      (∀ x, a ≤ x → x < g → admits s.hostMem x = true) → FailsCleanly i s 0x82 0 (BitVec.ofNat 64 g))

/-- R249: the cipher commands without a loaded key. -/
def Obligations.CiphersNeedAKey : Prop :=
  ∀ (s : State) (i : Instr), statusKeyv s.status = false → IsCipher i → FailsCleanly i s 0x84 0 0

/-- R76: N of VBT.DECN and VBT.ENCN outside its range raises N_RANGE, and inside it never does. -/
def Obligations.WordCountIsChecked : Prop :=
  ∀ (s : State) (n : Nat), statusKeyv s.status = true →
    (n = 0 ∨ 16 < n → FailsCleanly (.vbtDecn n) s 1 8 (BitVec.ofNat 64 n)) ∧
    (n < 2 ∨ 16 < n → FailsCleanly (.vbtEncn n) s 1 8 (BitVec.ofNat 64 n)) ∧
    (∀ t, 1 ≤ n → n ≤ 16 → exec (.vbtDecn n) s = .next t →
      ¬(statusCause t.status = 1 ∧ statusDetail t.status = 8)) ∧
    (∀ t, 2 ≤ n → n ≤ 16 → exec (.vbtEncn n) s = .next t →
      ¬(statusCause t.status = 1 ∧ statusDetail t.status = 8))

/-- R79, R246: the slot checks of the ABS and SEQ commands and CLOSE. -/
def Obligations.SlotsAreChecked : Prop :=
  ∀ (s : State) (i : Instr) (slot : Nat),
    (nSlots s ≤ slot → IsAbsOn i slot ∨ IsSeqOn i slot ∨ IsOpenOn i slot ∨ i = .close slot →
      FailsCleanly i s 0x81 1 (BitVec.ofNat 64 slot)) ∧
    (s.slots[slot]? = some .closed → IsAbsOn i slot ∨ IsSeqOn i slot →
      FailsCleanly i s 0x81 2 (BitVec.ofNat 64 slot)) ∧
    (∀ f, s.slots[slot]? = some (.aligned f) → IsSeqOn i slot → FailsCleanly i s 0x81 3 (BitVec.ofNat 64 slot)) ∧
    (∀ f, s.slots[slot]? = some (.seqBlockTea f) ∨ s.slots[slot]? = some (.seqVbt f) → IsAbsOn i slot →
      FailsCleanly i s 0x81 3 (BitVec.ofNat 64 slot)) ∧
    (∀ v, s.slots[slot]? = some v → v ≠ .closed → IsOpenOn i slot → FailsCleanly i s 0x81 4 (BitVec.ofNat 64 slot))

/-! ## The cipher commands in place -/

/-- R104, R105: BFC.ENC and BFC.DEC. -/
def Obligations.ByteCipherInPlace : Prop :=
  ∀ s : State, Memory.wf s.mem = true → statusKeyv s.status = true → BufValid s s.a3.toInt →
    Admitted s (bufStart s) s.a3.toNat →
    (∃ t, exec .bfcEnc s = .next t ∧ InPlaceDone s t (bufStart s) s.a3.toNat (bfcEnc s.key)) ∧
    ∃ t, exec .bfcDec s = .next t ∧ InPlaceDone s t (bufStart s) s.a3.toNat (bfcDec s.key)

/-- R125, R126: BTEA.DEC and BTEA.ENC. -/
def Obligations.BlockTeaInPlace : Prop :=
  ∀ s : State, Memory.wf s.mem = true → statusKeyv s.status = true → BufValid s s.a3.toInt →
    Admitted s (bufStart s) s.a3.toNat →
    (∃ t, exec .bteaDec s = .next t ∧ InPlaceDone s t (bufStart s) s.a3.toNat (btDec s.key)) ∧
    ∃ t, exec .bteaEnc s = .next t ∧ InPlaceDone s t (bufStart s) s.a3.toNat (btEnc s.key)

/-- R148, R149: VBT.DEC and VBT.ENC. -/
def Obligations.VariableBlockTeaInPlace : Prop :=
  ∀ s : State, Memory.wf s.mem = true → statusKeyv s.status = true → BufValid s s.a3.toInt →
    Admitted s (bufStart s) s.a3.toNat →
    (∃ t, exec .vbtDec s = .next t ∧ InPlaceDone s t (bufStart s) s.a3.toNat (vbtDec s.key)) ∧
    ∃ t, exec .vbtEnc s = .next t ∧ InPlaceDone s t (bufStart s) s.a3.toNat (vbtEnc s.key)

/-- R150, R151: VBT.DECN and VBT.ENCN, whatever A3 holds. -/
def Obligations.WordBlockInPlace : Prop :=
  ∀ (s : State) (n : Nat), Memory.wf s.mem = true → statusKeyv s.status = true → 1 ≤ n → n ≤ 16 →
    BufValid s (4 * (n : Int)) → Admitted s (bufStart s) (4 * n) →
    (∃ t, exec (.vbtDecn n) s = .next t ∧
      InPlaceDone s t (bufStart s) (4 * n) (fun bs => wordsToBytes (vbtDecWords s.key (bytesToWords bs)))) ∧
    (2 ≤ n → ∃ t, exec (.vbtEncn n) s = .next t ∧
      InPlaceDone s t (bufStart s) (4 * n) (fun bs => wordsToBytes (vbtEncWords s.key (bytesToWords bs))))

/-! ## The cipher functions -/

/-- R101, and the steps of R102: each byte of the byte cipher, from the key bytes, the previous ciphertext byte, the
index and the length. -/
def Obligations.ByteCipherByteByByte : Prop :=
  ∀ (K : Key) (x : List Byte), (bfcEnc K x).length = x.length ∧ (bfcDec K x).length = x.length ∧ ∀ i, i < x.length →
    byteAt (bfcEnc K x) i
      = rotr8 ((byteAt x i + (keyByte K (i % 16) >>> 2)) ^^^
          rotl8 (keyByte K (15 - i % 16))
            (((if i = 0 then (0 : Byte) else byteAt (bfcEnc K x) (i - 1)).toNat + x.length - i) % 7))
          ((255 - (if i = 0 then (0 : Byte) else byteAt (bfcEnc K x) (i - 1)).toNat) % 7) ∧
    byteAt (bfcDec K x) i
      = (rotl8 (byteAt x i) ((255 - (if i = 0 then (0 : Byte) else byteAt x (i - 1)).toNat) % 7) ^^^
          rotl8 (keyByte K (15 - i % 16))
            (((if i = 0 then (0 : Byte) else byteAt x (i - 1)).toNat + x.length - i) % 7))
          - (keyByte K (i % 16) >>> 2)

/-- R106: the two byte ciphers undo each other on every byte sequence and keep its length, so both are bijections. -/
def Obligations.ByteCipherInverse : Prop :=
  ∀ K : Key, (∀ x, bfcDec K (bfcEnc K x) = x) ∧
    Function.Bijective (bfcEnc K) ∧ Function.Bijective (bfcDec K) ∧
    ∀ x, (bfcEnc K x).length = x.length ∧ (bfcDec K x).length = x.length

/-- R107: an output byte of the byte decrypt depends on its own and the previous ciphertext byte alone (besides the
index, the length and the key), so one changed byte changes at most two. -/
def Obligations.ByteDecryptSynchronisesItself : Prop :=
  (∀ (K : Key) (y z : List Byte) (i : Nat), y.length = z.length → i < y.length → byteAt y i = byteAt z i →
    (i ≠ 0 → byteAt y (i - 1) = byteAt z (i - 1)) → byteAt (bfcDec K y) i = byteAt (bfcDec K z) i) ∧
  ∀ (K : Key) (y : List Byte) (b : Byte) (i j : Nat), i ≠ j → i ≠ j + 1 →
    byteAt (bfcDec K (y.set j b)) i = byteAt (bfcDec K y) i

/-- R121 to R124 and R127: the block functions of BlockTea are 32 passes of their recurrences, F written out; the byte
functions apply them to each complete 8-byte block and leave the trailing bytes; and decrypt undoes encrypt, on a block
and on every byte sequence. The encrypt recurrence of R123 is the spec's own inverse of R122 ([derived]), and that a
block's words are little-endian with v0 first is the spec's decision D3. -/
def Obligations.BlockTeaInverse : Prop :=
  ∀ K : Key, let mix := fun v : Word => ((v <<< 4) ^^^ (v >>> 5)) + v
    (∀ v, btDecBlock K v = (List.range 32).foldl (fun u j =>
      let sum : Word := 0xC6EF3720 - BitVec.ofNat 32 j * 0x9E3779B9
      let next : Word := sum - 0x9E3779B9
      let v1 := u.2 - (mix u.1 ^^^ (sum + K.word (sum.toNat / 2048 % 4)))
      (u.1 - (mix v1 ^^^ (next + K.word (next.toNat % 4))), v1)) v) ∧
    (∀ v, btEncBlock K v = (List.range 32).foldl (fun u j =>
      let sum : Word := BitVec.ofNat 32 j * 0x9E3779B9
      let next : Word := sum + 0x9E3779B9
      let v0 := u.1 + (mix u.2 ^^^ (sum + K.word (sum.toNat % 4)))
      (v0, u.2 + (mix v0 ^^^ (next + K.word (next.toNat / 2048 % 4))))) v) ∧
    (∀ (x : List Byte) (j : Nat), 8 * j + 8 ≤ x.length →
      let v := (le32 (byteAt x (8 * j)) (byteAt x (8 * j + 1)) (byteAt x (8 * j + 2)) (byteAt x (8 * j + 3)),
        le32 (byteAt x (8 * j + 4)) (byteAt x (8 * j + 5)) (byteAt x (8 * j + 6)) (byteAt x (8 * j + 7)))
      ((btDec K x).drop (8 * j)).take 8 = bytesLe32 (btDecBlock K v).1 ++ bytesLe32 (btDecBlock K v).2 ∧
        ((btEnc K x).drop (8 * j)).take 8 = bytesLe32 (btEncBlock K v).1 ++ bytesLe32 (btEncBlock K v).2) ∧
    (∀ x, (btEnc K x).drop (8 * (x.length / 8)) = x.drop (8 * (x.length / 8)) ∧
      (btDec K x).drop (8 * (x.length / 8)) = x.drop (8 * (x.length / 8))) ∧
    (∀ v, btDecBlock K (btEncBlock K v) = v) ∧ ∀ x, btDec K (btEnc K x) = x

/-- R128: equal plaintext blocks, at any two places of one call or of two, give equal ciphertext blocks. -/
def Obligations.BlockTeaHasNoChaining : Prop :=
  ∀ (K : Key) (x y : List Byte) (j k : Nat), 8 * j + 8 ≤ x.length → 8 * k + 8 ≤ y.length →
    (x.drop (8 * j)).take 8 = (y.drop (8 * k)).take 8 →
    ((btEnc K x).drop (8 * j)).take 8 = ((btEnc K y).drop (8 * k)).take 8

/-- R140 to R143: the word functions of VariableBlockTea make exactly rounds(n) passes, the decrypt's loop `while sum !=
0` with the sums k·DELTA for k from rounds(n) down to 1 (where in a pass the sum steps is the spec's decision D5), the
encrypt (R143, the spec's own inverse of R142) with the same sums upward; and one pass of each, word by word, MX written
out. A pass of the decrypt takes each word with its left neighbour as it was and its right one as just written, a pass
of the encrypt the other way round, both cyclic. -/
def Obligations.WordDecryptRunsEveryRound : Prop :=
  ∀ K : Key,
    (∀ v : List Word, 1 ≤ v.length → v.length ≤ 16 → vbtDecWords K v
      = (List.range (6 + 52 / v.length)).foldl
          (fun u j => vbtDecPass K (BitVec.ofNat 32 (6 + 52 / v.length - j) * 0x9E3779B9) u) v) ∧
    (∀ v : List Word, 2 ≤ v.length → v.length ≤ 16 → vbtEncWords K v
      = (List.range (6 + 52 / v.length)).foldl
          (fun u j => vbtEncPass K (BitVec.ofNat 32 (j + 1) * 0x9E3779B9) u) v) ∧
    ∀ (sum : Word) (v : List Word),
      let mix := fun (z y : Word) (p : Nat) => (((z >>> 5) ^^^ (y <<< 2)) + ((y >>> 3) ^^^ (z <<< 4))) ^^^
        ((sum ^^^ y) + (K.word ((p % 4) ^^^ (sum.toNat / 4 % 4)) ^^^ z))
      let n := v.length
      (1 ≤ n → let w := vbtDecPass K sum v
        w.length = n ∧
        (∀ p, 1 ≤ p → p < n → wordAt w p
          = wordAt v p - mix (wordAt v (p - 1)) (if p + 1 = n then wordAt v 0 else wordAt w (p + 1)) p) ∧
        wordAt w 0 = wordAt v 0
          - mix (if n = 1 then wordAt v 0 else wordAt w (n - 1)) (if n = 1 then wordAt v 0 else wordAt w 1) 0) ∧
      (2 ≤ n → let w := vbtEncPass K sum v
        w.length = n ∧
        (∀ p, p + 1 < n → wordAt w p
          = wordAt v p + mix (if p = 0 then wordAt v (n - 1) else wordAt w (p - 1)) (wordAt v (p + 1)) p) ∧
        wordAt w (n - 1) = wordAt v (n - 1) + mix (wordAt w (n - 2)) (wordAt w 0) (n - 1))

/-- R152: the inverse laws of VariableBlockTea, on blocks of 2 to 16 words and on every byte sequence. -/
def Obligations.VariableBlockTeaInverse : Prop :=
  ∀ K : Key, (∀ v : List Word, 2 ≤ v.length → v.length ≤ 16 → vbtDecWords K (vbtEncWords K v) = v) ∧
    ∀ x : List Byte, vbtDec K (vbtEnc K x) = x

/-- R147: VBT.DEC on 64 bytes and VBT.DECN with N = 16 are one function and one command. -/
def Obligations.FullBlockPathAgrees : Prop :=
  (∀ (K : Key) (x : List Byte), x.length = 64 → vbtDec K x = wordsToBytes (vbtDecWords K (bytesToWords x))) ∧
  ∀ s : State, s.a3 = 64 → exec (.vbtDecn 16) s = exec .vbtDec s

/-- R145, R153: each full block, the word tail and the byte tail depend only on their own bytes and the key. -/
def Obligations.BlocksAreIndependent : Prop :=
  (∀ (K : Key) (x y : List Byte), x.length % 64 = 0 → vbtDec K (x ++ y) = vbtDec K x ++ vbtDec K y) ∧
  (∀ (K : Key) (x : List Byte), x.length < 8 → vbtDec K x = bfcDec K x) ∧
  ∀ (K : Key) (x y : List Byte), 8 ≤ x.length → x.length < 64 → x.length % 4 = 0 → y.length < 4 →
    x.length + y.length < 64 → vbtDec K (x ++ y) = wordsToBytes (vbtDecWords K (bytesToWords x)) ++ bfcDec K y

/-! ## AlignedBlockStream -/

/-- R172: ABS.OPEN of a closed slot over a source that does not fail and holds a length prefix below 2^31. -/
def Obligations.AbsOpenOpensTheStream : Prop :=
  ∀ (s : State) (slot : Nat) (src : Source) (K : Key) (b0 b1 b2 b3 : Byte),
    s.slots[slot]? = some .closed → sourceOf s s.a0.toNat = some src → src.mayFail = false → 0 ≤ s.a1.toInt →
    Admitted s s.a2.toNat 16 → KeyAt s s.a2.toNat K → s.a1.toNat + 4 ≤ src.data.length →
    vbtDec K ((src.data.drop s.a1.toNat).take 4) = [b0, b1, b2, b3] → (le32 b0 b1 b2 b3).toNat < 2 ^ 31 →
    ∃ t, exec (.absOpen slot) s = .next t ∧ AbsOpened s t slot K (le32 b0 b1 b2 b3)

/-- R172, R173, R244, R248: after its source read ABS.OPEN fails with HEADER DEVICE where the source fails, HEADER SHORT
where fewer than 4 bytes are left, BadLengthPrefix where the decoded length is 2^31 or more, and else it opens. -/
def Obligations.AbsOpenReportsItsRead : Prop :=
  ∀ (s : State) (slot : Nat) (src : Source) (K : Key),
    s.slots[slot]? = some .closed → sourceOf s s.a0.toNat = some src → 0 ≤ s.a1.toInt →
    Admitted s s.a2.toNat 16 → KeyAt s s.a2.toNat K →
    ∃ t, exec (.absOpen slot) s = .next t ∧
      ((src.mayFail = true ∧ AbsOpenFailed s t 0x03 1 1 s.a1) ∨
        (src.data.length < s.a1.toNat + 4 ∧
          AbsOpenFailed s t 0x03 1 2 (BitVec.ofNat 64 (max s.a1.toNat src.data.length))) ∨
        ∃ b0 b1 b2 b3, vbtDec K ((src.data.drop s.a1.toNat).take 4) = [b0, b1, b2, b3] ∧
          (if 2 ^ 31 ≤ (le32 b0 b1 b2 b3).toNat then AbsOpenFailed s t 0x83 0 0 ((le32 b0 b1 b2 b3).setWidth 64)
            else AbsOpened s t slot K (le32 b0 b1 b2 b3)))

/-- R174 to R176: ABS.READ of a stream that lies in its source, over a source that does not fail, delivers the clamped
count of bytes of the content, which R170 decrypts as a whole; it touches nothing where that count is 0. -/
def Obligations.AbsReadDeliversContent : Prop :=
  ∀ (s : State) (slot : Nat) (f : Aligned) (src : Source),
    Memory.wf s.mem = true → s.slots[slot]? = some (.aligned f) → sourceOf s f.src = some src →
    src.mayFail = false → f.pos.toNat ≤ f.length.toNat → f.origin.toNat + f.length.toNat ≤ src.data.length →
    BufValid s s.a3.toInt → Admitted s (bufStart s) s.a3.toNat →
    ∃ t, exec (.absRead slot) s = .next t ∧
      AbsReadDone s t slot f (min s.a3.toNat (f.length.toNat - f.pos.toNat))
        (((vbtDec f.key ((src.data.drop f.origin.toNat).take f.length.toNat)).drop f.pos.toNat).take
          (min s.a3.toNat (f.length.toNat - f.pos.toNat))) ∧
      (min s.a3.toNat (f.length.toNat - f.pos.toNat) = 0 → OnlyReports s t)

/-- R184, the slice law: ABS.SEEK begin `pos`, then ABS.READ, returns the bytes of the content from `pos` on, as many as
were asked for and are left. -/
def Obligations.SeekThenReadIsASlice : Prop :=
  ∀ (s : State) (slot pos : Nat) (f : Aligned) (src : Source) (a0 a1 a2 a3 : U64),
    Memory.wf s.mem = true → s.slots[slot]? = some (.aligned f) → sourceOf s f.src = some src →
    src.mayFail = false → f.length.toNat < 2 ^ 31 → pos ≤ f.length.toNat →
    f.origin.toNat + f.length.toNat ≤ src.data.length →
    BufValid { s with a0 := a0, a1 := a1, a2 := a2, a3 := a3 } a3.toInt →
    Admitted s (a0.toNat + a2.toNat) a3.toNat →
    ∃ u t, exec (.absSeek slot .fromBegin) { s with a0 := BitVec.ofNat 64 pos } = .next u ∧
      exec (.absRead slot) { u with a0 := a0, a1 := a1, a2 := a2, a3 := a3 } = .next t ∧
      Succeeds t (BitVec.ofNat 64 (min a3.toNat (f.length.toNat - pos))) ∧
      memRead t (a0.toNat + a2.toNat) (min a3.toNat (f.length.toNat - pos))
        = ((vbtDec f.key ((src.data.drop f.origin.toNat).take f.length.toNat)).drop pos).take
            (min a3.toNat (f.length.toNat - pos))

/-- R171, R174, R175, R244: where the source ends inside the blocks the read needs, ABS.READ fails SHORT. The read
covers the positions from the start of its first block to the end of its last, or the length. ERRINFO is the offset of
the first byte not delivered; the phase is CONTENT where that byte is of a middle block, and BLOCK_SCRATCH else. -/
def Obligations.AbsReadReportsAShortSource : Prop :=
  ∀ (s : State) (slot : Nat) (f : Aligned) (src : Source) (n stop first past missing : Nat),
    Memory.wf s.mem = true → s.slots[slot]? = some (.aligned f) → sourceOf s f.src = some src →
    src.mayFail = false → f.pos.toNat ≤ f.length.toNat → BufValid s s.a3.toInt →
    Admitted s (bufStart s) s.a3.toNat →
    n = min s.a3.toNat (f.length.toNat - f.pos.toNat) → n ≠ 0 →
    stop = f.pos.toNat + n → first = 64 * (f.pos.toNat / 64) →
    past = min f.length.toNat (64 * ((stop - 1) / 64) + 64) →
    src.data.length < f.origin.toNat + past →
    missing = max src.data.length (f.origin.toNat + first) →
    ∃ t, exec (.absRead slot) s = .next t ∧ StreamReadFailed s t f.src n ∧
      Fails t 0x03
        (if f.origin.toNat + first + 64 ≤ missing ∧ missing < f.origin.toNat + 64 * (stop / 64) then 3 else 2)
        2 (BitVec.ofNat 64 missing)

/-- R63, R174, R176, R244: ABS.READ of a stream that lies in its source delivers the clamped count, or its source may
fail and it fails DEVICE in its head block, in its tail block (phase BLOCK_SCRATCH) or in the blocks between (CONTENT),
with the offset of that read. -/
def Obligations.AbsReadDeliversOrNamesItsRead : Prop :=
  ∀ (s : State) (slot : Nat) (f : Aligned) (src : Source) (n stop : Nat),
    Memory.wf s.mem = true → s.slots[slot]? = some (.aligned f) → sourceOf s f.src = some src →
    f.pos.toNat ≤ f.length.toNat → f.origin.toNat + f.length.toNat ≤ src.data.length →
    BufValid s s.a3.toInt → Admitted s (bufStart s) s.a3.toNat →
    n = min s.a3.toNat (f.length.toNat - f.pos.toNat) → stop = f.pos.toNat + n →
    ∃ t, exec (.absRead slot) s = .next t ∧
      (AbsReadDone s t slot f n
          (((vbtDec f.key ((src.data.drop f.origin.toNat).take f.length.toNat)).drop f.pos.toNat).take n) ∨
        src.mayFail = true ∧ n ≠ 0 ∧ StreamReadFailed s t f.src n ∧
          (Fails t 0x03 2 1 (BitVec.ofNat 64 (f.origin.toNat + 64 * (f.pos.toNat / 64))) ∨
            f.pos.toNat / 64 < stop / 64 ∧ stop % 64 ≠ 0 ∧
              Fails t 0x03 2 1 (BitVec.ofNat 64 (f.origin.toNat + 64 * (stop / 64))) ∨
            f.pos.toNat / 64 + 1 < stop / 64 ∧
              Fails t 0x03 3 1 (BitVec.ofNat 64 (f.origin.toNat + 64 * (f.pos.toNat / 64) + 64))))

/-- R63, R201, R244: SEQ.READ of at least one byte over a source that may fail. Where the draw fails, it fails DEVICE
with the cursor's offset, and no host byte changes; else it delivers. -/
def Obligations.SeqReadDeliversOrFails : Prop :=
  ∀ (s : State) (slot : Nat) (f : Machine.Sequential) (src : Source) (raw out : List Byte), Memory.wf s.mem = true →
    sourceOf s f.src = some src → src.mayFail = true → BufValid s s.a3.toInt → s.a3 ≠ 0 →
    Admitted s (bufStart s) s.a3.toNat → raw = (src.data.drop src.cursor.toNat).take s.a3.toNat →
    (s.slots[slot]? = some (.seqBlockTea f) ∧ out = btDec f.key raw) ∨
      (s.slots[slot]? = some (.seqVbt f) ∧ out = vbtDec f.key raw) →
    ∃ t, exec (.seqRead slot) s = .next t ∧
      if Config.drawReadFails s.draws then Fails t 0x03 3 1 src.cursor ∧ StreamReadFailed s t f.src 0
      else SeqReadDone s t f src raw out

/-- R77, R177: ABS.SEEK from each origin. The target is the exact sum, clamped to [0, length], and the source's cursor
follows; WHENCE 3 is refused. -/
def Obligations.AbsSeekClampsTheTarget : Prop :=
  ∀ (s : State) (slot : Nat) (f : Aligned) (src : Source), s.slots[slot]? = some (.aligned f) →
    sourceOf s f.src = some src →
    (∀ (whence : Whence) (base : Int) (p : Nat),
      (whence = .fromBegin ∧ base = 0) ∨ (whence = .fromCurrent ∧ base = (f.pos.toNat : Int)) ∨
        (whence = .fromEnd ∧ base = (f.length.toNat : Int)) →
      (p : Int) = min (max (base + s.a0.toInt) 0) (f.length.toNat : Int) →
      ∃ t, exec (.absSeek slot whence) s = .next t ∧ Succeeds t (BitVec.ofNat 64 p) ∧ FlagsKept s t ∧
        t.slots = s.slots.set slot (.aligned { f with pos := BitVec.ofNat 64 p }) ∧
        CursorSet s t f.src (f.origin + BitVec.ofNat 64 p) ∧ OtherSourcesKept s t f.src ∧ SameInputs s t ∧
        t.key = s.key ∧ SameMemory s t) ∧
    FailsCleanly (.absSeek slot .three) s 1 7 3

/-- R178, R179: ABS.LEN and ABS.POS. -/
def Obligations.AbsQueriesReport : Prop :=
  ∀ (s : State) (slot : Nat) (f : Aligned), s.slots[slot]? = some (.aligned f) →
    (∃ t, exec (.absLen slot) s = .next t ∧ Succeeds t (f.length.setWidth 64) ∧ FlagsKept s t ∧ OnlyReports s t) ∧
    ∃ t, exec (.absPos slot) s = .next t ∧ Succeeds t f.pos ∧ FlagsKept s t ∧ OnlyReports s t

/-! ## SequentialCipherStream -/

/-- R200: SEQ.OPEN of a closed slot in either variant; the source is neither read nor moved. -/
def Obligations.SeqOpenOpensTheStream : Prop :=
  ∀ (s : State) (slot : Nat) (src : Source) (K : Key), s.slots[slot]? = some .closed →
    sourceOf s s.a0.toNat = some src → Admitted s s.a2.toNat 16 → KeyAt s s.a2.toNat K →
    ∀ kind v, (kind = .blockTea ∧ v = Slot.seqBlockTea ⟨s.a0.toNat, K⟩) ∨
        (kind = .variableBlockTea ∧ v = Slot.seqVbt ⟨s.a0.toNat, K⟩) →
      ∃ t, exec (.seqOpen slot kind) s = .next t ∧ Succeeds t 0 ∧ FlagsKept s t ∧ t.slots = s.slots.set slot v ∧
        SameInputs s t ∧ t.key = s.key ∧ t.sources = s.sources ∧ SameMemory s t

/-- R201 to R203: SEQ.READ over a source that does not fail delivers the bytes at its cursor, up to the end of the
source, decrypted alone by the variant's cipher. -/
def Obligations.SeqReadDeliversAtTheCursor : Prop :=
  ∀ (s : State) (slot : Nat) (f : Machine.Sequential) (src : Source) (raw : List Byte), Memory.wf s.mem = true →
    sourceOf s f.src = some src → src.mayFail = false → BufValid s s.a3.toInt →
    Admitted s (bufStart s) s.a3.toNat → raw = (src.data.drop src.cursor.toNat).take s.a3.toNat →
    (s.slots[slot]? = some (.seqBlockTea f) →
      ∃ t, exec (.seqRead slot) s = .next t ∧ SeqReadDone s t f src raw (btDec f.key raw)) ∧
    (s.slots[slot]? = some (.seqVbt f) →
      ∃ t, exec (.seqRead slot) s = .next t ∧ SeqReadDone s t f src raw (vbtDec f.key raw))

/-! ## Refused operations -/

/-- R180 to R182, R204 to R207, R243: the refused commands on an open slot of their kind, SEQ.SEEK for every WHENCE,
have no effect but UnsupportedOperation. -/
def Obligations.RefusedOperationsAreUnsupported : Prop :=
  ∀ (s : State) (slot : Nat),
    (∀ f, s.slots[slot]? = some (.aligned f) →
      FailsCleanly (.absWrite slot) s 2 1 0 ∧ FailsCleanly (.absFlush slot) s 2 2 0 ∧
        FailsCleanly (.absSetlen slot) s 2 3 0) ∧
    ∀ f, s.slots[slot]? = some (.seqBlockTea f) ∨ s.slots[slot]? = some (.seqVbt f) →
      (∀ whence, FailsCleanly (.seqSeek slot whence) s 2 4 0) ∧ FailsCleanly (.seqWrite slot) s 2 1 0 ∧
        FailsCleanly (.seqFlush slot) s 2 2 0 ∧ FailsCleanly (.seqSetlen slot) s 2 3 0

/-! ## The register window, host memory and reset -/

/-- R20, R28, R29: what a host read of each register returns. -/
def Obligations.WindowReadsTheRegisters : Prop :=
  ∀ s : State, ∀ p ∈ ([(0x00, 4, s.cmd.setWidth 64), (0x08, 8, s.a0), (0x10, 8, s.a1), (0x18, 8, s.a2), (0x20, 8, s.a3),
      (0x28, 8, s.res), (0x30, 4, s.status.setWidth 64), (0x38, 8, s.errinfo), (0x40, 4, s.key.k0.setWidth 64),
      (0x44, 4, s.key.k1.setWidth 64), (0x48, 4, s.key.k2.setWidth 64), (0x4C, 4, s.key.k3.setWidth 64),
      (0x50, 4, 0x4F5A3243), (0x58, 4, BitVec.ofNat 64 (nSlots s % 256 + 256 * (nSources s % 256)))] :
      List (U64 × Nat × U64)),
    act (.regRead (s.regBase + p.1) p.2.1) s = .next { s with hostData := p.2.2 }

/-- R22, R30: writes of A0 to A3 whole and by halves, reads of each 64-bit register by halves, ignored writes of each
read-only register whole and by halves, accesses to unmapped offsets, and refused accesses. R30 says "A model must
refuse it" of an access of another width or alignment; that offset 0x34 is one, and that an access to an unmapped offset
is taken where it is 4 or 8 bytes wide and aligned and refused else, is the model's reading (notes/assumptions/7.md,
DEDUCED). -/
def Obligations.WindowAccessesFollowTheRule : Prop :=
  ∀ (s : State) (v : U64),
    (∀ r ∈ ([(0x08, s.a0, fun x => { s with a0 := x }), (0x10, s.a1, fun x => { s with a1 := x }),
        (0x18, s.a2, fun x => { s with a2 := x }), (0x20, s.a3, fun x => { s with a3 := x })] :
        List (U64 × U64 × (U64 → State))),
      act (.regWrite (s.regBase + r.1) 8 v) s = .next (r.2.2 v) ∧
      act (.regWrite (s.regBase + r.1) 4 v) s = .next (r.2.2 (r.2.1.extractLsb' 32 32 ++ v.extractLsb' 0 32)) ∧
      act (.regWrite (s.regBase + r.1 + 4) 4 v) s = .next (r.2.2 (v.extractLsb' 0 32 ++ r.2.1.extractLsb' 0 32))) ∧
    (∀ r ∈ ([(0x08, s.a0), (0x10, s.a1), (0x18, s.a2), (0x20, s.a3), (0x28, s.res), (0x38, s.errinfo)] :
        List (U64 × U64)),
      act (.regRead (s.regBase + r.1) 4) s = .next { s with hostData := (r.2.extractLsb' 0 32).setWidth 64 } ∧
      act (.regRead (s.regBase + r.1 + 4) 4) s = .next { s with hostData := (r.2.extractLsb' 32 32).setWidth 64 }) ∧
    (∀ off ∈ ([0x28, 0x38] : List U64), act (.regWrite (s.regBase + off) 8 v) s = .next s) ∧
    (∀ off ∈ ([0x28, 0x2C, 0x30, 0x38, 0x3C, 0x40, 0x44, 0x48, 0x4C, 0x50, 0x58] : List U64),
      act (.regWrite (s.regBase + off) 4 v) s = .next s) ∧
    (∀ addr bytes, bytes = 4 ∨ bytes = 8 → windowOffset s addr % bytes = 0 →
      windowOffset s addr ∈ [0x04, 0x54, 0x5C] ∨ 0x60 ≤ windowOffset s addr →
      act (.regWrite addr bytes v) s = .next s ∧ act (.regRead addr bytes) s = .next { s with hostData := 0 }) ∧
    ∀ addr bytes,
      bytes ≠ 4 ∧ bytes ≠ 8 ∨ windowOffset s addr % bytes ≠ 0 ∨
        bytes = 8 ∧ windowOffset s addr ∈ [0x00, 0x30, 0x40, 0x48, 0x50, 0x58] ∨
        bytes = 4 ∧ windowOffset s addr = 0x34 →
      act (.regWrite addr bytes v) s = .refused .undefinedWindowAccess ∧
      act (.regRead addr bytes) s = .refused .undefinedWindowAccess

/-- R40: reset between commands. -/
def Obligations.ResetBetweenCommands : Prop :=
  ∀ s : State, ∃ t, act .reset s = .next t ∧ CoreIsReset s t ∧ t.sources = s.sources ∧ t.mem = s.mem

/-- R270: a reset that interrupts a command leaves the CORE in the reset state, and changes no host byte and no cursor
but those of the command's `footprint`; a word that is no command has none. That footprint is sound: run to its end, the
command changes no host byte and no cursor outside it. And it is exact: what each command is counted to write and use,
from the checks of its own rule. The three points of notes/assumptions/10.md in it (a command that only seeks its source
counts as using it, SEQ.READ writes at most what its source delivers, a read of no byte touches nothing) are the model's
choice. -/
def Obligations.ResetInsideACommand : Prop :=
  ∀ (s : State) (w : Word) (i : Instr), Memory.wf s.mem = true →
    (decode w = .ok i → ∃ t, act (.commandThenReset w) s = .next t ∧ CoreIsReset s t ∧ OnlyFootprint (footprint i s) s t) ∧
    (∀ d, decode w = .error d → ∃ t, act (.commandThenReset w) s = .next t ∧ CoreIsReset s t ∧
      OnlyFootprint ⟨none, none⟩ s t) ∧
    (∀ t, exec i s = .next t → OnlyFootprint (footprint i s) s t) ∧
    (∀ t, exec i s = .next t → statusCause t.status ∈ ([0x01, 0x02, 0x81, 0x82, 0x84] : List (BitVec 8)) →
      footprint i s = ⟨none, none⟩) ∧
    (i ∈ ([.nop, .keyload, .clrerr, .srcGetpos] : List Instr) →
      footprint i s = ⟨none, none⟩) ∧
    (∀ slot kind, i ∈ ([.absLen slot, .absPos slot, .seqOpen slot kind, .close slot] : List Instr) →
      footprint i s = ⟨none, none⟩) ∧
    (i ∈ ([.bfcEnc, .bfcDec, .bteaDec, .bteaEnc, .vbtDec, .vbtEnc] : List Instr) → statusKeyv s.status = true →
      BufValid s s.a3.toInt → Admitted s (bufStart s) s.a3.toNat →
      footprint i s = ⟨some ⟨bufStart s, s.a3.toNat⟩, none⟩) ∧
    (∀ n, i = .vbtDecn n ∧ 1 ≤ n ∨ i = .vbtEncn n ∧ 2 ≤ n → n ≤ 16 → statusKeyv s.status = true →
      BufValid s (4 * (n : Int)) → Admitted s (bufStart s) (4 * n) →
      footprint i s = ⟨some ⟨bufStart s, 4 * n⟩, none⟩) ∧
    (∀ src, i = .srcSetpos → sourceOf s s.a0.toNat = some src → 0 ≤ s.a1.toInt →
      footprint i s = ⟨none, some s.a0.toNat⟩) ∧
    (∀ slot src, i = .absOpen slot → s.slots[slot]? = some .closed → sourceOf s s.a0.toNat = some src →
      0 ≤ s.a1.toInt → Admitted s s.a2.toNat 16 → footprint i s = ⟨none, some s.a0.toNat⟩) ∧
    (∀ slot whence f, i = .absSeek slot whence → whence ≠ .three → s.slots[slot]? = some (.aligned f) →
      footprint i s = ⟨none, some f.src⟩) ∧
    (∀ slot f n, i = .absRead slot → s.slots[slot]? = some (.aligned f) → BufValid s s.a3.toInt →
      Admitted s (bufStart s) s.a3.toNat → n = min s.a3.toNat (f.length.toNat - f.pos.toNat) →
      footprint i s = if n = 0 then ⟨none, none⟩ else ⟨some ⟨bufStart s, n⟩, some f.src⟩) ∧
    ∀ slot f src, i = .seqRead slot →
      s.slots[slot]? = some (.seqBlockTea f) ∨ s.slots[slot]? = some (.seqVbt f) → sourceOf s f.src = some src →
      BufValid s s.a3.toInt → Admitted s (bufStart s) s.a3.toNat →
      footprint i s = if s.a3 = 0 then ⟨none, none⟩
        else ⟨some ⟨bufStart s, min s.a3.toNat (src.data.length - src.cursor.toNat)⟩, some f.src⟩

/-- R52, R67: a host write of host memory is read back, and no other byte changes; the bytes `MemWrite` stores are the
bytes `MemRead` gives. -/
def Obligations.HostMemoryReadsBack : Prop :=
  ∀ s : State, Memory.wf s.mem = true →
    (∀ (addr : U64) (v : Byte), ∃ t, act (.memWrite addr v) s = .next t ∧
      (∀ x, Memory.byte t.mem x = if x = addr.toNat then v else Memory.byte s.mem x) ∧
      act (.memRead addr) t = .next { t with hostData := v.setWidth 64 }) ∧
    ∀ (a : Nat) (bs : List Byte), a + bs.length ≤ 2 ^ 64 →
      memRead (memWrite s a bs) a bs.length = bs ∧ SameMemoryOutside s (memWrite s a bs) a bs.length
end

