-- ==== Sys2Proof/Laws/Ciphers.lean ====
section
/-! SUPPORT. The lengths the cipher functions keep, the byte order, and the one step each loop takes. -/

namespace Sys2Proof.Machine

/-! ## Bytes and words (R6) -/

@[simp] theorem length_bytesLe32 (w : Word) : (bytesLe32 w).length = 4 := rfl

/-- `bytes_le32` gives back the word `le32` made. -/
theorem le32_bytesLe32 (w : Word) :
    le32 (w.extractLsb' 0 8) (w.extractLsb' 8 8) (w.extractLsb' 16 8) (w.extractLsb' 24 8) = w := by
  apply BitVec.eq_of_getLsbD_eq
  intro i hi
  interval_cases i <;> simp [le32, placeField]

/-- `le32` gives back the bytes `bytes_le32` made. -/
theorem bytesLe32_le32 (b0 b1 b2 b3 : Byte) : bytesLe32 (le32 b0 b1 b2 b3) = [b0, b1, b2, b3] := by
  simp only [bytesLe32, List.cons.injEq, and_true]
  refine ⟨?_, ?_, ?_, ?_⟩ <;>
    (apply BitVec.eq_of_getLsbD_eq
     intro i hi
     interval_cases i <;> simp [le32, placeField])

@[simp] theorem length_wordsToBytes (ws : List Word) : (wordsToBytes ws).length = 4 * ws.length := by
  induction ws with
  | nil => rfl
  | cons w ws ih => simp [wordsToBytes, ih]; omega

theorem length_bytesToWords : ∀ bs : List Byte, (bytesToWords bs).length = bs.length / 4
  | [] => rfl
  | [_] => by simp [bytesToWords]
  | [_, _] => by simp [bytesToWords]
  | [_, _, _] => by simp [bytesToWords]
  | _ :: _ :: _ :: _ :: rest => by
    simp only [bytesToWords, List.length_cons, length_bytesToWords rest]
    omega

@[simp] theorem bytesToWords_wordsToBytes (ws : List Word) : bytesToWords (wordsToBytes ws) = ws := by
  induction ws with
  | nil => rfl
  | cons w ws ih =>
    simp only [wordsToBytes, bytesLe32, List.cons_append, List.nil_append, bytesToWords, ih, le32_bytesLe32]

theorem wordsToBytes_bytesToWords : ∀ bs : List Byte, bs.length % 4 = 0 → wordsToBytes (bytesToWords bs) = bs
  | [], _ => rfl
  | [_], h => by simp at h
  | [_, _], h => by simp at h
  | [_, _, _], h => by simp at h
  | b0 :: b1 :: b2 :: b3 :: rest, h => by
    have h' : rest.length % 4 = 0 := by simp only [List.length_cons] at h; omega
    simp [bytesToWords, wordsToBytes, bytesLe32_le32, wordsToBytes_bytesToWords rest h']

/-! ## ByteFeedbackCipher -/

/-- The rotations of R5 undo each other. -/
theorem rotl8_rotr8 (x : Byte) {r : Nat} (hr : r < 8) : rotl8 (rotr8 x r) r = x := by
  apply BitVec.eq_of_getLsbD_eq
  intro i hi
  interval_cases r <;> interval_cases i <;> simp [rotl8, rotr8]

theorem rotr8_rotl8 (x : Byte) {r : Nat} (hr : r < 8) : rotr8 (rotl8 x r) r = x := by
  apply BitVec.eq_of_getLsbD_eq
  intro i hi
  interval_cases r <;> interval_cases i <;> simp [rotl8, rotr8]

theorem bfcTurn_lt (p : Byte) : bfcTurn p < 8 := by unfold bfcTurn; omega

@[simp] theorem length_bfcEncFrom (K : Key) (L i : Nat) (p : Byte) (x : List Byte) :
    (bfcEncFrom K L i p x).length = x.length := by
  induction x generalizing i p with
  | nil => rfl
  | cons b x ih => simp [bfcEncFrom, ih]

@[simp] theorem length_bfcDecFrom (K : Key) (L i : Nat) (p : Byte) (x : List Byte) :
    (bfcDecFrom K L i p x).length = x.length := by
  induction x generalizing i p with
  | nil => rfl
  | cons b x ih => simp [bfcDecFrom, ih]

@[simp] theorem length_bfcEnc (K : Key) (x : List Byte) : (bfcEnc K x).length = x.length := by simp [bfcEnc]

@[simp] theorem length_bfcDec (K : Key) (x : List Byte) : (bfcDec K x).length = x.length := by simp [bfcDec]

/-! ## BlockTeaCipher -/

@[simp] theorem length_blockBytes (v : Word × Word) : (blockBytes v).length = 8 := rfl

@[simp] theorem length_btBlocks (f : Word × Word → Word × Word) (x : List Byte) : (btBlocks f x).length = x.length := by
  fun_induction btBlocks f x with
  | case1 b0 b1 b2 b3 b4 b5 b6 b7 rest ih => simp [ih]; omega
  | case2 tail => rfl

@[simp] theorem length_btDec (K : Key) (x : List Byte) : (btDec K x).length = x.length := by simp [btDec]

@[simp] theorem length_btEnc (K : Key) (x : List Byte) : (btEnc K x).length = x.length := by simp [btEnc]

/-! ## VariableBlockTeaCipher -/

@[simp] theorem length_vbtDecInner (K : Key) (sum : Word) (e p : Nat) (v : List Word) (y : Word) :
    (vbtDecInner K sum e p v y).1.length = v.length := by
  induction p generalizing v y with
  | zero => rfl
  | succ p ih => simp [vbtDecInner, ih]

@[simp] theorem length_vbtDecPass (K : Key) (sum : Word) (v : List Word) : (vbtDecPass K sum v).length = v.length := by
  simp [vbtDecPass]

@[simp] theorem length_vbtDecLoop (K : Key) (fuel : Nat) (sum : Word) (v : List Word) :
    (vbtDecLoop K fuel sum v).length = v.length := by
  induction fuel generalizing sum v with
  | zero => rfl
  | succ fuel ih =>
    rw [vbtDecLoop]
    split
    · rfl
    · rw [ih, length_vbtDecPass]

@[simp] theorem length_vbtDecWords (K : Key) (v : List Word) : (vbtDecWords K v).length = v.length := by
  simp [vbtDecWords]

@[simp] theorem length_vbtEncInner (K : Key) (sum : Word) (e left p : Nat) (v : List Word) (z : Word) :
    (vbtEncInner K sum e left p v z).1.length = v.length := by
  induction left generalizing p v z with
  | zero => rfl
  | succ left ih => simp [vbtEncInner, ih]

@[simp] theorem length_vbtEncPass (K : Key) (sum : Word) (v : List Word) : (vbtEncPass K sum v).length = v.length := by
  simp [vbtEncPass]

@[simp] theorem length_vbtEncLoop (K : Key) (k : Nat) (sum : Word) (v : List Word) :
    (vbtEncLoop K k sum v).length = v.length := by
  induction k generalizing sum v with
  | zero => rfl
  | succ k ih => rw [vbtEncLoop, ih, length_vbtEncPass]

@[simp] theorem length_vbtEncWords (K : Key) (v : List Word) : (vbtEncWords K v).length = v.length := by
  simp [vbtEncWords]

/-- A length-keeping word function keeps the length of the bytes of a whole number of words. -/
theorem length_onWords {f : List Word → List Word} (hf : ∀ v, (f v).length = v.length) (bs : List Byte) :
    (onWords f bs).length = 4 * (bs.length / 4) := by
  simp [onWords, hf, length_bytesToWords]

theorem length_vbtTail {fw : List Word → List Word} {fb : List Byte → List Byte} (hw : ∀ v, (fw v).length = v.length)
    (hb : ∀ x, (fb x).length = x.length) (x : List Byte) : (vbtTail fw fb x).length = x.length := by
  unfold vbtTail
  split
  · rw [List.length_append, length_onWords hw, hb, List.length_take, List.length_drop]; omega
  · exact hb x

theorem length_vbtBlocks {fw : List Word → List Word} {fb : List Byte → List Byte} (hw : ∀ v, (fw v).length = v.length)
    (hb : ∀ x, (fb x).length = x.length) (full : Nat) (x : List Byte) (hx : 64 * full ≤ x.length) :
    (vbtBlocks fw fb full x).length = x.length := by
  induction full generalizing x with
  | zero => exact length_vbtTail hw hb x
  | succ full ih =>
    rw [vbtBlocks, List.length_append, length_onWords hw, ih (x.drop 64) (by rw [List.length_drop]; omega),
      List.length_take, List.length_drop]
    omega

/-- The routing of R145 keeps the length. -/
theorem length_vbtRoute {fw : List Word → List Word} {fb : List Byte → List Byte} (hw : ∀ v, (fw v).length = v.length)
    (hb : ∀ x, (fb x).length = x.length) (x : List Byte) : (vbtRoute fw fb x).length = x.length :=
  length_vbtBlocks hw hb _ x (by omega)

@[simp] theorem length_vbtDec (K : Key) (x : List Byte) : (vbtDec K x).length = x.length :=
  length_vbtRoute (length_vbtDecWords K) (length_bfcDec K) x

@[simp] theorem length_vbtEnc (K : Key) (x : List Byte) : (vbtEnc K x).length = x.length :=
  length_vbtRoute (length_vbtEncWords K) (length_bfcEnc K) x

end Sys2Proof.Machine
end

