-- ==== Sys2Proof/Laws/State.lean ====
section
/-! SUPPORT. One lemma for each field of `State` and each shared update of it, so that no proof unfolds a record
update. -/

namespace Sys2Proof.Machine

/-! ## memWrite -/

@[simp] theorem memWrite_cmd (s : State) (a : Nat) (bs : List Byte) : (memWrite s a bs).cmd = s.cmd := rfl
@[simp] theorem memWrite_a0 (s : State) (a : Nat) (bs : List Byte) : (memWrite s a bs).a0 = s.a0 := rfl
@[simp] theorem memWrite_a1 (s : State) (a : Nat) (bs : List Byte) : (memWrite s a bs).a1 = s.a1 := rfl
@[simp] theorem memWrite_a2 (s : State) (a : Nat) (bs : List Byte) : (memWrite s a bs).a2 = s.a2 := rfl
@[simp] theorem memWrite_a3 (s : State) (a : Nat) (bs : List Byte) : (memWrite s a bs).a3 = s.a3 := rfl
@[simp] theorem memWrite_res (s : State) (a : Nat) (bs : List Byte) : (memWrite s a bs).res = s.res := rfl
@[simp] theorem memWrite_status (s : State) (a : Nat) (bs : List Byte) : (memWrite s a bs).status = s.status := rfl
@[simp] theorem memWrite_errinfo (s : State) (a : Nat) (bs : List Byte) : (memWrite s a bs).errinfo = s.errinfo := rfl
@[simp] theorem memWrite_key (s : State) (a : Nat) (bs : List Byte) : (memWrite s a bs).key = s.key := rfl
@[simp] theorem memWrite_slots (s : State) (a : Nat) (bs : List Byte) : (memWrite s a bs).slots = s.slots := rfl
@[simp] theorem memWrite_sources (s : State) (a : Nat) (bs : List Byte) : (memWrite s a bs).sources = s.sources := rfl
@[simp] theorem memWrite_mem (s : State) (a : Nat) (bs : List Byte) : (memWrite s a bs).mem = s.mem.write a bs := rfl
@[simp] theorem memWrite_hostMem (s : State) (a : Nat) (bs : List Byte) : (memWrite s a bs).hostMem = s.hostMem := rfl
@[simp] theorem memWrite_regBase (s : State) (a : Nat) (bs : List Byte) : (memWrite s a bs).regBase = s.regBase := rfl
@[simp] theorem memWrite_host (s : State) (a : Nat) (bs : List Byte) : (memWrite s a bs).host = s.host := rfl
@[simp] theorem memWrite_hostData (s : State) (a : Nat) (bs : List Byte) :
    (memWrite s a bs).hostData = s.hostData := rfl
@[simp] theorem memWrite_draws (s : State) (a : Nat) (bs : List Byte) : (memWrite s a bs).draws = s.draws := rfl

/-! ## memHavoc -/

@[simp] theorem memHavoc_cmd (s : State) (a n : Nat) : (memHavoc s a n).cmd = s.cmd := rfl
@[simp] theorem memHavoc_a0 (s : State) (a n : Nat) : (memHavoc s a n).a0 = s.a0 := rfl
@[simp] theorem memHavoc_a1 (s : State) (a n : Nat) : (memHavoc s a n).a1 = s.a1 := rfl
@[simp] theorem memHavoc_a2 (s : State) (a n : Nat) : (memHavoc s a n).a2 = s.a2 := rfl
@[simp] theorem memHavoc_a3 (s : State) (a n : Nat) : (memHavoc s a n).a3 = s.a3 := rfl
@[simp] theorem memHavoc_res (s : State) (a n : Nat) : (memHavoc s a n).res = s.res := rfl
@[simp] theorem memHavoc_status (s : State) (a n : Nat) : (memHavoc s a n).status = s.status := rfl
@[simp] theorem memHavoc_errinfo (s : State) (a n : Nat) : (memHavoc s a n).errinfo = s.errinfo := rfl
@[simp] theorem memHavoc_key (s : State) (a n : Nat) : (memHavoc s a n).key = s.key := rfl
@[simp] theorem memHavoc_slots (s : State) (a n : Nat) : (memHavoc s a n).slots = s.slots := rfl
@[simp] theorem memHavoc_sources (s : State) (a n : Nat) : (memHavoc s a n).sources = s.sources := rfl
@[simp] theorem memHavoc_mem (s : State) (a n : Nat) :
    (memHavoc s a n).mem = s.mem.write a ((List.range n).map fun i => Config.drawByte (s.draws + i)) := rfl
@[simp] theorem memHavoc_hostMem (s : State) (a n : Nat) : (memHavoc s a n).hostMem = s.hostMem := rfl
@[simp] theorem memHavoc_regBase (s : State) (a n : Nat) : (memHavoc s a n).regBase = s.regBase := rfl
@[simp] theorem memHavoc_host (s : State) (a n : Nat) : (memHavoc s a n).host = s.host := rfl
@[simp] theorem memHavoc_hostData (s : State) (a n : Nat) : (memHavoc s a n).hostData = s.hostData := rfl
@[simp] theorem memHavoc_draws (s : State) (a n : Nat) : (memHavoc s a n).draws = s.draws + n := rfl

/-! ## srcSeek -/

@[simp] theorem srcSeek_cmd (s : State) (h : Nat) (c : U64) : (srcSeek s h c).cmd = s.cmd := rfl
@[simp] theorem srcSeek_a0 (s : State) (h : Nat) (c : U64) : (srcSeek s h c).a0 = s.a0 := rfl
@[simp] theorem srcSeek_a1 (s : State) (h : Nat) (c : U64) : (srcSeek s h c).a1 = s.a1 := rfl
@[simp] theorem srcSeek_a2 (s : State) (h : Nat) (c : U64) : (srcSeek s h c).a2 = s.a2 := rfl
@[simp] theorem srcSeek_a3 (s : State) (h : Nat) (c : U64) : (srcSeek s h c).a3 = s.a3 := rfl
@[simp] theorem srcSeek_res (s : State) (h : Nat) (c : U64) : (srcSeek s h c).res = s.res := rfl
@[simp] theorem srcSeek_status (s : State) (h : Nat) (c : U64) : (srcSeek s h c).status = s.status := rfl
@[simp] theorem srcSeek_errinfo (s : State) (h : Nat) (c : U64) : (srcSeek s h c).errinfo = s.errinfo := rfl
@[simp] theorem srcSeek_key (s : State) (h : Nat) (c : U64) : (srcSeek s h c).key = s.key := rfl
@[simp] theorem srcSeek_slots (s : State) (h : Nat) (c : U64) : (srcSeek s h c).slots = s.slots := rfl
@[simp] theorem srcSeek_sources (s : State) (h : Nat) (c : U64) :
    (srcSeek s h c).sources = s.sources.modify h (Option.map fun src => { src with cursor := c }) := rfl
@[simp] theorem srcSeek_mem (s : State) (h : Nat) (c : U64) : (srcSeek s h c).mem = s.mem := rfl
@[simp] theorem srcSeek_hostMem (s : State) (h : Nat) (c : U64) : (srcSeek s h c).hostMem = s.hostMem := rfl
@[simp] theorem srcSeek_regBase (s : State) (h : Nat) (c : U64) : (srcSeek s h c).regBase = s.regBase := rfl
@[simp] theorem srcSeek_host (s : State) (h : Nat) (c : U64) : (srcSeek s h c).host = s.host := rfl
@[simp] theorem srcSeek_hostData (s : State) (h : Nat) (c : U64) : (srcSeek s h c).hostData = s.hostData := rfl
@[simp] theorem srcSeek_draws (s : State) (h : Nat) (c : U64) : (srcSeek s h c).draws = s.draws := rfl

/-! ## srcCursorDraw -/

@[simp] theorem srcCursorDraw_cmd (s : State) (h : Nat) : (srcCursorDraw s h).cmd = s.cmd := rfl
@[simp] theorem srcCursorDraw_a0 (s : State) (h : Nat) : (srcCursorDraw s h).a0 = s.a0 := rfl
@[simp] theorem srcCursorDraw_a1 (s : State) (h : Nat) : (srcCursorDraw s h).a1 = s.a1 := rfl
@[simp] theorem srcCursorDraw_a2 (s : State) (h : Nat) : (srcCursorDraw s h).a2 = s.a2 := rfl
@[simp] theorem srcCursorDraw_a3 (s : State) (h : Nat) : (srcCursorDraw s h).a3 = s.a3 := rfl
@[simp] theorem srcCursorDraw_res (s : State) (h : Nat) : (srcCursorDraw s h).res = s.res := rfl
@[simp] theorem srcCursorDraw_status (s : State) (h : Nat) : (srcCursorDraw s h).status = s.status := rfl
@[simp] theorem srcCursorDraw_errinfo (s : State) (h : Nat) : (srcCursorDraw s h).errinfo = s.errinfo := rfl
@[simp] theorem srcCursorDraw_key (s : State) (h : Nat) : (srcCursorDraw s h).key = s.key := rfl
@[simp] theorem srcCursorDraw_slots (s : State) (h : Nat) : (srcCursorDraw s h).slots = s.slots := rfl
@[simp] theorem srcCursorDraw_sources (s : State) (h : Nat) :
    (srcCursorDraw s h).sources = (srcSeek s h (Config.drawCursor s.draws)).sources := rfl
@[simp] theorem srcCursorDraw_mem (s : State) (h : Nat) : (srcCursorDraw s h).mem = s.mem := rfl
@[simp] theorem srcCursorDraw_hostMem (s : State) (h : Nat) : (srcCursorDraw s h).hostMem = s.hostMem := rfl
@[simp] theorem srcCursorDraw_regBase (s : State) (h : Nat) : (srcCursorDraw s h).regBase = s.regBase := rfl
@[simp] theorem srcCursorDraw_host (s : State) (h : Nat) : (srcCursorDraw s h).host = s.host := rfl
@[simp] theorem srcCursorDraw_hostData (s : State) (h : Nat) : (srcCursorDraw s h).hostData = s.hostData := rfl
@[simp] theorem srcCursorDraw_draws (s : State) (h : Nat) : (srcCursorDraw s h).draws = s.draws + 1 := rfl

/-! ## setSlot -/

@[simp] theorem setSlot_cmd (s : State) (slot : Nat) (v : Slot) : (setSlot s slot v).cmd = s.cmd := rfl
@[simp] theorem setSlot_a0 (s : State) (slot : Nat) (v : Slot) : (setSlot s slot v).a0 = s.a0 := rfl
@[simp] theorem setSlot_a1 (s : State) (slot : Nat) (v : Slot) : (setSlot s slot v).a1 = s.a1 := rfl
@[simp] theorem setSlot_a2 (s : State) (slot : Nat) (v : Slot) : (setSlot s slot v).a2 = s.a2 := rfl
@[simp] theorem setSlot_a3 (s : State) (slot : Nat) (v : Slot) : (setSlot s slot v).a3 = s.a3 := rfl
@[simp] theorem setSlot_res (s : State) (slot : Nat) (v : Slot) : (setSlot s slot v).res = s.res := rfl
@[simp] theorem setSlot_status (s : State) (slot : Nat) (v : Slot) : (setSlot s slot v).status = s.status := rfl
@[simp] theorem setSlot_errinfo (s : State) (slot : Nat) (v : Slot) : (setSlot s slot v).errinfo = s.errinfo := rfl
@[simp] theorem setSlot_key (s : State) (slot : Nat) (v : Slot) : (setSlot s slot v).key = s.key := rfl
@[simp] theorem setSlot_slots (s : State) (slot : Nat) (v : Slot) : (setSlot s slot v).slots = s.slots.set slot v := rfl
@[simp] theorem setSlot_sources (s : State) (slot : Nat) (v : Slot) : (setSlot s slot v).sources = s.sources := rfl
@[simp] theorem setSlot_mem (s : State) (slot : Nat) (v : Slot) : (setSlot s slot v).mem = s.mem := rfl
@[simp] theorem setSlot_hostMem (s : State) (slot : Nat) (v : Slot) : (setSlot s slot v).hostMem = s.hostMem := rfl
@[simp] theorem setSlot_regBase (s : State) (slot : Nat) (v : Slot) : (setSlot s slot v).regBase = s.regBase := rfl
@[simp] theorem setSlot_host (s : State) (slot : Nat) (v : Slot) : (setSlot s slot v).host = s.host := rfl
@[simp] theorem setSlot_hostData (s : State) (slot : Nat) (v : Slot) : (setSlot s slot v).hostData = s.hostData := rfl
@[simp] theorem setSlot_draws (s : State) (slot : Nat) (v : Slot) : (setSlot s slot v).draws = s.draws := rfl

/-! ## succeed -/

@[simp] theorem succeed_cmd (s : State) (r : U64) : (succeed s r).cmd = s.cmd := rfl
@[simp] theorem succeed_a0 (s : State) (r : U64) : (succeed s r).a0 = s.a0 := rfl
@[simp] theorem succeed_a1 (s : State) (r : U64) : (succeed s r).a1 = s.a1 := rfl
@[simp] theorem succeed_a2 (s : State) (r : U64) : (succeed s r).a2 = s.a2 := rfl
@[simp] theorem succeed_a3 (s : State) (r : U64) : (succeed s r).a3 = s.a3 := rfl
@[simp] theorem succeed_res (s : State) (r : U64) : (succeed s r).res = r := rfl
@[simp] theorem succeed_status (s : State) (r : U64) : (succeed s r).status = statusOnSuccess s.status := rfl
@[simp] theorem succeed_errinfo (s : State) (r : U64) : (succeed s r).errinfo = 0 := rfl
@[simp] theorem succeed_key (s : State) (r : U64) : (succeed s r).key = s.key := rfl
@[simp] theorem succeed_slots (s : State) (r : U64) : (succeed s r).slots = s.slots := rfl
@[simp] theorem succeed_sources (s : State) (r : U64) : (succeed s r).sources = s.sources := rfl
@[simp] theorem succeed_mem (s : State) (r : U64) : (succeed s r).mem = s.mem := rfl
@[simp] theorem succeed_hostMem (s : State) (r : U64) : (succeed s r).hostMem = s.hostMem := rfl
@[simp] theorem succeed_regBase (s : State) (r : U64) : (succeed s r).regBase = s.regBase := rfl
@[simp] theorem succeed_host (s : State) (r : U64) : (succeed s r).host = s.host := rfl
@[simp] theorem succeed_hostData (s : State) (r : U64) : (succeed s r).hostData = s.hostData := rfl
@[simp] theorem succeed_draws (s : State) (r : U64) : (succeed s r).draws = s.draws := rfl

/-! ## raise -/

@[simp] theorem raise_cmd (s : State) (f : Failure) : (raise s f).cmd = s.cmd := rfl
@[simp] theorem raise_a0 (s : State) (f : Failure) : (raise s f).a0 = s.a0 := rfl
@[simp] theorem raise_a1 (s : State) (f : Failure) : (raise s f).a1 = s.a1 := rfl
@[simp] theorem raise_a2 (s : State) (f : Failure) : (raise s f).a2 = s.a2 := rfl
@[simp] theorem raise_a3 (s : State) (f : Failure) : (raise s f).a3 = s.a3 := rfl
@[simp] theorem raise_res (s : State) (f : Failure) : (raise s f).res = 0 := rfl
@[simp] theorem raise_status (s : State) (f : Failure) : (raise s f).status = statusOnFailure f s.status := rfl
@[simp] theorem raise_errinfo (s : State) (f : Failure) : (raise s f).errinfo = f.info s.draws := rfl
@[simp] theorem raise_key (s : State) (f : Failure) : (raise s f).key = s.key := rfl
@[simp] theorem raise_slots (s : State) (f : Failure) : (raise s f).slots = s.slots := rfl
@[simp] theorem raise_sources (s : State) (f : Failure) : (raise s f).sources = s.sources := rfl
@[simp] theorem raise_mem (s : State) (f : Failure) : (raise s f).mem = s.mem := rfl
@[simp] theorem raise_hostMem (s : State) (f : Failure) : (raise s f).hostMem = s.hostMem := rfl
@[simp] theorem raise_regBase (s : State) (f : Failure) : (raise s f).regBase = s.regBase := rfl
@[simp] theorem raise_host (s : State) (f : Failure) : (raise s f).host = s.host := rfl
@[simp] theorem raise_hostData (s : State) (f : Failure) : (raise s f).hostData = s.hostData := rfl
@[simp] theorem raise_draws (s : State) (f : Failure) : (raise s f).draws = s.draws + f.drawn := rfl

/-! ## resetCore -/

@[simp] theorem resetCore_cmd (s : State) : (resetCore s).cmd = 0 := rfl
@[simp] theorem resetCore_a0 (s : State) : (resetCore s).a0 = 0 := rfl
@[simp] theorem resetCore_a1 (s : State) : (resetCore s).a1 = 0 := rfl
@[simp] theorem resetCore_a2 (s : State) : (resetCore s).a2 = 0 := rfl
@[simp] theorem resetCore_a3 (s : State) : (resetCore s).a3 = 0 := rfl
@[simp] theorem resetCore_res (s : State) : (resetCore s).res = 0 := rfl
@[simp] theorem resetCore_status (s : State) : (resetCore s).status = 0 := rfl
@[simp] theorem resetCore_errinfo (s : State) : (resetCore s).errinfo = 0 := rfl
@[simp] theorem resetCore_key (s : State) : (resetCore s).key = ⟨0, 0, 0, 0⟩ := rfl
@[simp] theorem resetCore_slots (s : State) : (resetCore s).slots = s.slots.map fun _ => .closed := rfl
@[simp] theorem resetCore_sources (s : State) : (resetCore s).sources = s.sources := rfl
@[simp] theorem resetCore_mem (s : State) : (resetCore s).mem = s.mem := rfl
@[simp] theorem resetCore_hostMem (s : State) : (resetCore s).hostMem = s.hostMem := rfl
@[simp] theorem resetCore_regBase (s : State) : (resetCore s).regBase = s.regBase := rfl
@[simp] theorem resetCore_host (s : State) : (resetCore s).host = s.host := rfl
@[simp] theorem resetCore_hostData (s : State) : (resetCore s).hostData = s.hostData := rfl
@[simp] theorem resetCore_draws (s : State) : (resetCore s).draws = s.draws := rfl

end Sys2Proof.Machine
end

