-- ==== Sys2Proof/Laws/Memory.lean ====
section
/-! SUPPORT. What the operations over host memory do: reads after writes, the canonical form, and the check of a host
range against HostMem. -/

namespace Sys2Proof.Machine

/-! ## The canonical form -/

theorem Memory.wfFrom_cons (lo a : Nat) (v : Byte) (m : Memory) :
    Memory.wfFrom lo ((a, v) :: m) = true ↔
      lo ≤ a ∧ a < 2 ^ 64 ∧ v ≠ Memory.unlisted ∧ Memory.wfFrom (a + 1) m = true := by
  simp [Memory.wfFrom, and_assoc]

theorem Memory.wfFrom_mono {lo lo' : Nat} {m : Memory} (hle : lo' ≤ lo) (h : Memory.wfFrom lo m = true) :
    Memory.wfFrom lo' m = true := by
  cases m with
  | nil => rfl
  | cons c m =>
    obtain ⟨a, v⟩ := c
    rw [Memory.wfFrom_cons] at h ⊢
    exact ⟨hle.trans h.1, h.2⟩

/-- Below the lowest listed address nothing is listed. -/
theorem Memory.byte_of_lt {lo a : Nat} {m : Memory} (h : Memory.wfFrom lo m = true) (ha : a < lo) :
    Memory.byte m a = Memory.unlisted := by
  induction m generalizing lo with
  | nil => rfl
  | cons c m ih =>
    obtain ⟨b, v⟩ := c
    rw [Memory.wfFrom_cons] at h
    have hne : a ≠ b := by omega
    rw [Memory.byte, if_neg hne]
    exact ih h.2.2.2 (by omega)

/-- A read after a write of one byte. -/
theorem Memory.byte_store {lo : Nat} {m : Memory} (h : Memory.wfFrom lo m = true) (a : Nat) (v : Byte) (x : Nat) :
    Memory.byte (Memory.store m a v) x = if x = a then v else Memory.byte m x := by
  induction m generalizing lo with
  | nil =>
    by_cases hv : v = Memory.unlisted <;> by_cases hx : x = a <;> simp [Memory.store, Memory.byte, hv, hx]
  | cons c m ih =>
    obtain ⟨b, w⟩ := c
    rw [Memory.wfFrom_cons] at h
    obtain ⟨-, -, hw, hm⟩ := h
    have below : ∀ y, y ≤ b → Memory.byte m y = Memory.unlisted := fun y hy => Memory.byte_of_lt hm (by omega)
    rw [Memory.store]
    split
    · rename_i hab
      have ha0 := below a (by omega)
      by_cases hv : v = Memory.unlisted <;> by_cases hx : x = a
      · subst hx; simp [hv, Memory.byte, ha0, show x ≠ b by omega]
      · simp [hv, hx]
      · simp [hv, Memory.byte, hx]
      · simp [hv, Memory.byte, hx]
    · split
      · rename_i hab
        subst hab
        have ha0 := below a (by omega)
        by_cases hv : v = Memory.unlisted <;> by_cases hx : x = a
        · subst hx; simp [hv, ha0]
        · simp [hv, Memory.byte, hx]
        · simp [hv, Memory.byte, hx]
        · simp [hv, Memory.byte, hx]
      · rename_i hab
        rw [Memory.byte, Memory.byte, ih hm]
        by_cases hx : x = b
        · simp [hx, show b ≠ a from fun h => hab h.symm]
        · simp [hx]

theorem Memory.wfFrom_store {lo : Nat} {m : Memory} (h : Memory.wfFrom lo m = true) {a : Nat} (hlo : lo ≤ a)
    (ha : a < 2 ^ 64) (v : Byte) : Memory.wfFrom lo (Memory.store m a v) = true := by
  induction m generalizing lo with
  | nil =>
    by_cases hv : v = Memory.unlisted
    · simp [Memory.store, hv, Memory.wfFrom]
    · simp [Memory.store, hv, Memory.wfFrom, hlo]; exact ha
  | cons c m ih =>
    obtain ⟨b, w⟩ := c
    have h' := h
    rw [Memory.wfFrom_cons] at h
    obtain ⟨hb, hb64, hw, hm⟩ := h
    rw [Memory.store]
    split
    · split
      · exact h'
      · rename_i hab hv
        rw [Memory.wfFrom_cons, Memory.wfFrom_cons]
        exact ⟨hlo, ha, hv, by omega, hb64, hw, hm⟩
    · split
      · rename_i hab
        subst hab
        split
        · exact Memory.wfFrom_mono (by omega) hm
        · rename_i hv
          rw [Memory.wfFrom_cons]
          exact ⟨hb, hb64, hv, hm⟩
      · rw [Memory.wfFrom_cons]
        exact ⟨hb, hb64, hw, ih hm (by omega)⟩

/-- Storing one byte keeps the canonical form. -/
theorem Memory.wf_store {m : Memory} (h : Memory.wf m = true) {a : Nat} (ha : a < 2 ^ 64) (v : Byte) : Memory.wf (Memory.store m a v) = true :=
  Memory.wfFrom_store h (Nat.zero_le a) ha v

/-- Storing bytes below 2^64 keeps the canonical form. -/
theorem Memory.wf_write {m : Memory} (h : Memory.wf m = true) {a : Nat} {bs : List Byte}
    (ha : bs ≠ [] → a + bs.length ≤ 2 ^ 64) : Memory.wf (Memory.write m a bs) = true := by
  induction bs generalizing m a with
  | nil => exact h
  | cons b bs ih =>
    have hle := ha (List.cons_ne_nil b bs)
    rw [List.length_cons] at hle
    exact ih (Memory.wf_store h (by omega) b) (fun _ => by omega)

/-- A read after a write of bytes: the stored bytes inside the range, the old ones outside. -/
theorem Memory.byte_write {m : Memory} (h : Memory.wf m = true) {a : Nat} {bs : List Byte}
    (ha : bs ≠ [] → a + bs.length ≤ 2 ^ 64) (x : Nat) :
    Memory.byte (Memory.write m a bs) x = if a ≤ x ∧ x < a + bs.length then bs.getD (x - a) 0 else Memory.byte m x := by
  induction bs generalizing m a with
  | nil => simp [Memory.write]
  | cons b bs ih =>
    have hle := ha (List.cons_ne_nil b bs)
    rw [List.length_cons] at hle
    rw [Memory.write, ih (Memory.wf_store h (by omega) b) (fun _ => by omega), Memory.byte_store h]
    by_cases hx : x = a
    · subst hx; simp
    · by_cases hin : a + 1 ≤ x ∧ x < a + 1 + bs.length
      · have : x - a = (x - (a + 1)) + 1 := by omega
        simp only [hin, and_self, if_true, List.length_cons, this, List.getD_cons_succ]
        rw [if_pos ⟨by omega, by omega⟩]
      · rw [if_neg hin, if_neg hx, if_neg (by simp only [List.length_cons]; omega)]

/-- Two memories in canonical form that read alike are the same list. -/
theorem Memory.ext_of_byte {lo : Nat} {m m' : Memory} (h : Memory.wfFrom lo m = true) (h' : Memory.wfFrom lo m' = true)
    (hb : ∀ x, Memory.byte m x = Memory.byte m' x) : m = m' := by
  induction m generalizing lo m' with
  | nil =>
    cases m' with
    | nil => rfl
    | cons c m' =>
      obtain ⟨a, v⟩ := c
      rw [Memory.wfFrom_cons] at h'
      have := hb a
      simp only [Memory.byte, if_true] at this
      exact absurd this.symm h'.2.2.1
  | cons c m ih =>
    obtain ⟨a, v⟩ := c
    have hc := h
    rw [Memory.wfFrom_cons] at h
    have ha := hb a
    rw [Memory.byte, if_pos rfl] at ha
    cases m' with
    | nil => exact absurd ha h.2.2.1
    | cons c' m' =>
      obtain ⟨a', v'⟩ := c'
      have hc' := h'
      rw [Memory.wfFrom_cons] at h'
      have ha' := hb a'
      rw [show Memory.byte ((a', v') :: m') a' = v' from if_pos rfl] at ha'
      have heq : a = a' := by
        rcases Nat.lt_trichotomy a a' with hlt | heq | hlt
        · rw [Memory.byte_of_lt (Memory.wfFrom_cons a' a' v' m' |>.2 ⟨le_rfl, h'.2⟩) hlt] at ha
          exact absurd ha h.2.2.1
        · exact heq
        · rw [Memory.byte_of_lt (Memory.wfFrom_cons a a v m |>.2 ⟨le_rfl, h.2⟩) hlt] at ha'
          exact absurd ha'.symm h'.2.2.1
      subst heq
      rw [Memory.byte, if_pos rfl] at ha
      subst ha
      have : m = m' := by
        refine ih h.2.2.2 h'.2.2.2 fun x => ?_
        by_cases hx : x = a
        · rw [Memory.byte_of_lt h.2.2.2 (by omega), Memory.byte_of_lt h'.2.2.2 (by omega)]
        · have := hb x
          rwa [Memory.byte, Memory.byte, if_neg hx, if_neg hx] at this
      rw [this]

/-! ## Ranges -/

@[simp] theorem length_memRead (s : State) (a n : Nat) : (memRead s a n).length = n := by simp [memRead]

/-- `MemRead(a, n)` holds the byte at a+i at place i. -/
theorem getD_memRead (s : State) (a : Nat) {n i : Nat} (h : i < n) :
    (memRead s a n).getD i 0 = Memory.byte s.mem (a + i) := by
  simp [memRead, List.getD_eq_getElem?_getD, List.getElem?_range h]

/-- A read after `MemWrite`. -/
theorem byte_memWrite {s : State} (h : Memory.wf s.mem = true) {a : Nat} {bs : List Byte}
    (ha : bs ≠ [] → a + bs.length ≤ 2 ^ 64) (x : Nat) :
    Memory.byte (memWrite s a bs).mem x
      = if a ≤ x ∧ x < a + bs.length then bs.getD (x - a) 0 else Memory.byte s.mem x :=
  Memory.byte_write h ha x

/-- Where a host byte is any value, the bytes outside the range are as they were. -/
theorem byte_memHavoc_outside {s : State} (h : Memory.wf s.mem = true) {a n : Nat} (ha : n ≠ 0 → a + n ≤ 2 ^ 64) {x : Nat}
    (hx : ¬(a ≤ x ∧ x < a + n)) : Memory.byte (memHavoc s a n).mem x = Memory.byte s.mem x := by
  rw [memHavoc_mem, Memory.byte_write h]
  · rw [if_neg (by simpa using hx)]
  · intro hne
    simpa using ha (by rintro rfl; exact hne rfl)

theorem wf_memHavoc {s : State} (h : Memory.wf s.mem = true) {a n : Nat} (ha : n ≠ 0 → a + n ≤ 2 ^ 64) :
    Memory.wf (memHavoc s a n).mem = true := by
  refine Memory.wf_write h fun hne => ?_
  simpa using ha (by rintro rfl; exact hne rfl)

/-! ## Admission by HostMem -/

theorem Region.contains_iff (r : Region) (a : Nat) : r.contains a = true ↔ r.base ≤ a ∧ a < r.base + r.size := by
  simp [Region.contains]

theorem admits_iff (rs : List Region) (a : Nat) : admits rs a = true ↔ ∃ r ∈ rs, r.contains a = true := by
  simp [admits]

/-- How many regions end above an address: what the search for a gap counts down. -/
def regionsAbove (rs : List Region) (a : Nat) : Nat := (rs.filter fun r => decide (a < r.base + r.size)).length

theorem regionsAbove_lt {rs : List Region} {a : Nat} {r : Region} (hr : r ∈ rs) (hc : r.contains a = true) :
    regionsAbove rs (r.base + r.size) < regionsAbove rs a := by
  rw [Region.contains_iff] at hc
  induction rs with
  | nil => cases hr
  | cons q rs ih =>
    have mono : ∀ rs : List Region, regionsAbove rs (r.base + r.size) ≤ regionsAbove rs a := by
      intro rs
      refine List.Sublist.length_le (List.monotone_filter_right rs fun q hq => ?_)
      simp only [decide_eq_true_eq] at hq ⊢
      omega
    rcases List.mem_cons.1 hr with rfl | hr'
    · have hlt := mono rs
      unfold regionsAbove at hlt ⊢
      rw [List.filter_cons_of_neg (by simp), List.filter_cons_of_pos (by simpa using hc.2), List.length_cons]
      omega
    · have hlt := ih hr'
      unfold regionsAbove at hlt ⊢
      rw [List.filter_cons, List.filter_cons]
      split <;> split <;> simp_all <;> omega

/-- The search answers the lowest address that is not admitted, if there is one. -/
theorem gapFrom_spec (rs : List Region) (fuel a stop : Nat) (hf : regionsAbove rs a ≤ fuel) :
    (gapFrom rs fuel a stop = none ∧ ∀ x, a ≤ x → x < stop → admits rs x = true) ∨
      ∃ g, gapFrom rs fuel a stop = some g ∧ a ≤ g ∧ g < stop ∧ admits rs g = false ∧
        ∀ x, a ≤ x → x < g → admits rs x = true := by
  induction fuel generalizing a with
  | zero =>
    have hno : admits rs a = false := by
      by_contra hc
      rw [Bool.not_eq_false, admits_iff] at hc
      obtain ⟨r, hr, hc⟩ := hc
      have := regionsAbove_lt hr hc
      omega
    rw [gapFrom]
    split
    · exact .inr ⟨a, rfl, le_rfl, ‹_›, hno, fun x _ _ => by omega⟩
    · exact .inl ⟨rfl, fun x _ _ => by omega⟩
  | succ fuel ih =>
    rw [gapFrom]
    split
    · split
      · rename_i hstop _ hfind
        refine .inr ⟨a, rfl, le_rfl, hstop, ?_, fun x _ _ => by omega⟩
        rw [List.find?_eq_none] at hfind
        by_contra hc
        rw [Bool.not_eq_false, admits_iff] at hc
        obtain ⟨r, hr, hc⟩ := hc
        exact hfind r hr hc
      · rename_i hstop r hfind
        have hr := List.mem_of_find?_eq_some hfind
        have hc : r.contains a = true := by simpa using List.find?_some hfind
        have hlt := regionsAbove_lt hr hc
        have hc' := (Region.contains_iff r a).1 hc
        have within : ∀ x, a ≤ x → x < r.base + r.size → admits rs x = true := fun x hx hx' =>
          (admits_iff rs x).2 ⟨r, hr, (Region.contains_iff r x).2 ⟨by omega, hx'⟩⟩
        rcases ih (r.base + r.size) (by omega) with ⟨h, hall⟩ | ⟨g, h, hge, hgs, hno, hall⟩
        · refine .inl ⟨h, fun x hx hx' => ?_⟩
          by_cases hin : x < r.base + r.size
          · exact within x hx hin
          · exact hall x (by omega) hx'
        · refine .inr ⟨g, h, by omega, hgs, hno, fun x hx hx' => ?_⟩
          by_cases hin : x < r.base + r.size
          · exact within x hx hin
          · exact hall x (by omega) hx'
    · exact .inl ⟨rfl, fun x _ _ => by omega⟩

/-- `firstGap` answers the lowest address of `[a, a+n)` that HostMem does not admit, if there is one (R51). -/
theorem firstGap_spec (rs : List Region) (a n : Nat) :
    (firstGap rs a n = none ∧ ∀ x, a ≤ x → x < a + n → admits rs x = true) ∨
      ∃ g, firstGap rs a n = some g ∧ a ≤ g ∧ g < a + n ∧ admits rs g = false ∧
        ∀ x, a ≤ x → x < g → admits rs x = true :=
  gapFrom_spec rs rs.length a (a + n) (List.length_filter_le _ _)

/-- What the check of a host range answers (R51, R247): it passes for an empty range and for one that lies below 2^64
and is admitted whole; else it names the start of a range that wraps, or the lowest address not admitted. -/
theorem checkRange_spec (s : State) (a n : Nat) :
    (checkRange s a n = .ok () ∧ (n = 0 ∨ a + n ≤ 2 ^ 64 ∧ ∀ x, a ≤ x → x < a + n → admits s.hostMem x = true)) ∨
      (checkRange s a n = .error (.hostAccess a) ∧ n ≠ 0 ∧ 2 ^ 64 < a + n) ∨
      ∃ g, checkRange s a n = .error (.hostAccess g) ∧ n ≠ 0 ∧ a + n ≤ 2 ^ 64 ∧ a ≤ g ∧ g < a + n ∧
        admits s.hostMem g = false ∧ ∀ x, a ≤ x → x < g → admits s.hostMem x = true := by
  unfold checkRange
  split
  · exact .inl ⟨rfl, .inl ‹_›⟩
  · split
    · exact .inr (.inl ⟨rfl, ‹_›, ‹_›⟩)
    · rename_i hn hw
      rcases firstGap_spec s.hostMem a n with ⟨h, hall⟩ | ⟨g, h, h1, h2, h3, h4⟩
      · rw [h]; exact .inl ⟨rfl, .inr ⟨by omega, hall⟩⟩
      · rw [h]; exact .inr (.inr ⟨g, rfl, hn, by omega, h1, h2, h3, h4⟩)

/-- An admitted range passes the check. -/
theorem checkRange_ok {s : State} {a n : Nat} (hle : a + n ≤ 2 ^ 64)
    (h : ∀ x, a ≤ x → x < a + n → admits s.hostMem x = true) : checkRange s a n = .ok () := by
  rcases checkRange_spec s a n with ⟨h', -⟩ | ⟨-, -, hw⟩ | ⟨g, -, -, -, h1, h2, h3, -⟩
  · exact h'
  · omega
  · rw [h g h1 h2] at h3; cases h3

/-- A range that passes the check lies below 2^64, unless it is empty. -/
theorem checkRange_below {s : State} {a n : Nat} {u : Unit} (h : checkRange s a n = .ok u) (hn : n ≠ 0) :
    a + n ≤ 2 ^ 64 := by
  rcases checkRange_spec s a n with ⟨-, h0 | ⟨hle, -⟩⟩ | ⟨h', -⟩ | ⟨g, h', -⟩
  · exact absurd h0 hn
  · exact hle
  · rw [h'] at h; cases h
  · rw [h'] at h; cases h

end Sys2Proof.Machine
end

