-- ==== Sys2Proof/Laws/Outcome.lean ====
section
/-! SUPPORT. The fields of STATUS as the operations on it leave them, and the two outcomes of a command. -/

namespace Sys2Proof.Machine

/-! ## The fields of STATUS (R24) -/

section Pack
variable (err keyv : Bool) (detail : BitVec 8) (phase : BitVec 4) (cause : BitVec 8)

@[simp] theorem statusCause_packStatus : statusCause (packStatus err keyv detail phase cause) = cause := by
  apply BitVec.eq_of_getLsbD_eq
  intro i hi
  interval_cases i <;> simp [statusCause, packStatus, placeField]

@[simp] theorem statusPhase_packStatus : statusPhase (packStatus err keyv detail phase cause) = phase := by
  apply BitVec.eq_of_getLsbD_eq
  intro i hi
  interval_cases i <;> simp [statusPhase, packStatus, placeField]

@[simp] theorem statusDetail_packStatus : statusDetail (packStatus err keyv detail phase cause) = detail := by
  apply BitVec.eq_of_getLsbD_eq
  intro i hi
  interval_cases i <;> simp [statusDetail, packStatus, placeField]

@[simp] theorem statusErr_packStatus : statusErr (packStatus err keyv detail phase cause) = err := by
  simp [statusErr, packStatus, placeField]

@[simp] theorem statusKeyv_packStatus : statusKeyv (packStatus err keyv detail phase cause) = keyv := by
  simp [statusKeyv, packStatus, placeField]

@[simp] theorem statusReservedClear_packStatus :
    statusReservedClear (packStatus err keyv detail phase cause) = true := by
  unfold statusReservedClear
  rw [Bool.and_eq_true, beq_iff_eq, beq_iff_eq]
  constructor <;>
    (apply BitVec.eq_of_getLsbD_eq
     intro i hi
     interval_cases i <;> simp [packStatus, placeField])

end Pack

@[simp] theorem statusErr_statusSetKeyv (st : Word) : statusErr (statusSetKeyv st) = statusErr st := by
  simp [statusErr, statusSetKeyv]

@[simp] theorem statusKeyv_statusSetKeyv (st : Word) : statusKeyv (statusSetKeyv st) = true := by
  simp [statusKeyv, statusSetKeyv]

@[simp] theorem statusErr_statusClearErr (st : Word) : statusErr (statusClearErr st) = false := by
  simp [statusErr, statusClearErr]

@[simp] theorem statusKeyv_statusClearErr (st : Word) : statusKeyv (statusClearErr st) = statusKeyv st := by
  simp [statusKeyv, statusClearErr]

/-- CAUSE is never 0 after a failure (R241). -/
theorem Failure.cause_ne_zero (f : Failure) : f.cause ≠ 0 := by cases f <;> simp [Failure.cause]

/-- CAUSE is one of the codes of R241. -/
theorem Failure.cause_mem (f : Failure) :
    f.cause ∈ ([0x00, 0x01, 0x02, 0x03, 0x80, 0x81, 0x82, 0x83, 0x84] : List (BitVec 8)) := by
  cases f <;> simp [Failure.cause]

/-- PHASE is 0 for every cause but UnderlyingIOFailure (R240). -/
theorem Failure.phase_eq_zero {f : Failure} (h : f.cause ≠ 0x03) : f.phase = 0 := by
  cases f <;> first | rfl | exact absurd rfl h

/-- DETAIL and the source of STATUS after a failure. -/
theorem raise_status_fields (s : State) (f : Failure) :
    statusCause (raise s f).status = f.cause ∧ statusPhase (raise s f).status = f.phase ∧
      statusDetail (raise s f).status = f.detail ∧ statusErr (raise s f).status = true ∧
      statusKeyv (raise s f).status = statusKeyv s.status ∧ statusReservedClear (raise s f).status = true := by
  simp [statusOnFailure]

/-- STATUS after a success. -/
theorem succeed_status_fields (s : State) (r : U64) :
    statusCause (succeed s r).status = 0 ∧ statusPhase (succeed s r).status = 0 ∧
      statusDetail (succeed s r).status = 0 ∧ statusErr (succeed s r).status = statusErr s.status ∧
      statusKeyv (succeed s r).status = statusKeyv s.status ∧ statusReservedClear (succeed s r).status = true := by
  simp [statusOnSuccess]

/-- A failing command leaves STATUS, ERRINFO and RES as R23 to R26 and R241 say. -/
theorem statusGood_raise (s : State) (f : Failure) : StatusGood (raise s f) := by
  obtain ⟨hc, hp, -, he, -, hr⟩ := raise_status_fields s f
  refine ⟨hr, hc ▸ f.cause_mem, fun h => ?_, fun _ => ⟨he, rfl⟩, fun h => ?_⟩
  · rw [hp]; exact Failure.phase_eq_zero (hc ▸ h)
  · exact absurd (hc ▸ h) f.cause_ne_zero

/-- A successful command leaves STATUS, ERRINFO and RES as R23 to R26 and R241 say. -/
theorem statusGood_succeed (s : State) (r : U64) : StatusGood (succeed s r) := by
  obtain ⟨hc, hp, hd, -, -, hr⟩ := succeed_status_fields s r
  exact ⟨hr, by rw [hc]; decide, fun _ => hp, fun h => absurd hc h, fun _ => ⟨hd, rfl⟩⟩

/-! ## A command as its checks and its effect -/

/-- What a command answers: the failure of its checks, or its effect. -/
theorem command_spec {α : Type} (s : State) (checks : Except Failure α) (effect : α → Result) :
    (∃ f, checks = .error f ∧ command s checks effect = .next (raise s f)) ∨
      ∃ x, checks = .ok x ∧ command s checks effect = effect x := by
  cases checks with
  | error f => exact .inl ⟨f, rfl, rfl⟩
  | ok x => exact .inr ⟨x, rfl, rfl⟩

@[simp] theorem command_error {α : Type} (s : State) (f : Failure) (effect : α → Result) :
    command s (.error f) effect = .next (raise s f) := rfl

@[simp] theorem command_ok {α : Type} (s : State) (x : α) (effect : α → Result) :
    command s (.ok x) effect = effect x := rfl

end Sys2Proof.Machine
end

