-- ==== Sys2Proof/Laws/Operands.lean ====
section
/-! SUPPORT. What the operand checks answer: when each passes, and the failure of each in the order of its rule. -/

namespace Sys2Proof.Machine

/-! ## Checks in sequence -/

@[simp] theorem require_true (f : Failure) : require true f = .ok () := rfl

@[simp] theorem require_false (f : Failure) : require false f = .error f := rfl

theorem bind_ok {α β : Type} {x : Except Failure α} {k : α → Except Failure β} {b : β}
    (h : (x >>= k) = .ok b) : ∃ a, x = .ok a ∧ k a = .ok b := by
  cases x with
  | error f => cases h
  | ok a => exact ⟨a, rfl, h⟩

theorem bind_error {α β : Type} {x : Except Failure α} {k : α → Except Failure β} {f : Failure}
    (h : (x >>= k) = .error f) : x = .error f ∨ ∃ a, x = .ok a ∧ k a = .error f := by
  cases x with
  | error g => left; injection h with h; rw [h]
  | ok a => exact .inr ⟨a, rfl, h⟩

/-! ## BUF and BUFN (R75) -/

/-- R75 where every check passes. -/
theorem bufSpan_ok {s : State} {count : Int} (h : BufValid s count) :
    bufSpan s count = .ok ⟨s.a0.toNat + s.a2.toNat, count.toNat⟩ := by
  obtain ⟨h1, h2, h3, h4, h5, h6⟩ := h
  unfold bufSpan
  rw [if_neg (by omega), if_neg (by omega), if_neg (by omega), if_neg (by omega), if_neg (by omega)]

/-- The operand of R75 passes only where every check does. -/
theorem bufSpan_ok_inv {s : State} {count : Int} {r : Span} (h : bufSpan s count = .ok r) :
    BufValid s count ∧ r = ⟨s.a0.toNat + s.a2.toNat, count.toNat⟩ := by
  unfold bufSpan at h
  split at h
  · cases h
  · split at h
    · cases h
    · split at h
      · cases h
      · split at h
        · cases h
        · split at h
          · cases h
          · injection h with h
            exact ⟨⟨by omega, by omega, by omega, by omega, by omega, by omega⟩, h.symm⟩

/-- R75's first failing check is an InvalidArgument. -/
theorem bufSpan_error {s : State} {count : Int} {f : Failure} (h : bufSpan s count = .error f) :
    ∃ d info, f = .invalidArgument d info := by
  unfold bufSpan at h
  repeat' split at h
  all_goals first | cases h; exact ⟨_, _, rfl⟩ | cases h

/-- What an admitted operand of form BUF or BUFN is: valid, its range as R75 gives it, and checked against HostMem. -/
theorem admittedSpan_ok_inv {s : State} {count : Int} {r : Span} (h : admittedSpan s count = .ok r) :
    BufValid s count ∧ r = ⟨s.a0.toNat + s.a2.toNat, count.toNat⟩ ∧ checkRange s r.addr r.count = .ok () := by
  obtain ⟨r', hr, h⟩ := bind_ok h
  obtain ⟨u, hu, h⟩ := bind_ok h
  injection h with h
  subst h
  exact ⟨(bufSpan_ok_inv hr).1, (bufSpan_ok_inv hr).2, hu⟩

theorem admittedSpan_ok {s : State} {count : Int} (h : BufValid s count)
    (hc : checkRange s (s.a0.toNat + s.a2.toNat) count.toNat = .ok ()) :
    admittedSpan s count = .ok ⟨s.a0.toNat + s.a2.toNat, count.toNat⟩ := by
  unfold admittedSpan
  rw [bufSpan_ok h]
  simp [bind, Except.bind, hc, pure, Except.pure]

/-- The range of an admitted operand lies below 2^64, unless it is empty. -/
theorem admittedSpan_below {s : State} {count : Int} {r : Span} (h : admittedSpan s count = .ok r)
    (hn : r.count ≠ 0) : r.addr + r.count ≤ 2 ^ 64 :=
  checkRange_below (admittedSpan_ok_inv h).2.2 hn

/-- A cipher operand of form BUF passes only with a key loaded. -/
theorem cipherOperand_ok_inv {s : State} {r : Span} (h : cipherOperand s = .ok r) :
    statusKeyv s.status = true ∧ bufOperand s = .ok r := by
  obtain ⟨u, hu, h⟩ := bind_ok h
  refine ⟨?_, h⟩
  cases hk : statusKeyv s.status
  · rw [hk] at hu; cases hu
  · rfl

/-- A cipher operand of form BUFN passes only with a key loaded and N in its range. -/
theorem cipherOperandN_ok_inv {s : State} {least n : Nat} {r : Span} (h : cipherOperandN s least n = .ok r) :
    statusKeyv s.status = true ∧ least ≤ n ∧ n ≤ 16 ∧ admittedSpan s (4 * (n : Int)) = .ok r := by
  obtain ⟨u, hu, h⟩ := bind_ok h
  obtain ⟨u', hu', h⟩ := bind_ok h
  refine ⟨?_, ?_⟩
  · cases hk : statusKeyv s.status
    · rw [hk] at hu; cases hu
    · rfl
  · by_cases hn : least ≤ n ∧ n ≤ 16
    · exact ⟨hn.1, hn.2, h⟩
    · rw [decide_eq_false hn] at hu'; cases hu'

/-! ## Slots (R246) -/

/-- `require_slot(Aligned)` passes for an Aligned slot and for no other. -/
theorem alignedSlot_ok_iff (s : State) (slot : Nat) (f : Aligned) :
    alignedSlot s slot = .ok f ↔ s.slots[slot]? = some (.aligned f) := by
  unfold alignedSlot slotOperand
  cases h : s.slots[slot]? with
  | none => simp [bind, Except.bind]
  | some v => cases v <;> simp [bind, Except.bind]

/-- `require_slot(Seq)` passes for the two sequential kinds and for no other. -/
theorem seqSlot_ok_iff (s : State) (slot : Nat) (kind : SeqKind) (f : Sequential) :
    seqSlot s slot = .ok (kind, f) ↔
      s.slots[slot]? = some (match kind with | .blockTea => .seqBlockTea f | .variableBlockTea => .seqVbt f) := by
  unfold seqSlot slotOperand
  cases h : s.slots[slot]? with
  | none => simp [bind, Except.bind]
  | some v => cases v <;> cases kind <;> simp [bind, Except.bind]

/-- An OPEN command passes its slot check on a Closed slot and on no other. -/
theorem closedSlot_ok_iff (s : State) (slot : Nat) :
    closedSlot s slot = .ok () ↔ s.slots[slot]? = some .closed := by
  unfold closedSlot slotOperand
  cases h : s.slots[slot]? with
  | none => simp [bind, Except.bind]
  | some v => cases v <;> simp [bind, Except.bind]

/-- A slot check fails with SlotState (R246). -/
theorem slotOperand_error {s : State} {slot : Nat} {f : Failure} (h : slotOperand s slot = .error f) :
    f = .slotState .slotRange slot ∧ s.slots.length ≤ slot := by
  unfold slotOperand at h
  split at h
  · rename_i hn
    injection h with h
    exact ⟨h.symm, List.getElem?_eq_none_iff.1 hn⟩
  · cases h

/-! ## Source handles (R242) -/

/-- The source operand passes exactly for an attached handle. -/
theorem sourceOperand_ok_iff (s : State) (src : Source) :
    sourceOperand s = .ok src ↔ sourceOf s s.a0.toNat = some src := by
  unfold sourceOperand
  cases h : sourceOf s s.a0.toNat <;> simp

theorem sourceOperand_error {s : State} (h : sourceOf s s.a0.toNat = none) :
    sourceOperand s = .error (.invalidArgument .sourceHandle s.a0) := by
  unfold sourceOperand
  rw [h]

/-- The offset operand passes exactly for a non-negative A1. -/
theorem offsetOperand_ok {s : State} (h : 0 ≤ s.a1.toInt) : offsetOperand s = .ok s.a1 := by
  simp [offsetOperand, h, bind, Except.bind, pure, Except.pure]

theorem offsetOperand_ok_inv {s : State} {off : U64} (h : offsetOperand s = .ok off) :
    off = s.a1 ∧ 0 ≤ s.a1.toInt := by
  obtain ⟨u, hu, h⟩ := bind_ok h
  injection h with h
  refine ⟨h.symm, ?_⟩
  by_contra hn
  rw [decide_eq_false hn] at hu
  cases hu

/-- The key buffer of an admitted range (R51). -/
theorem keyBuffer_ok {s : State} {addr : U64} (h : checkRange s addr.toNat 16 = .ok ()) :
    keyBuffer s addr = .ok (keyOfBytes (memRead s addr.toNat 16)) := by
  simp [keyBuffer, h, bind, Except.bind, pure, Except.pure]

end Sys2Proof.Machine
end

