-- ==== Sys2Proof/Laws/Sources.lean ====
section
/-! SUPPORT. What the operations over the sources do: a cursor moves, and nothing else of any source changes. -/

namespace Sys2Proof.Machine

theorem sourceOf_eq_some {s : State} {h : Nat} {src : Source} : sourceOf s h = some src ↔ s.sources[h]? = some (some src) := by
  unfold sourceOf
  cases hs : s.sources[h]? with
  | none => simp
  | some v => simp

/-- The sources after a seek: the cursor of an attached h is set. -/
theorem sourceOf_srcSeek (s : State) (h : Nat) (c : U64) (j : Nat) :
    sourceOf (srcSeek s h c) j
      = if j = h then (sourceOf s h).map (fun src => { src with cursor := c }) else sourceOf s j := by
  unfold sourceOf
  rw [srcSeek_sources, List.getElem?_modify]
  by_cases hj : j = h
  · subst hj
    cases hs : s.sources[j]? with
    | none => simp
    | some v => simp
  · simp [hj, Ne.symm hj]

/-- A seek keeps every launch parameter (R35). -/
theorem sameLaunch_srcSeek (s : State) (h : Nat) (c : U64) : SameLaunch s (srcSeek s h c) where
  slots := rfl
  sources := by
    rw [srcSeek_sources]
    apply List.ext_getElem?
    intro j
    rw [List.getElem?_map, List.getElem?_map, List.getElem?_modify]
    by_cases hj : h = j
    · subst hj
      cases s.sources[h]? with
      | none => rfl
      | some v => cases v <;> simp
    · simp [hj]
  hostMem := rfl
  regBase := rfl

@[simp] theorem length_srcSeek_sources (s : State) (h : Nat) (c : U64) :
    (srcSeek s h c).sources.length = s.sources.length := by
  simp

/-- The bytes a delivery holds (R63): `min(n, max(0, srclen - off))` of them. -/
theorem length_delivery (src : Source) (off n : Nat) :
    (delivery src off n).length = min n (src.data.length - off) := by
  simp [delivery]

/-- A delivery that needs no byte past the end is whole. -/
theorem length_delivery_of_le {src : Source} {off n : Nat} (h : off + n ≤ src.data.length) :
    (delivery src off n).length = n := by
  rw [length_delivery]; omega

/-- What a source read does (R63). It fails only where SRC_MAY_FAIL holds, and then the cursor takes any value; else it
delivers and sets the cursor after the delivery. It draws once and changes no other state. -/
theorem srcRead_spec (s : State) (h : Nat) (src : Source) (off n : Nat) :
    (srcRead s h src off n = (srcCursorDraw s h, none) ∧ src.mayFail = true) ∨
      srcRead s h src off n =
        ({ srcSeek s h (BitVec.ofNat 64 (off + (delivery src off n).length)) with draws := s.draws + 1 },
          some (delivery src off n)) := by
  unfold srcRead
  split
  · rename_i hf
    exact .inl ⟨rfl, (Bool.and_eq_true_iff.1 hf).1⟩
  · exact .inr rfl

/-- A source that may not fail delivers (R63). -/
theorem srcRead_delivers {s : State} {h : Nat} {src : Source} (hf : src.mayFail = false) (off n : Nat) :
    srcRead s h src off n =
      ({ srcSeek s h (BitVec.ofNat 64 (off + (delivery src off n).length)) with draws := s.draws + 1 },
        some (delivery src off n)) := by
  simp [srcRead, hf]

end Sys2Proof.Machine
end

