-- ==== Sys2Proof/Laws/Commands.lean ====
section
/-! SUPPORT. What the two outcomes of a command leave, key buffers, and a command over an operand range in place. -/

namespace Sys2Proof.Machine

/-! ## What no operation of a command changes -/

theorem SameInputs.refl (s : State) : SameInputs s s := ⟨rfl, rfl, rfl, rfl, rfl, rfl, rfl, rfl, rfl⟩

theorem SameInputs.trans {s t u : State} (h1 : SameInputs s t) (h2 : SameInputs t u) : SameInputs s u :=
  ⟨h2.cmd.trans h1.cmd, h2.a0.trans h1.a0, h2.a1.trans h1.a1, h2.a2.trans h1.a2, h2.a3.trans h1.a3,
    h2.hostMem.trans h1.hostMem, h2.regBase.trans h1.regBase, h2.host.trans h1.host, h2.hostData.trans h1.hostData⟩

theorem sameInputs_succeed (s : State) (r : U64) : SameInputs s (succeed s r) :=
  ⟨rfl, rfl, rfl, rfl, rfl, rfl, rfl, rfl, rfl⟩

theorem sameInputs_raise (s : State) (f : Failure) : SameInputs s (raise s f) :=
  ⟨rfl, rfl, rfl, rfl, rfl, rfl, rfl, rfl, rfl⟩

theorem sameInputs_memWrite (s : State) (a : Nat) (bs : List Byte) : SameInputs s (memWrite s a bs) :=
  ⟨rfl, rfl, rfl, rfl, rfl, rfl, rfl, rfl, rfl⟩

theorem sameInputs_memHavoc (s : State) (a n : Nat) : SameInputs s (memHavoc s a n) :=
  ⟨rfl, rfl, rfl, rfl, rfl, rfl, rfl, rfl, rfl⟩

theorem sameInputs_srcSeek (s : State) (h : Nat) (c : U64) : SameInputs s (srcSeek s h c) :=
  ⟨rfl, rfl, rfl, rfl, rfl, rfl, rfl, rfl, rfl⟩

theorem sameInputs_srcCursorDraw (s : State) (h : Nat) : SameInputs s (srcCursorDraw s h) :=
  ⟨rfl, rfl, rfl, rfl, rfl, rfl, rfl, rfl, rfl⟩

theorem sameInputs_setSlot (s : State) (slot : Nat) (v : Slot) : SameInputs s (setSlot s slot v) :=
  ⟨rfl, rfl, rfl, rfl, rfl, rfl, rfl, rfl, rfl⟩

/-! ## The two outcomes -/

/-- A failure changes nothing but STATUS, ERRINFO and RES (R240, R251). -/
theorem onlyReports_raise (s : State) (f : Failure) : OnlyReports s (raise s f) where
  inputs := ⟨rfl, rfl, rfl, rfl, rfl, rfl, rfl, rfl, rfl⟩
  keyv := (raise_status_fields s f).2.2.2.2.1
  key := rfl
  slots := rfl
  sources := rfl
  memory := fun _ => rfl

/-- A success alone changes nothing but STATUS, ERRINFO and RES (R240). -/
theorem onlyReports_succeed (s : State) (r : U64) : OnlyReports s (succeed s r) where
  inputs := ⟨rfl, rfl, rfl, rfl, rfl, rfl, rfl, rfl, rfl⟩
  keyv := (succeed_status_fields s r).2.2.2.2.1
  key := rfl
  slots := rfl
  sources := rfl
  memory := fun _ => rfl

/-- What `raise` reports (R240). -/
theorem fails_raise (s : State) (f : Failure) : Fails (raise s f) f.cause f.phase f.detail (f.info s.draws) :=
  ⟨rfl, (raise_status_fields s f).1, (raise_status_fields s f).2.1, (raise_status_fields s f).2.2.1,
    (raise_status_fields s f).2.2.2.1, rfl⟩

/-- What `succeed` reports (R240). -/
theorem succeeds_succeed (s : State) (r : U64) : Succeeds (succeed s r) r :=
  ⟨rfl, (succeed_status_fields s r).1, (succeed_status_fields s r).2.1, (succeed_status_fields s r).2.2.1, rfl⟩

theorem flagsKept_succeed (s : State) (r : U64) : FlagsKept s (succeed s r) :=
  ⟨(succeed_status_fields s r).2.2.2.1, (succeed_status_fields s r).2.2.2.2.1⟩

/-- A command whose answer is `raise` of a failure with PHASE 0 fails cleanly. -/
theorem failsCleanly_of_raise {i : Instr} {s : State} {f : Failure} (h : exec i s = .next (raise s f))
    (hp : f.phase = 0) : FailsCleanly i s f.cause f.detail (f.info s.draws) :=
  ⟨_, h, hp ▸ fails_raise s f, onlyReports_raise s f⟩

/-! ## Ranges and key buffers -/

/-- The check of R51 passes exactly for an admitted range. -/
theorem checkRange_of_admitted {s : State} {a n : Nat} (h : Admitted s a n) : checkRange s a n = .ok () := by
  rcases h with rfl | ⟨hle, hadm⟩
  · rfl
  · exact checkRange_ok hle hadm

/-- `KeyAt` says what the key of a key buffer is. -/
theorem keyOfBytes_memRead {s : State} {a : Nat} {K : Key} (h : KeyAt s a K) : keyOfBytes (memRead s a 16) = K := by
  have hb : ∀ i, i < 16 → byteAt (memRead s a 16) i = Memory.byte s.mem (a + i) := fun i hi => getD_memRead s a hi
  have h0 := h 0 (by omega)
  have h1 := h 1 (by omega)
  have h2 := h 2 (by omega)
  have h3 := h 3 (by omega)
  simp only [Key.word, Nat.add_assoc] at h0 h1 h2 h3
  cases K
  simp only at h0 h1 h2 h3
  subst h0 h1 h2 h3
  simp [keyOfBytes, hb]

/-- The key buffer of an admitted range holds the key `KeyAt` names. -/
theorem keyBuffer_of_admitted {s : State} {addr : U64} {K : Key} (h : Admitted s addr.toNat 16)
    (hk : KeyAt s addr.toNat K) : keyBuffer s addr = .ok K := by
  rw [keyBuffer_ok (checkRange_of_admitted h), keyOfBytes_memRead hk]

/-! ## A command in place -/

/-- A write of n bytes over a range below 2^64, and the bytes read back. -/
theorem memRead_memWrite {s : State} (h : Memory.wf s.mem = true) {a : Nat} {bs : List Byte}
    (ha : bs ≠ [] → a + bs.length ≤ 2 ^ 64) : memRead (memWrite s a bs) a bs.length = bs := by
  apply List.ext_getElem (by simp)
  intro i h1 h2
  simp only [memRead, List.getElem_map, List.getElem_range]
  rw [byte_memWrite h ha, if_pos (by omega)]
  simp [h2]

theorem sameMemoryOutside_memWrite {s : State} (h : Memory.wf s.mem = true) {a : Nat} {bs : List Byte}
    (ha : bs ≠ [] → a + bs.length ≤ 2 ^ 64) : SameMemoryOutside s (memWrite s a bs) a bs.length := by
  intro x hx
  rw [byte_memWrite h ha, if_neg hx]

/-- What a command in place does to an admitted range (R59). -/
theorem inPlace_done {s : State} (h : Memory.wf s.mem = true) {f : List Byte → List Byte} {a n : Nat}
    (ha : n = 0 ∨ a + n ≤ 2 ^ 64) (hf : ∀ x, x.length = n → (f x).length = n) :
    ∃ t, inPlace s f ⟨a, n⟩ = .next t ∧ InPlaceDone s t a n f := by
  have hl : (f (memRead s a n)).length = n := hf _ (by simp)
  have hb : f (memRead s a n) ≠ [] → a + (f (memRead s a n)).length ≤ 2 ^ 64 := by
    intro hne
    have : n ≠ 0 := by
      rintro rfl
      exact hne (List.length_eq_zero_iff.1 hl)
    rw [hl]
    omega
  refine ⟨_, rfl, succeeds_succeed _ _, flagsKept_succeed _ _, ⟨rfl, rfl, rfl, rfl, rfl, rfl, rfl, rfl, rfl⟩, rfl, rfl, rfl, ?_, ?_⟩
  · have := memRead_memWrite h hb
    rw [hl] at this
    exact this
  · have := sameMemoryOutside_memWrite h hb
    rw [hl] at this
    exact this

/-- A cipher command of form BUF whose operand passes its checks. -/
theorem cipherOperand_of_valid {s : State} (hk : statusKeyv s.status = true) (hb : BufValid s s.a3.toInt)
    (ha : Admitted s (bufStart s) s.a3.toNat) : cipherOperand s = .ok ⟨bufStart s, s.a3.toNat⟩ := by
  have hn : s.a3.toInt.toNat = s.a3.toNat := by
    have := hb.2.1
    rw [BitVec.toInt_eq_toNat_cond] at this ⊢
    split at this <;> rename_i h2 <;> simp [h2]
    omega
  have := admittedSpan_ok hb (by rw [hn]; exact checkRange_of_admitted ha)
  rw [hn] at this
  simp only [cipherOperand, hk, bind, Except.bind, require_true]
  exact this

end Sys2Proof.Machine
end

