-- ==== Sys2Proof/Laws/Streams.lean ====
section
/-! SUPPORT. The source reads of ABS.READ: what running them does to the state, and that the bytes they deliver are a
slice of the content of the stream (spec/43_aligned_block_stream.md rules R170, R171, R174, R175). -/

namespace Sys2Proof.Machine

/-! ## The state after source reads -/

/-- Two seeks of one source: the second one stands. -/
theorem srcSeek_srcSeek (s : State) (h : Nat) (c c' : U64) : srcSeek (srcSeek s h c) h c' = srcSeek s h c' := by
  simp only [srcSeek, List.modify_modify_eq]
  congr 1
  apply congrArg (fun g => s.sources.modify h g)
  funext o
  cases o <;> rfl

/-- What source reads of handle h leave: the state as it was, but for the draws and the cursor of h. -/
structure OnlyCursor (s t : State) (h : Nat) : Prop where
  inputs : SameInputs s t
  status : t.status = s.status
  key : t.key = s.key
  slots : t.slots = s.slots
  mem : t.mem = s.mem
  sources : t.sources = s.sources ∨ ∃ c, t.sources = (srcSeek s h c).sources

theorem OnlyCursor.refl (s : State) (h : Nat) : OnlyCursor s s h :=
  ⟨⟨rfl, rfl, rfl, rfl, rfl, rfl, rfl, rfl, rfl⟩, rfl, rfl, rfl, rfl, .inl rfl⟩

/-- A seek's sources depend on the sources alone. -/
theorem srcSeek_sources_congr {s t : State} (hs : t.sources = s.sources) (h : Nat) (c : U64) :
    (srcSeek t h c).sources = (srcSeek s h c).sources := by rw [srcSeek_sources, srcSeek_sources, hs]

/-- A seek after them sets the cursor alone. -/
theorem OnlyCursor.seek {s t : State} {h : Nat} (h1 : OnlyCursor s t h) (c : U64) :
    (srcSeek t h c).sources = (srcSeek s h c).sources := by
  rcases h1.sources with hs | ⟨c', hs⟩
  · exact srcSeek_sources_congr hs h c
  · exact (srcSeek_sources_congr (s := srcSeek s h c') hs h c).trans (congrArg State.sources (srcSeek_srcSeek s h c' c))

theorem OnlyCursor.trans {s t u : State} {h : Nat} (h1 : OnlyCursor s t h) (h2 : OnlyCursor t u h) :
    OnlyCursor s u h where
  inputs := h1.inputs.trans h2.inputs
  status := h2.status.trans h1.status
  key := h2.key.trans h1.key
  slots := h2.slots.trans h1.slots
  mem := h2.mem.trans h1.mem
  sources := by
    rcases h2.sources with hs | ⟨c, hs⟩
    · rcases h1.sources with hs' | ⟨c, hs'⟩
      · exact .inl (hs.trans hs')
      · exact .inr ⟨c, hs.trans hs'⟩
    · exact .inr ⟨c, hs.trans (h1.seek c)⟩

theorem onlyCursor_srcRead (s : State) (h : Nat) (src : Source) (off n : Nat) :
    OnlyCursor s (srcRead s h src off n).1 h := by
  rcases srcRead_spec s h src off n with ⟨he, -⟩ | he
  · rw [he]
    exact ⟨⟨rfl, rfl, rfl, rfl, rfl, rfl, rfl, rfl, rfl⟩, rfl, rfl, rfl, rfl, .inr ⟨_, rfl⟩⟩
  · rw [he]
    exact ⟨⟨rfl, rfl, rfl, rfl, rfl, rfl, rfl, rfl, rfl⟩, rfl, rfl, rfl, rfl, .inr ⟨_, rfl⟩⟩

/-- Running source reads changes the draws and the cursor of the stream's source alone. -/
theorem onlyCursor_runReads (f : Aligned) (src : Source) (plan : List ReadStep) (s : State) :
    OnlyCursor s (runReads f src plan s).1 f.src := by
  induction plan generalizing s with
  | nil => exact .refl s _
  | cons r rest ih =>
    have h1 := onlyCursor_srcRead s f.src src (f.origin.toNat + r.first) r.size
    simp only [runReads]
    generalize srcRead s f.src src (f.origin.toNat + r.first) r.size = p at h1 ⊢
    obtain ⟨s1, raw⟩ := p
    cases raw with
    | none => exact h1
    | some raw =>
      simp only
      split
      · exact h1
      · have h2 := ih s1
        generalize runReads f src rest s1 = q at h2 ⊢
        obtain ⟨s2, out⟩ := q
        cases out with
        | error e => exact h1.trans h2
        | ok out => exact h1.trans h2

/-- How the first source read of a run ends where the source does not fail. -/
theorem runReads_cons {f : Aligned} {src : Source} (hf : src.mayFail = false) (r : ReadStep) (rest : List ReadStep)
    (s : State) :
    ∃ s1, runReads f src (r :: rest) s =
      if src.data.length < f.origin.toNat + r.first + r.size ∧ r.size ≠ 0 then
        (s1, .error (.underlyingIO r.phase .short
          (BitVec.ofNat 64 (max (f.origin.toNat + r.first) src.data.length))))
      else
        match runReads f src rest s1 with
        | (s2, .error e) => (s2, .error e)
        | (s2, .ok out) =>
          (s2, .ok (((vbtDec f.key (delivery src (f.origin.toNat + r.first) r.size)).drop r.skip).take r.keep ++ out)) := by
  refine ⟨(srcRead s f.src src (f.origin.toNat + r.first) r.size).1, ?_⟩
  rw [runReads, srcRead_delivers hf]
  simp only [length_delivery]
  by_cases h : src.data.length < f.origin.toNat + r.first + r.size ∧ r.size ≠ 0
  · have he : max (f.origin.toNat + r.first) src.data.length
        = f.origin.toNat + r.first + min r.size (src.data.length - (f.origin.toNat + r.first)) := by omega
    rw [he, if_pos h, if_pos (by omega)]
  · rw [if_neg h]
    exact if_neg (by omega)

/-- A failing run fails with UnderlyingIOFailure: DEVICE, where the source may fail, at the start of one of the reads
with its phase, or SHORT. -/
theorem runReads_error {f : Aligned} {src : Source} {plan : List ReadStep} {s : State} {e : Failure}
    (h : (runReads f src plan s).2 = .error e) :
    (src.mayFail = true ∧ ∃ r ∈ plan, e = .underlyingIO r.phase .device (BitVec.ofNat 64 (f.origin.toNat + r.first))) ∨
      ∃ r ∈ plan, ∃ off, e = .underlyingIO r.phase .short off := by
  induction plan generalizing s with
  | nil => cases h
  | cons r rest ih =>
    simp only [runReads] at h
    rcases srcRead_spec s f.src src (f.origin.toNat + r.first) r.size with ⟨he, hm⟩ | he
    · rw [he] at h
      injection h with h
      exact .inl ⟨hm, r, by simp, h.symm⟩
    · rw [he] at h
      simp only at h
      split at h
      · injection h with h
        exact .inr ⟨r, by simp, _, h.symm⟩
      · generalize hq : runReads f src rest _ = q at h
        obtain ⟨s2, out⟩ := q
        cases out with
        | ok out => cases h
        | error e' =>
          injection h with h
          subst h
          rcases ih (congrArg Prod.snd hq) with ⟨hm, r', hr', he'⟩ | ⟨r', hr', off, he'⟩
          · exact .inl ⟨hm, r', by simp [hr'], he'⟩
          · exact .inr ⟨r', by simp [hr'], off, he'⟩

/-! ## Slices of the content -/

/-- Full blocks decrypt apart from what follows them (R153). -/
theorem vbtBlocks_append {fw : List Word → List Word} {fb : List Byte → List Byte} (h0 : fb [] = []) (full : Nat)
    (x y : List Byte) (hx : x.length = 64 * full) (k : Nat) :
    vbtBlocks fw fb (full + k) (x ++ y) = vbtBlocks fw fb full x ++ vbtBlocks fw fb k y := by
  induction full generalizing x with
  | zero =>
    have : x = [] := List.length_eq_zero_iff.1 (by omega)
    subst this
    simp [vbtBlocks, vbtTail, h0]
  | succ full ih =>
    rw [show full + 1 + k = full + k + 1 by omega, vbtBlocks, vbtBlocks, List.take_append_of_le_length (by omega),
      List.drop_append_of_le_length (by omega), ih _ (by rw [List.length_drop]; omega), List.append_assoc]

/-- The routing of R145 on full blocks followed by any bytes. -/
theorem vbtRoute_append {fw : List Word → List Word} {fb : List Byte → List Byte} (h0 : fb [] = []) (x y : List Byte)
    (hx : x.length % 64 = 0) : vbtRoute fw fb (x ++ y) = vbtRoute fw fb x ++ vbtRoute fw fb y := by
  have := vbtBlocks_append (fw := fw) h0 (x.length / 64) x y (by omega) (y.length / 64)
  simp only [vbtRoute]
  rw [← this, List.length_append]
  congr 1
  omega

/-- Decrypting a range that starts on a block boundary of D, and ends on one or at the end of D, gives the slice of the
decryption of D (R171). -/
theorem vbtDec_slice (K : Key) (D : List Byte) {a m : Nat} (ha : a % 64 = 0)
    (hm : m % 64 = 0 ∧ a + m ≤ D.length ∨ a + m = D.length) :
    vbtDec K ((D.drop a).take m) = ((vbtDec K D).drop a).take m := by
  have hb : bfcDec K [] = [] := rfl
  have h1 : vbtDec K D = vbtDec K (D.take a) ++ vbtDec K (D.drop a) := by
    conv => lhs; rw [← List.take_append_drop a D]
    exact vbtRoute_append hb _ _ (by rw [List.length_take]; omega)
  rw [h1, List.drop_left' (by rw [length_vbtDec, List.length_take]; omega)]
  rcases hm with ⟨hm, hle⟩ | heq
  · have h2 : vbtDec K (D.drop a) = vbtDec K ((D.drop a).take m) ++ vbtDec K ((D.drop a).drop m) := by
      conv => lhs; rw [← List.take_append_drop m (D.drop a)]
      exact vbtRoute_append hb _ _ (by rw [List.length_take, List.length_drop]; omega)
    rw [h2, List.take_left' (by rw [length_vbtDec, List.length_take, List.length_drop]; omega)]
  · rw [List.take_of_length_le (by rw [List.length_drop]; omega),
      List.take_of_length_le (by rw [length_vbtDec, List.length_drop]; omega)]

/-- A plan whose steps deliver the positions from q to `stop`, each out of a range of whole blocks of the content. -/
def Covers (length stop : Nat) : Nat → List ReadStep → Prop
  | q, [] => q = stop
  | q, r :: rest =>
    r.first % 64 = 0 ∧ r.first + r.skip = q ∧ r.skip + r.keep ≤ r.size ∧ r.keep ≠ 0 ∧
      (r.size % 64 = 0 ∧ r.first + r.size ≤ length ∨ r.first + r.size = length) ∧ Covers length stop (q + r.keep) rest

theorem Covers.le {length stop q : Nat} {plan : List ReadStep} (h : Covers length stop q plan) : q ≤ stop := by
  induction plan generalizing q with
  | nil => exact Nat.le_of_eq h
  | cons r rest ih => exact Nat.le_trans (Nat.le_add_right _ _) (ih h.2.2.2.2.2)

/-- The plan of R174 and R175 delivers the n bytes at pos. -/
theorem covers_readPlan {length pos n : Nat} (hn : n ≠ 0) (h : pos + n ≤ length) :
    Covers length (pos + n) pos (readPlan length pos n) := by
  have hpos := Nat.div_add_mod pos 64
  have hstop := Nat.div_add_mod (pos + n - 1) 64
  have hm := Nat.mod_lt pos (show 0 < 64 by omega)
  have hm' := Nat.mod_lt (pos + n - 1) (show 0 < 64 by omega)
  simp only [readPlan, blockStep]
  by_cases hb : pos / 64 < (pos + n - 1) / 64
  · by_cases hs : (pos + n) % 64 = 0
    · have hmid : 64 * (pos / 64 + 1) < pos + n := by omega
      simp only [hb, hs, hmid, if_true, List.append_nil, Covers]
      refine ⟨by omega, by omega, by omega, by omega, by omega, by omega, by omega, by omega, by omega, by omega, ?_⟩
      omega
    · by_cases hmid : 64 * (pos / 64 + 1) < 64 * ((pos + n - 1) / 64)
      · simp only [hb, hs, hmid, if_true, if_false, List.cons_append, List.nil_append, Covers]
        refine ⟨by omega, by omega, by omega, by omega, by omega, by omega, by omega, by omega, by omega, by omega,
          by omega, by omega, by omega, by omega, by omega, ?_⟩
        omega
      · simp only [hb, hs, hmid, if_true, if_false, List.nil_append, Covers]
        refine ⟨by omega, by omega, by omega, by omega, by omega, by omega, by omega, by omega, by omega, by omega, ?_⟩
        omega
  · simp only [hb, if_false, Covers]
    refine ⟨by omega, by omega, by omega, by omega, by omega, ?_⟩
    omega

/-- A run over a source that holds the whole content delivers a slice of it (R175), or a read of it fails (R63). -/
theorem runReads_outcome {f : Aligned} {src : Source} (hc : f.origin.toNat + f.length.toNat ≤ src.data.length)
    {stop q : Nat} {plan : List ReadStep} (h : Covers f.length.toNat stop q plan) (s : State) :
    (src.mayFail = true ∧ ∃ r ∈ plan, (runReads f src plan s).2
        = .error (.underlyingIO r.phase .device (BitVec.ofNat 64 (f.origin.toNat + r.first)))) ∨
      (runReads f src plan s).2 = .ok (((content src.data f).drop q).take (stop - q)) := by
  induction plan generalizing q s with
  | nil =>
    have : q = stop := h
    simp [runReads, this]
  | cons r rest ih =>
    obtain ⟨h1, h2, h3, h4, h5, h6⟩ := h
    rw [runReads]
    rcases srcRead_spec s f.src src (f.origin.toNat + r.first) r.size with ⟨he, hm⟩ | he
    · rw [he]
      exact .inl ⟨hm, r, by simp, rfl⟩
    · rw [he]
      simp only
      have hdl : (delivery src (f.origin.toNat + r.first) r.size).length = r.size := length_delivery_of_le (by omega)
      rw [if_neg (by omega)]
      have hrest := ih h6 { srcSeek s f.src (BitVec.ofNat 64
        (f.origin.toNat + r.first + (delivery src (f.origin.toNat + r.first) r.size).length)) with draws := s.draws + 1 }
      generalize runReads f src rest _ = p at hrest
      obtain ⟨s2, out⟩ := p
      simp only at hrest
      rcases hrest with ⟨hm, r', hr', hrest⟩ | hrest
      · subst hrest
        exact .inl ⟨hm, r', by simp [hr'], rfl⟩
      · subst hrest
        right
        simp only
        have hD : ((src.data.drop f.origin.toNat).take f.length.toNat).length = f.length.toNat := by
          rw [List.length_take, List.length_drop]; omega
        have hdel : delivery src (f.origin.toNat + r.first) r.size
            = (((src.data.drop f.origin.toNat).take f.length.toNat).drop r.first).take r.size := by
          rw [delivery, List.drop_take, List.drop_drop, List.take_take, Nat.min_eq_left (by omega)]
        rw [hdel, vbtDec_slice f.key _ h1 (by rw [hD]; exact h5)]
        have hle := h6.le
        have : (((content src.data f).drop q).take (stop - q))
            = (((content src.data f).drop q).take r.keep)
              ++ (((content src.data f).drop (q + r.keep)).take (stop - (q + r.keep))) := by
          conv => lhs; rw [show stop - q = r.keep + (stop - (q + r.keep)) by omega]
          rw [List.take_add, List.drop_drop]
        rw [this, List.drop_take, List.drop_drop, List.take_take, Nat.min_eq_left (by omega), h2]
        rfl

/-- A run over a source that does not fail and holds the whole content delivers a slice of it (R175). -/
theorem runReads_content {f : Aligned} {src : Source} (hf : src.mayFail = false)
    (hc : f.origin.toNat + f.length.toNat ≤ src.data.length) {stop q : Nat} {plan : List ReadStep}
    (h : Covers f.length.toNat stop q plan) (s : State) :
    (runReads f src plan s).2 = .ok (((content src.data f).drop q).take (stop - q)) := by
  rcases runReads_outcome hc h s with ⟨hm, -⟩ | h
  · rw [hf] at hm; cases hm
  · exact h

/-- What a plan delivers at most. -/
def planKeep (plan : List ReadStep) : Nat := (plan.map ReadStep.keep).sum

/-- A run delivers no more bytes than its plan asks for. -/
theorem runReads_length {f : Aligned} {src : Source} {plan : List ReadStep} {s : State} (out : List Byte)
    (h : (runReads f src plan s).2 = .ok out) : out.length ≤ planKeep plan := by
  induction plan generalizing s out with
  | nil =>
    injection h with h
    subst h
    exact Nat.le_refl 0
  | cons r rest ih =>
    simp only [runReads] at h
    generalize srcRead s f.src src (f.origin.toNat + r.first) r.size = p at h
    obtain ⟨s1, raw⟩ := p
    cases raw with
    | none => cases h
    | some raw =>
      simp only at h
      split at h
      · cases h
      · generalize hq : runReads f src rest s1 = q at h
        obtain ⟨s2, o⟩ := q
        cases o with
        | error e => cases h
        | ok o =>
          injection h with h
          subst h
          have := ih o (congrArg Prod.snd hq)
          simp only [planKeep, List.map_cons, List.sum_cons, List.length_append, List.length_take] at this ⊢
          omega

theorem Covers.keep {length stop q : Nat} {plan : List ReadStep} (h : Covers length stop q plan) :
    q + planKeep plan = stop := by
  induction plan generalizing q with
  | nil => exact h
  | cons r rest ih =>
    have := ih h.2.2.2.2.2
    simp only [planKeep, List.map_cons, List.sum_cons] at this ⊢
    omega

/-- The plan of a read of n bytes asks for n bytes. -/
theorem plan_keep {length pos n : Nat} (hn : n ≠ 0) (h : pos + n ≤ length) : planKeep (readPlan length pos n) = n := by
  have := (covers_readPlan hn h).keep
  omega

/-! ## The two ends of a read -/

/-- The cursor and the other sources after a seek. -/
theorem cursorSet_srcSeek {s t : State} {h : Nat} {c : U64} (hs : t.sources = (srcSeek s h c).sources) :
    CursorSet s t h c ∧ OtherSourcesKept s t h := by
  have hj : ∀ j, sourceOf t j = sourceOf (srcSeek s h c) j := fun j => by rw [sourceOf, sourceOf, hs]
  constructor
  · rw [CursorSet, hj, sourceOf_srcSeek, if_pos rfl]
  · intro j hne
    rw [hj, sourceOf_srcSeek, if_neg hne]

/-- A read of host memory depends on host memory alone. -/
theorem memRead_congr {s t : State} (h : t.mem = s.mem) (a n : Nat) : memRead t a n = memRead s a n := by
  rw [memRead, memRead, h]

/-- What ABS.READ of n > 0 bytes does (R174, R176), by how its source reads end. -/
theorem absReadSome_spec {s : State} (hw : Memory.wf s.mem = true) (slot : Nat) (f : Aligned) (src : Source) {n : Nat}
    (hle : bufStart s + n ≤ 2 ^ 64) :
    (∃ e t, (runReads f src (readPlan f.length.toNat f.pos.toNat n) s).2 = .error e ∧
      absReadSome slot s f src (bufStart s) n = .next t ∧ Fails t e.cause e.phase e.detail (e.info 0) ∧
      StreamReadFailed s t f.src n) ∨
    ∃ out t, (runReads f src (readPlan f.length.toNat f.pos.toNat n) s).2 = .ok out ∧
      absReadSome slot s f src (bufStart s) n = .next t ∧ (out.length = n → AbsReadDone s t slot f n out) := by
  have hc := onlyCursor_runReads f src (readPlan f.length.toNat f.pos.toNat n) s
  have herr := @runReads_error f src (readPlan f.length.toNat f.pos.toNat n) s
  unfold absReadSome
  generalize runReads f src (readPlan f.length.toNat f.pos.toNat n) s = p at hc herr ⊢
  obtain ⟨s1, r⟩ := p
  cases r with
  | error e =>
    left
    have hinfo : ∀ c, e.info c = e.info 0 := by
      rcases herr rfl with ⟨-, r, -, rfl⟩ | ⟨r, -, off, rfl⟩ <;> exact fun _ => rfl
    refine ⟨e, _, rfl, rfl, ?_, ?_⟩
    · have := fails_raise (srcCursorDraw (memHavoc s1 (bufStart s) n) f.src) e
      rw [hinfo] at this
      exact this
    · have hsrc := cursorSet_srcSeek (s := s) (t := raise (srcCursorDraw (memHavoc s1 (bufStart s) n) f.src) e)
        (hc.seek (Config.drawCursor (s1.draws + n)))
      refine ⟨(raise_status_fields _ e).2.2.2.2.1.trans (congrArg statusKeyv hc.status), ?_, hc.key, hc.slots,
        ⟨_, hsrc.1⟩, hsrc.2, fun x hx => ?_⟩
      · exact hc.inputs.trans ((sameInputs_memHavoc _ _ _).trans ((sameInputs_srcCursorDraw _ _).trans (sameInputs_raise _ _)))
      · exact (byte_memHavoc_outside (s := s1) (hc.mem ▸ hw) (fun _ => hle) hx).trans (by rw [hc.mem])
  | ok out =>
    right
    refine ⟨out, _, rfl, rfl, fun hl => ?_⟩
    have hb : out ≠ [] → bufStart s + out.length ≤ 2 ^ 64 := fun _ => by rw [hl]; exact hle
    have hsrc := fun t => cursorSet_srcSeek (s := s) (t := t) (h := f.src) (c := Config.drawCursor s1.draws)
    have hw1 : Memory.wf s1.mem = true := hc.mem ▸ hw
    have hr := memRead_memWrite hw1 hb
    have ho := sameMemoryOutside_memWrite hw1 hb
    rw [hl] at hr ho
    refine ⟨succeeds_succeed _ _, ⟨?_, ?_⟩, ?_, hc.key, ?_, ⟨_, (hsrc _ (hc.seek _)).1⟩, (hsrc _ (hc.seek _)).2,
      (memRead_congr rfl _ _).trans hr, ?_⟩
    · exact (flagsKept_succeed _ _).1.trans (congrArg statusErr hc.status)
    · exact (flagsKept_succeed _ _).2.trans (congrArg statusKeyv hc.status)
    · exact hc.inputs.trans ((sameInputs_memWrite _ _ _).trans ((sameInputs_setSlot _ _ _).trans
        ((sameInputs_srcCursorDraw _ _).trans (sameInputs_succeed _ _))))
    · rw [succeed_slots, srcCursorDraw_slots, setSlot_slots, memWrite_slots]
      exact congrArg (fun v : List Slot => v.set slot _) hc.slots
    · exact fun x hx => (ho x hx).trans (by rw [hc.mem])

/-- A register whose signed value is not negative has that value unsigned. -/
theorem toNat_of_toInt_nonneg {x : U64} (h : 0 ≤ x.toInt) : x.toInt.toNat = x.toNat := by
  rw [BitVec.toInt_eq_toNat_cond] at h ⊢
  split at h
  · rename_i h2
    rw [if_pos h2]; rfl
  · omega

/-- The BUF operand of ABS.READ and SEQ.READ where its checks pass. -/
theorem bufOperand_of_valid {s : State} (hb : BufValid s s.a3.toInt) (ha : Admitted s (bufStart s) s.a3.toNat) :
    bufOperand s = .ok ⟨bufStart s, s.a3.toNat⟩ := by
  have hn := toNat_of_toInt_nonneg hb.2.1
  have := admittedSpan_ok hb (by rw [hn]; exact checkRange_of_admitted ha)
  rw [hn] at this
  exact this

end Sys2Proof.Machine
end

