-- ==== Sys2Proof/Laws/Steps.lean ====
section
/-! SUPPORT. What every command leaves, said once: the inversion of `exec` that the whole-machine statements rest on. -/

namespace Sys2Proof.Machine

/-! ## The launch parameters -/

theorem SameLaunch.refl (s : State) : SameLaunch s s := ⟨rfl, rfl, rfl, rfl⟩

theorem SameLaunch.trans {s t u : State} (h1 : SameLaunch s t) (h2 : SameLaunch t u) : SameLaunch s u :=
  ⟨h2.slots.trans h1.slots, h2.sources.trans h1.sources, h2.hostMem.trans h1.hostMem, h2.regBase.trans h1.regBase⟩

/-- Sources that are those of `s`, or those a seek leaves, keep the launch. -/
theorem sameLaunch_of {s t : State} (hs : t.slots.length = s.slots.length) (hh : t.hostMem = s.hostMem)
    (hr : t.regBase = s.regBase) (hq : t.sources = s.sources ∨ ∃ h c, t.sources = (srcSeek s h c).sources) :
    SameLaunch s t where
  slots := hs
  sources := by
    rcases hq with hq | ⟨h, c, hq⟩
    · rw [hq]
    · rw [hq]; exact (sameLaunch_srcSeek s h c).sources
  hostMem := hh
  regBase := hr

theorem sameLaunch_setSlot (s : State) (slot : Nat) (v : Slot) : SameLaunch s (setSlot s slot v) :=
  sameLaunch_of (by simp) rfl rfl (.inl rfl)

theorem sameLaunch_memWrite (s : State) (a : Nat) (bs : List Byte) : SameLaunch s (memWrite s a bs) := ⟨rfl, rfl, rfl, rfl⟩

theorem sameLaunch_memHavoc (s : State) (a n : Nat) : SameLaunch s (memHavoc s a n) := ⟨rfl, rfl, rfl, rfl⟩

theorem sameLaunch_srcCursorDraw (s : State) (h : Nat) : SameLaunch s (srcCursorDraw s h) :=
  sameLaunch_of rfl rfl rfl (.inr ⟨h, _, rfl⟩)

theorem sameLaunch_raise (s : State) (f : Failure) : SameLaunch s (raise s f) := ⟨rfl, rfl, rfl, rfl⟩

theorem sameLaunch_succeed (s : State) (r : U64) : SameLaunch s (succeed s r) := ⟨rfl, rfl, rfl, rfl⟩

theorem OnlyCursor.launch {s t : State} {h : Nat} (hc : OnlyCursor s t h) : SameLaunch s t :=
  sameLaunch_of (congrArg List.length hc.slots) hc.inputs.hostMem hc.inputs.regBase
    (hc.sources.imp id fun ⟨c, hq⟩ => ⟨h, c, hq⟩)

/-- What an attached source keeps when the launch is kept. -/
theorem SameLaunch.sourceOf_isSome {s t : State} (hl : SameLaunch s t) (h : Nat) :
    (sourceOf t h).map (fun src => (src.data, src.mayFail)) = (sourceOf s h).map (fun src => (src.data, src.mayFail)) := by
  have := congrArg (fun l : List (Option (List Byte × Bool)) => (l[h]?).join) hl.sources
  simp only [List.getElem?_map] at this
  unfold sourceOf
  cases h1 : t.sources[h]? <;> cases h2 : s.sources[h]? <;> simp_all

theorem SameLaunch.attached {s t : State} (hl : SameLaunch s t) {h : Nat} (hs : sourceOf s h ≠ none) :
    sourceOf t h ≠ none := by
  have := hl.sourceOf_isSome h
  intro hn
  rw [hn] at this
  cases hq : sourceOf s h with
  | none => exact hs hq
  | some src => rw [hq] at this; cases this

/-- A slot good in one state is good in any state of the same launch. -/
theorem SlotGood.of_launch {s t : State} (hl : SameLaunch s t) {v : Slot} (hv : SlotGood s v) : SlotGood t v := by
  cases v with
  | closed => trivial
  | aligned f => exact ⟨hl.attached hv.1, hv.2⟩
  | seqBlockTea f => exact hl.attached hv
  | seqVbt f => exact hl.attached hv

/-- A launch in range stays in range. -/
theorem LaunchGood.of_launch {s t : State} (hl : SameLaunch s t) (hg : LaunchGood s) : LaunchGood t := by
  have hn : nSources t = nSources s := by
    have := congrArg List.length hl.sources
    simpa [nSources] using this
  refine ⟨by rw [hl.slots]; exact hg.slots, by rw [hn]; exact hg.sources, ?_, by rw [hl.regBase]; exact hg.window,
    by rw [hl.regBase, hl.hostMem]; exact hg.windowFree⟩
  intro h src hs
  have := hl.sourceOf_isSome h
  rw [hs] at this
  cases hq : sourceOf s h with
  | none => rw [hq] at this; cases this
  | some src' =>
    rw [hq] at this
    simp only [Option.map_some, Option.some.injEq, Prod.mk.injEq] at this
    rw [this.1]
    exact hg.data h src' hq

/-! ## Every command -/

theorem SameStream.refl (v : Slot) : SameStream v v := by
  cases v with
  | closed => rfl
  | aligned f => exact ⟨f.pos, rfl⟩
  | seqBlockTea f => rfl
  | seqVbt f => rfl

/-- What a command that answers a next state leaves, whichever it is and however it ends. -/
structure Ran (i : Instr) (s t : State) : Prop where
  inputs : SameInputs s t
  launch : SameLaunch s t
  status : StatusGood t
  err : statusCause t.status = 0 → i ≠ .clrerr → statusErr t.status = statusErr s.status
  clr : i = .clrerr → statusErr t.status = false
  key : i ≠ .keyload → t.key = s.key ∧ statusKeyv t.status = statusKeyv s.status
  failed : statusCause t.status ≠ 0 → t.key = s.key ∧ statusKeyv t.status = statusKeyv s.status
  mem : Memory.wf s.mem = true → Memory.wf t.mem = true
  slots : ∀ k v, s.slots[k]? = some v → v ≠ .closed →
    (∃ v', t.slots[k]? = some v' ∧ SameStream v v') ∨ i = .close k ∧ t.slots[k]? = some .closed
  good : (∀ v ∈ s.slots, SlotGood s v) → ∀ v ∈ t.slots, SlotGood t v

/-- A command that fails after changing no register and no slot. -/
theorem ran_raise {i : Instr} {s s1 : State} (f : Failure) (hi : i ≠ .clrerr) (hin : SameInputs s s1)
    (hl : SameLaunch s s1) (hst : s1.status = s.status) (hk : s1.key = s.key) (hsl : s1.slots = s.slots)
    (hm : Memory.wf s.mem = true → Memory.wf s1.mem = true) : Ran i s (raise s1 f) := by
  have hf := raise_status_fields s1 f
  refine ⟨hin.trans (sameInputs_raise _ _), hl.trans (sameLaunch_raise _ _), statusGood_raise _ _, fun h => ?_, fun h => absurd h hi, fun _ => ⟨hk, ?_⟩,
    fun _ => ⟨hk, ?_⟩, hm, fun k v hv _ => .inl ⟨v, ?_, .refl v⟩, fun hg v hv => ?_⟩
  · exact absurd (hf.1 ▸ h) f.cause_ne_zero
  · rw [hf.2.2.2.2.1, hst]
  · rw [hf.2.2.2.2.1, hst]
  · rw [raise_slots, hsl]; exact hv
  · rw [raise_slots, hsl] at hv
    exact (hg v hv).of_launch (hl.trans (sameLaunch_raise _ _))

/-- A command that fails its checks. -/
theorem ran_raise_self {i : Instr} (s : State) (f : Failure) (hi : i ≠ .clrerr) : Ran i s (raise s f) :=
  ran_raise f hi (.refl s) (.refl s) rfl rfl rfl id

/-- A command that succeeds after changing neither the key nor a flag. -/
theorem ran_succeed {i : Instr} {s s1 : State} (r : U64) (hi : i ≠ .clrerr) (hin : SameInputs s s1)
    (hl : SameLaunch s s1) (hst : s1.status = s.status) (hk : s1.key = s.key)
    (hm : Memory.wf s.mem = true → Memory.wf s1.mem = true)
    (hsl : ∀ k v, s.slots[k]? = some v → v ≠ .closed →
      (∃ v', s1.slots[k]? = some v' ∧ SameStream v v') ∨ i = .close k ∧ s1.slots[k]? = some .closed)
    (hg : (∀ v ∈ s.slots, SlotGood s v) → ∀ v ∈ s1.slots, SlotGood s1 v) : Ran i s (succeed s1 r) := by
  have hf := succeed_status_fields s1 r
  refine ⟨hin.trans (sameInputs_succeed _ _), hl.trans (sameLaunch_succeed _ _), statusGood_succeed _ _, fun _ _ => ?_, fun h => absurd h hi,
    fun _ => ⟨hk, ?_⟩, fun h => absurd hf.1 h, hm, hsl, fun h v hv => (hg h v hv).of_launch (sameLaunch_succeed _ _)⟩
  · rw [hf.2.2.2.1, hst]
  · rw [hf.2.2.2.2.1, hst]

/-- A command that succeeds and changes no slot either. -/
theorem ran_succeed_slots {i : Instr} {s s1 : State} (r : U64) (hi : i ≠ .clrerr) (hin : SameInputs s s1)
    (hl : SameLaunch s s1) (hst : s1.status = s.status) (hk : s1.key = s.key) (hsl : s1.slots = s.slots)
    (hm : Memory.wf s.mem = true → Memory.wf s1.mem = true) : Ran i s (succeed s1 r) := by
  refine ran_succeed r hi hin hl hst hk hm (fun k v hv _ => .inl ⟨v, ?_, .refl v⟩) fun hg v hv => ?_
  · rw [hsl]; exact hv
  · rw [hsl] at hv
    exact (hg v hv).of_launch hl

/-- A command that succeeds with a result alone. -/
theorem ran_succeed_self {i : Instr} (s : State) (r : U64) (hi : i ≠ .clrerr) : Ran i s (succeed s r) :=
  ran_succeed_slots r hi (.refl s) (.refl s) rfl rfl rfl id

/-- A slot set to a stream that a slot of the state already held, or to one put into a Closed slot. -/
theorem slots_set {s s1 : State} {slot : Nat} {w : Slot} (hl : SameLaunch s s1) (hsl : s1.slots = s.slots.set slot w)
    (hw : ∀ v, s.slots[slot]? = some v → v ≠ .closed → SameStream v w)
    (hgw : (∀ v ∈ s.slots, SlotGood s v) → SlotGood s w) :
    (∀ (k : Nat) (v : Slot), s.slots[k]? = some v → v ≠ .closed → ∃ v', s1.slots[k]? = some v' ∧ SameStream v v') ∧
      ((∀ v ∈ s.slots, SlotGood s v) → ∀ v ∈ s1.slots, SlotGood s1 v) := by
  constructor
  · intro k v hv hne
    by_cases hk : slot = k
    · subst hk
      obtain ⟨hlt, -⟩ := List.getElem?_eq_some_iff.1 hv
      exact ⟨w, by rw [hsl, List.getElem?_set_self hlt], hw v hv hne⟩
    · exact ⟨v, by rw [hsl, List.getElem?_set_ne hk]; exact hv, .refl v⟩
  · intro hg v hv
    rw [hsl] at hv
    rcases List.mem_or_eq_of_mem_set hv with hv | rfl
    · exact (hg v hv).of_launch hl
    · exact (hgw hg).of_launch hl

/-- A command that is its checks and its effect: `Ran` of the effect is `Ran` of the command. -/
theorem ran_command {α : Type} {i : Instr} {s t : State} {checks : Except Failure α} {effect : α → Result}
    (hi : i ≠ .clrerr) (h : command s checks effect = .next t)
    (he : ∀ x, checks = .ok x → effect x = .next t → Ran i s t) : Ran i s t := by
  rcases command_spec s checks effect with ⟨f, hf, hc⟩ | ⟨x, hx, hc⟩
  · rw [hc] at h
    injection h with h
    subst h
    exact ran_raise_self s f hi
  · exact he x hx (hc ▸ h)

/-- A command in place over a range below 2^64. -/
theorem ran_inPlace {i : Instr} {s t : State} {f : List Byte → List Byte} {r : Span} (hi : i ≠ .clrerr)
    (hf : (f (memRead s r.addr r.count)).length ≤ r.count) (hr : r.count ≠ 0 → r.addr + r.count ≤ 2 ^ 64)
    (h : inPlace s f r = .next t) : Ran i s t := by
  injection h with h
  subst h
  refine ran_succeed_slots 0 hi (sameInputs_memWrite _ _ _) (sameLaunch_memWrite _ _ _) rfl rfl rfl fun hw => ?_
  refine Memory.wf_write hw fun hne => ?_
  have : (f (memRead s r.addr r.count)).length ≠ 0 := fun h0 => hne (List.length_eq_zero_iff.1 h0)
  have := hr (by omega)
  omega

/-- A failure after ABS.OPEN's source read. -/
theorem ran_absOpenFails {i : Instr} {s s1 t : State} {h : Nat} {off : U64} {f : Failure} (hi : i ≠ .clrerr)
    (hc : OnlyCursor s s1 h) (ht : absOpenFails s1 h off f = .next t) : Ran i s t := by
  injection ht with ht
  subst ht
  refine ran_raise f hi (hc.inputs.trans (sameInputs_srcSeek _ _ _)) (hc.launch.trans (sameLaunch_srcSeek _ _ _))
    hc.status hc.key hc.slots fun hw => ?_
  rw [srcSeek_mem, hc.mem]
  exact hw

theorem ran_absOpenEffect {slot : Nat} {s t : State} {o : OpenOperand} (ho : absOpenOperand slot s = .ok o)
    (ht : absOpenEffect slot s o = .next t) : Ran (.absOpen slot) s t := by
  obtain ⟨⟨⟩, hclosed, ho⟩ := bind_ok ho
  obtain ⟨src, hsrc, ho⟩ := bind_ok ho
  obtain ⟨off, hoff, ho⟩ := bind_ok ho
  obtain ⟨k, -, ho⟩ := bind_ok ho
  injection ho with ho
  subst ho
  obtain ⟨rfl, hpos⟩ := offsetOperand_ok_inv hoff
  rw [closedSlot_ok_iff] at hclosed
  rw [sourceOperand_ok_iff] at hsrc
  have hc := onlyCursor_srcRead s s.a0.toNat src s.a1.toNat 4
  unfold absOpenEffect at ht
  simp only at ht
  generalize srcRead s s.a0.toNat src s.a1.toNat 4 = p at ht hc
  obtain ⟨s1, raw⟩ := p
  cases raw with
  | none => exact ran_absOpenFails (by simp) hc ht
  | some raw =>
    simp only at ht hc
    split at ht
    · exact ran_absOpenFails (by simp) hc ht
    · split at ht
      · exact ran_absOpenFails (by simp) hc ht
      · rename_i hlen
        injection ht with ht
        subst ht
        have hl := hc.launch.trans (sameLaunch_setSlot s1 slot (.aligned ⟨s.a0.toNat, k, s.a1 + 4, lengthPrefix k raw, 0⟩))
        have hset := slots_set (slot := slot) (w := .aligned ⟨s.a0.toNat, k, s.a1 + 4, lengthPrefix k raw, 0⟩) hl
          (by rw [setSlot_slots, hc.slots])
          (fun v hv hne => by rw [hclosed] at hv; injection hv with hv; exact absurd hv.symm hne)
          (fun _ => ⟨by rw [hsrc]; simp, by simp, by simpa using hlen, ?_, ?_⟩)
        · exact ran_succeed _ (by simp) (hc.inputs.trans (sameInputs_setSlot _ _ _)) hl hc.status hc.key
            (fun hw => by rw [setSlot_mem, hc.mem]; exact hw) (fun k v hv hne => .inl (hset.1 k v hv hne)) hset.2
        all_goals
          have := toNat_of_toInt_nonneg hpos
          have := BitVec.toInt_lt (x := s.a1)
          have h4 : (4 : U64).toNat = 4 := rfl
          rw [BitVec.toNat_add, h4]
          omega

/-- The position of a stream's slot moves, and nothing else of it. -/
theorem ran_moved {i : Instr} {s s1 : State} {slot pos : Nat} {f : Aligned} (r : U64) (hi : i ≠ .clrerr)
    (hf : s.slots[slot]? = some (.aligned f)) (hin : SameInputs s s1) (hl : SameLaunch s s1) (hst : s1.status = s.status)
    (hk : s1.key = s.key) (hm : Memory.wf s.mem = true → Memory.wf s1.mem = true) (hpos : pos ≤ f.length.toNat)
    (hsl : s1.slots = s.slots.set slot (.aligned { f with pos := BitVec.ofNat 64 pos })) : Ran i s (succeed s1 r) := by
  have hset := slots_set hl hsl
    (fun v hv _ => by rw [hf] at hv; injection hv with hv; subst hv; exact ⟨_, rfl⟩)
    (fun hg => by
      obtain ⟨h1, -, h3, h4⟩ := hg _ (List.mem_of_getElem? hf)
      refine ⟨h1, ?_, h3, h4⟩
      have := f.length.isLt
      simp only [BitVec.toNat_ofNat]
      omega)
  exact ran_succeed r hi hin hl hst hk hm (fun k v hv hne => .inl (hset.1 k v hv hne)) hset.2

theorem ran_absReadEffect {slot : Nat} {s t : State} {o : Aligned × Span} (ho : absReadOperand slot s = .ok o)
    (ht : absReadEffect slot s o = .next t) : Ran (.absRead slot) s t := by
  obtain ⟨f, hf, ho⟩ := bind_ok ho
  obtain ⟨r, hr, ho⟩ := bind_ok ho
  injection ho with ho
  subst ho
  rw [alignedSlot_ok_iff] at hf
  unfold absReadEffect at ht
  simp only at ht
  split at ht
  · injection ht with ht
    subst ht
    exact ran_succeed_self _ _ (by simp)
  · rename_i n hn
    have hcount : n + 1 ≤ r.count := hn.symm.le.trans (Nat.min_le_left _ _)
    have hfit : n + 1 ≤ f.length.toNat - f.pos.toNat := hn.symm.le.trans (Nat.min_le_right _ _)
    have hbelow := admittedSpan_below hr (by omega)
    split at ht
    · cases ht
    · rename_i src hsrc
      have hc := onlyCursor_runReads f src (readPlan f.length.toNat f.pos.toNat (n + 1)) s
      have hlen := @runReads_length f src (readPlan f.length.toNat f.pos.toNat (n + 1)) s
      unfold absReadSome at ht
      generalize runReads f src (readPlan f.length.toNat f.pos.toNat (n + 1)) s = p at ht hc hlen
      obtain ⟨s1, res⟩ := p
      cases res with
      | error e =>
        injection ht with ht
        subst ht
        refine ran_raise e (by simp)
          (hc.inputs.trans ((sameInputs_memHavoc _ _ _).trans (sameInputs_srcCursorDraw _ _)))
          (hc.launch.trans ((sameLaunch_memHavoc _ _ _).trans (sameLaunch_srcCursorDraw _ _))) hc.status hc.key hc.slots
          fun hw => ?_
        rw [srcCursorDraw_mem]
        exact wf_memHavoc (hc.mem ▸ hw) fun _ => by omega
      | ok out =>
        injection ht with ht
        subst ht
        refine ran_moved _ (by simp) hf
          (hc.inputs.trans ((sameInputs_memWrite _ _ _).trans ((sameInputs_setSlot _ _ _).trans (sameInputs_srcCursorDraw _ _))))
          (hc.launch.trans ((sameLaunch_memWrite _ _ _).trans ((sameLaunch_setSlot _ _ _).trans (sameLaunch_srcCursorDraw _ _))))
          hc.status hc.key (fun hw => ?_) (pos := f.pos.toNat + (n + 1)) (by omega)
          (by rw [srcCursorDraw_slots, setSlot_slots, memWrite_slots, hc.slots])
        rw [srcCursorDraw_mem, setSlot_mem, memWrite_mem]
        refine Memory.wf_write (hc.mem ▸ hw) fun _ => ?_
        have := hlen out rfl
        have := plan_keep (length := f.length.toNat) (pos := f.pos.toNat) (n := n + 1) (by omega) (by omega)
        omega

theorem ran_seqReadEffect {slot : Nat} {s t : State} {o : (SeqKind × Sequential) × Span}
    (ho : seqReadOperand slot s = .ok o) (ht : seqReadEffect s o = .next t) : Ran (.seqRead slot) s t := by
  obtain ⟨⟨kind, f⟩, hf, ho⟩ := bind_ok ho
  obtain ⟨r, hr, ho⟩ := bind_ok ho
  injection ho with ho
  subst ho
  unfold seqReadEffect at ht
  simp only at ht
  split at ht
  · injection ht with ht
    subst ht
    exact ran_succeed_self _ _ (by simp)
  · rename_i hn
    have hbelow := admittedSpan_below hr hn
    split at ht
    · cases ht
    · rename_i src hsrc
      have hc := onlyCursor_srcRead s f.src src src.cursor.toNat r.count
      have hspec := srcRead_spec s f.src src src.cursor.toNat r.count
      unfold seqReadSome at ht
      generalize srcRead s f.src src src.cursor.toNat r.count = p at ht hc hspec
      obtain ⟨s1, raw⟩ := p
      cases raw with
      | none =>
        injection ht with ht
        subst ht
        exact ran_raise _ (by simp) hc.inputs hc.launch hc.status hc.key hc.slots fun hw => hc.mem ▸ hw
      | some raw =>
        injection ht with ht
        subst ht
        have hraw : raw.length ≤ r.count := by
          rcases hspec with ⟨h, -⟩ | h
          · cases h
          · injection h with _ h
            injection h with h
            rw [h, length_delivery]
            exact Nat.min_le_left _ _
        have hdec : (seqDec kind f.key raw).length = raw.length := by cases kind <;> simp [seqDec]
        refine ran_succeed_slots _ (by simp) (hc.inputs.trans (sameInputs_memWrite _ _ _))
          (hc.launch.trans (sameLaunch_memWrite _ _ _)) hc.status hc.key hc.slots fun hw => ?_
        rw [memWrite_mem]
        exact Memory.wf_write (hc.mem ▸ hw) fun _ => by omega

theorem ran_absSeekEffect {slot : Nat} {whence : Whence} {s t : State} {f : Aligned}
    (ho : absSeekOperand slot whence s = .ok f) (ht : absSeekEffect slot s f (seekTarget f whence s.a0) = .next t) :
    Ran (.absSeek slot whence) s t := by
  obtain ⟨f', hf, ho⟩ := bind_ok ho
  obtain ⟨⟨⟩, -, ho⟩ := bind_ok ho
  injection ho with ho
  subst ho
  rw [alignedSlot_ok_iff] at hf
  unfold absSeekEffect at ht
  split at ht
  · cases ht
  · injection ht with ht
    subst ht
    refine ran_moved _ (by simp) hf ((sameInputs_setSlot _ _ _).trans (sameInputs_srcSeek _ _ _))
      ((sameLaunch_setSlot _ _ _).trans (sameLaunch_srcSeek _ _ _)) rfl rfl id
      (pos := seekTarget f' whence s.a0) ?_ rfl
    unfold seekTarget
    omega

/-- What every command leaves. -/
theorem ran_of_exec {i : Instr} {s t : State} (h : exec i s = .next t) : Ran i s t := by
  have hcipher : ∀ {j : Instr} {f : List Byte → List Byte}, (∀ x, (f x).length = x.length) → j ≠ .clrerr →
      command s (cipherOperand s) (inPlace s f) = .next t → Ran j s t := by
    intro j f hf hj hh
    refine ran_command hj hh fun r hr he => ran_inPlace hj (by rw [hf, length_memRead]) (fun hn => ?_) he
    exact admittedSpan_below (cipherOperand_ok_inv hr).2 hn
  have hcipherN : ∀ {j : Instr} {least n : Nat} {f : List Word → List Word}, (∀ v, (f v).length = v.length) →
      j ≠ .clrerr → command s (cipherOperandN s least n) (inPlace s (onWords f)) = .next t → Ran j s t := by
    intro j least n f hf hj hh
    refine ran_command hj hh fun r hr he => ran_inPlace hj ?_ (fun hn => ?_) he
    · rw [length_onWords hf, length_memRead]
      omega
    · exact admittedSpan_below (cipherOperandN_ok_inv hr).2.2.2 hn
  have hself : ∀ {j : Instr} {α : Type} {c : Except Failure α} {g : α → U64}, j ≠ .clrerr →
      command s c (fun x => .next (succeed s (g x))) = .next t → Ran j s t := by
    intro j α c g hj hh
    refine ran_command hj hh fun x _ he => ?_
    injection he with he
    subst he
    exact ran_succeed_self s _ hj
  have hrefused : ∀ {j : Instr} {α : Type} {c : Except Failure α} {d : UnsupportedDetail}, j ≠ .clrerr →
      command s c (fun _ => .next (raise s (.unsupportedOperation d))) = .next t → Ran j s t := by
    intro j α c d hj hh
    refine ran_command hj hh fun x _ he => ?_
    injection he with he
    subst he
    exact ran_raise_self s _ hj
  cases i with
  | nop =>
    injection h with h
    subst h
    exact ran_succeed_self s 0 (by simp)
  | keyload =>
    rcases command_spec s (keyBuffer s s.a0)
      (fun k => .next (succeed { s with key := k, status := statusSetKeyv s.status } 0)) with ⟨f, -, hc⟩ | ⟨k, -, hc⟩
    · injection (hc.symm.trans h) with h
      subst h
      exact ran_raise_self s f (by simp)
    · injection (hc.symm.trans h) with h
      subst h
      have hf := succeed_status_fields { s with key := k, status := statusSetKeyv s.status } 0
      refine ⟨⟨rfl, rfl, rfl, rfl, rfl, rfl, rfl, rfl, rfl⟩, ⟨rfl, rfl, rfl, rfl⟩, statusGood_succeed _ _,
        fun _ _ => ?_, fun h => absurd h (by simp), fun h => absurd rfl h, fun h => absurd hf.1 h, id,
        fun k v hv _ => .inl ⟨v, hv, .refl v⟩, fun hg v hv => (hg v hv).of_launch ⟨rfl, rfl, rfl, rfl⟩⟩
      rw [hf.2.2.2.1]
      simp
  | clrerr =>
    injection h with h
    subst h
    have hf := succeed_status_fields { s with status := statusClearErr s.status } 0
    refine ⟨⟨rfl, rfl, rfl, rfl, rfl, rfl, rfl, rfl, rfl⟩, ⟨rfl, rfl, rfl, rfl⟩, statusGood_succeed _ _,
      fun _ h => absurd rfl h, fun _ => ?_, fun _ => ⟨rfl, ?_⟩, fun h => absurd hf.1 h, id,
      fun k v hv _ => .inl ⟨v, hv, .refl v⟩, fun hg v hv => (hg v hv).of_launch ⟨rfl, rfl, rfl, rfl⟩⟩
    · rw [hf.2.2.2.1]
      simp
    · rw [hf.2.2.2.2.1]
      simp
  | srcSetpos =>
    refine ran_command (by simp) h fun q _ he => ?_
    injection he with he
    subst he
    exact ran_succeed_slots q (by simp) (sameInputs_srcSeek _ _ _) (sameLaunch_srcSeek _ _ _) rfl rfl rfl id
  | srcGetpos => exact hself (by simp) h
  | bfcEnc => exact hcipher (length_bfcEnc s.key) (by simp) h
  | bfcDec => exact hcipher (length_bfcDec s.key) (by simp) h
  | bteaDec => exact hcipher (length_btDec s.key) (by simp) h
  | bteaEnc => exact hcipher (length_btEnc s.key) (by simp) h
  | vbtDec => exact hcipher (length_vbtDec s.key) (by simp) h
  | vbtEnc => exact hcipher (length_vbtEnc s.key) (by simp) h
  | vbtDecn n => exact hcipherN (length_vbtDecWords s.key) (by simp) h
  | vbtEncn n => exact hcipherN (length_vbtEncWords s.key) (by simp) h
  | absOpen slot => exact ran_command (by simp) h fun o ho he => ran_absOpenEffect ho he
  | absRead slot => exact ran_command (by simp) h fun o ho he => ran_absReadEffect ho he
  | absSeek slot whence => exact ran_command (by simp) h fun f ho he => ran_absSeekEffect ho he
  | absLen slot => exact hself (by simp) h
  | absPos slot => exact hself (by simp) h
  | absWrite slot => exact hrefused (by simp) h
  | absFlush slot => exact hrefused (by simp) h
  | absSetlen slot => exact hrefused (by simp) h
  | seqOpen slot kind =>
    refine ran_command (by simp) h fun k hk he => ?_
    injection he with he
    subst he
    obtain ⟨⟨⟩, hclosed, hk⟩ := bind_ok hk
    obtain ⟨src, hsrc, -⟩ := bind_ok hk
    rw [closedSlot_ok_iff] at hclosed
    rw [sourceOperand_ok_iff] at hsrc
    have hset := slots_set (s1 := setSlot s slot (seqSlotOf kind ⟨s.a0.toNat, k⟩)) (sameLaunch_setSlot _ _ _) rfl
      (fun v hv hne => by rw [hclosed] at hv; injection hv with hv; exact absurd hv.symm hne)
      (fun _ => by cases kind <;> simp [seqSlotOf, SlotGood, hsrc])
    exact ran_succeed 0 (by simp) (sameInputs_setSlot _ _ _) (sameLaunch_setSlot _ _ _) rfl rfl id
      (fun k v hv hne => .inl (hset.1 k v hv hne)) hset.2
  | seqRead slot => exact ran_command (by simp) h fun o ho he => ran_seqReadEffect ho he
  | seqSeek slot whence => exact hrefused (by simp) h
  | seqWrite slot => exact hrefused (by simp) h
  | seqFlush slot => exact hrefused (by simp) h
  | seqSetlen slot => exact hrefused (by simp) h
  | close slot =>
    refine ran_command (by simp) h fun _ _ he => ?_
    injection he with he
    subst he
    refine ran_succeed 0 (by simp) (sameInputs_setSlot _ _ _) (sameLaunch_setSlot _ _ _) rfl rfl id
      (fun k v hv _ => ?_) (fun hg v hv => ?_)
    · by_cases hk : slot = k
      · subst hk
        obtain ⟨hlt, -⟩ := List.getElem?_eq_some_iff.1 hv
        exact .inr ⟨rfl, by rw [setSlot_slots, List.getElem?_set_self hlt]⟩
      · exact .inl ⟨v, by rw [setSlot_slots, List.getElem?_set_ne hk]; exact hv, .refl v⟩
    · rw [setSlot_slots] at hv
      rcases List.mem_or_eq_of_mem_set hv with hv | rfl
      · exact (hg v hv).of_launch (sameLaunch_setSlot _ _ _)
      · trivial

end Sys2Proof.Machine
end

