-- ==== Sys2Proof/Laws/Actions.lean ====
section
/-! SUPPORT. What one command, one action of the world outside the CORE and one step can do, said once. -/

namespace Sys2Proof.Machine

/-! ## Every command answers a next state -/

theorem command_next {α : Type} {s : State} {checks : Except Failure α} {effect : α → Result}
    (h : ∀ x, checks = .ok x → ∃ t, effect x = .next t) : ∃ t, command s checks effect = .next t := by
  rcases command_spec s checks effect with ⟨f, -, hc⟩ | ⟨x, hx, hc⟩
  · exact ⟨_, hc⟩
  · rw [hc]; exact h x hx

/-- Where every slot is good, every command answers a next state. -/
theorem exec_next {s : State} (hg : ∀ v ∈ s.slots, SlotGood s v) (i : Instr) : ∃ t, exec i s = .next t := by
  cases i
  case nop => exact ⟨_, rfl⟩
  case clrerr => exact ⟨_, rfl⟩
  case absOpen slot =>
    apply command_next
    intro o ho
    unfold absOpenEffect absOpenFails
    split
    · exact ⟨_, rfl⟩
    · split
      · exact ⟨_, rfl⟩
      · simp only; split <;> exact ⟨_, rfl⟩
  case absRead slot =>
    apply command_next
    intro o ho
    obtain ⟨f, hf, ho⟩ := bind_ok ho
    obtain ⟨r, hr, ho⟩ := bind_ok ho
    injection ho with ho
    subst ho
    rw [alignedSlot_ok_iff] at hf
    have := (hg _ (List.mem_of_getElem? hf)).1
    unfold absReadEffect
    split
    · exact ⟨_, rfl⟩
    · simp only
      split
      · contradiction
      · unfold absReadSome; split <;> exact ⟨_, rfl⟩
  case absSeek slot w =>
    apply command_next
    intro f hf
    obtain ⟨f', hf', ho⟩ := bind_ok hf
    obtain ⟨⟨⟩, -, ho⟩ := bind_ok ho
    injection ho with ho
    subst ho
    rw [alignedSlot_ok_iff] at hf'
    have := (hg _ (List.mem_of_getElem? hf')).1
    unfold absSeekEffect
    split
    · contradiction
    · exact ⟨_, rfl⟩
  case seqRead slot =>
    apply command_next
    intro o ho
    obtain ⟨⟨kind, f⟩, hf, ho⟩ := bind_ok ho
    obtain ⟨r, hr, ho⟩ := bind_ok ho
    injection ho with ho
    subst ho
    rw [seqSlot_ok_iff] at hf
    have : sourceOf s f.src ≠ none := by
      have := hg _ (List.mem_of_getElem? hf)
      cases kind <;> exact this
    unfold seqReadEffect
    split
    · exact ⟨_, rfl⟩
    · simp only
      split
      · contradiction
      · unfold seqReadSome; split <;> exact ⟨_, rfl⟩
  all_goals exact command_next fun _ _ => ⟨_, rfl⟩

/-- Where every slot is good, a CMD write always completes (R21, R240). -/
theorem runCommand_next {s : State} (hg : ∀ v ∈ s.slots, SlotGood s v) (w : Word) : ∃ t, runCommand w s = .next t := by
  unfold runCommand
  split
  · exact ⟨_, rfl⟩
  · exact exec_next (s := { s with cmd := w }) (fun v hv => (hg v hv).of_launch ⟨rfl, rfl, rfl, rfl⟩) _

/-- A CMD write raises IllegalCommand or runs the decoded command. -/
theorem runCommand_cases {w : Word} {s t : State} (h : runCommand w s = .next t) :
    (∃ d, decode w = .error d ∧ t = raise { s with cmd := w } (.illegalCommand d w)) ∨
      ∃ i, decode w = .ok i ∧ exec i { s with cmd := w } = .next t := by
  unfold runCommand at h
  split at h
  · rename_i d hd
    injection h with h
    exact .inl ⟨d, hd, h.symm⟩
  · rename_i i hi
    exact .inr ⟨i, hi, h⟩

/-- What a CMD write leaves: a rejected word leaves what any failing command leaves. -/
theorem ran_runCommand {w : Word} {s t : State} (h : runCommand w s = .next t) :
    ∃ i, (decode w = .ok i ∨ i = .nop ∧ ∃ d, decode w = .error d) ∧ Ran i { s with cmd := w } t := by
  rcases runCommand_cases h with ⟨d, hd, rfl⟩ | ⟨i, hi, h⟩
  · exact ⟨.nop, .inr ⟨rfl, d, hd⟩, ran_raise_self _ _ (by simp)⟩
  · exact ⟨i, .inl hi, ran_of_exec h⟩

/-! ## Reset -/

/-- The range of the BUF operand, where ABS.READ's checks pass, lies below 2^64. -/
theorem absReadOperand_below {slot : Nat} {s : State} {o : Aligned × Span} (h : absReadOperand slot s = .ok o)
    (hn : o.2.count ≠ 0) : o.2.addr + o.2.count ≤ 2 ^ 64 := by
  obtain ⟨f, -, h⟩ := bind_ok h
  obtain ⟨r, hr, h⟩ := bind_ok h
  injection h with h
  subst h
  exact admittedSpan_below hr hn

/-- The range of the BUF operand, where SEQ.READ's checks pass, lies below 2^64. -/
theorem seqReadOperand_below {slot : Nat} {s : State} {o : (SeqKind × Sequential) × Span}
    (h : seqReadOperand slot s = .ok o) (hn : o.2.count ≠ 0) : o.2.addr + o.2.count ≤ 2 ^ 64 := by
  obtain ⟨f, -, h⟩ := bind_ok h
  obtain ⟨r, hr, h⟩ := bind_ok h
  injection h with h
  subst h
  exact admittedSpan_below hr hn

/-- The host bytes a footprint names lie below 2^64. -/
theorem footprint_below {i : Instr} {s : State} {r : Span} (h : (footprint i s).span = some r) (hr : r.count ≠ 0) :
    r.addr + r.count ≤ 2 ^ 64 := by
  have hcipher : (cipherFootprint (cipherOperand s)).span = some r → r.addr + r.count ≤ 2 ^ 64 := by
    intro h
    unfold cipherFootprint at h
    split at h
    · cases h
    · rename_i r' hr'
      injection h with h
      subst h
      exact admittedSpan_below (cipherOperand_ok_inv hr').2 hr
  have hcipherN : ∀ least n, (cipherFootprint (cipherOperandN s least n)).span = some r →
      r.addr + r.count ≤ 2 ^ 64 := by
    intro least n h
    unfold cipherFootprint at h
    split at h
    · cases h
    · rename_i r' hr'
      injection h with h
      subst h
      exact admittedSpan_below (cipherOperandN_ok_inv hr').2.2.2 hr
  have hsource : ∀ {α : Type} (c : Except Failure α) (g : α → Nat), (sourceFootprint c g).span ≠ some r := by
    intro α c g h
    unfold sourceFootprint at h
    split at h <;> cases h
  cases i
  case bfcEnc => exact hcipher h
  case bfcDec => exact hcipher h
  case bteaDec => exact hcipher h
  case bteaEnc => exact hcipher h
  case vbtDec => exact hcipher h
  case vbtEnc => exact hcipher h
  case vbtDecn n => exact hcipherN 1 n h
  case vbtEncn n => exact hcipherN 2 n h
  case srcSetpos => exact absurd h (hsource _ _)
  case absOpen slot => exact absurd h (hsource _ _)
  case absSeek slot whence => exact absurd h (hsource _ _)
  case absRead slot =>
    simp only [footprint, absReadFootprint] at h
    split at h
    · cases h
    · rename_i f r' ho
      split at h
      · cases h
      · injection h with h
        subst h
        have := absReadOperand_below ho
        simp only [absReadCount] at hr this ⊢
        omega
  case seqRead slot =>
    simp only [footprint, seqReadFootprint] at h
    split at h
    · cases h
    · rename_i kind f r' ho
      split at h
      · cases h
      · split at h
        · cases h
        · rename_i src _ hn
          injection h with h
          subst h
          have hb := seqReadOperand_below ho hn
          have : (delivery src src.cursor.toNat r'.count).length ≤ r'.count := by
            rw [length_delivery]
            exact Nat.min_le_left _ _
          simp only at hb ⊢
          omega
  all_goals cases h

theorem sameLaunch_resetCore (s : State) : SameLaunch s (resetCore s) :=
  sameLaunch_of (by simp [resetCore]) rfl rfl (.inl rfl)

/-- What a reset leaves of the state, inside a command or between commands. -/
structure WasReset (s t : State) : Prop where
  status : t.status = 0
  errinfo : t.errinfo = 0
  key : t.key = ⟨0, 0, 0, 0⟩
  slots : t.slots = s.slots.map (fun _ => .closed)
  host : t.host = s.host
  launch : SameLaunch s t
  mem : Memory.wf s.mem = true → Memory.wf t.mem = true

/-- What an action that is neither a CMD write nor a reset leaves. -/
structure LeavesCore (s t : State) : Prop where
  status : t.status = s.status
  res : t.res = s.res
  errinfo : t.errinfo = s.errinfo
  key : t.key = s.key
  slots : t.slots = s.slots
  host : t.host = s.host
  launch : SameLaunch s t
  mem : Memory.wf s.mem = true → Memory.wf t.mem = true

theorem wasReset_resetCore {s u : State} (hsl : u.slots = s.slots) (hh : u.host = s.host) (hl : SameLaunch s u)
    (hm : Memory.wf s.mem = true → Memory.wf u.mem = true) : WasReset s (resetCore u) where
  status := rfl
  errinfo := rfl
  key := rfl
  slots := by rw [← hsl]; rfl
  host := hh
  launch := hl.trans (sameLaunch_resetCore u)
  mem := hm

theorem wasReset_interruptedReset (w : Word) (s : State) : WasReset s (interruptedReset w s) := by
  unfold interruptedReset
  split
  · exact wasReset_resetCore rfl rfl (.refl s) id
  · rename_i i hi
    unfold havocFootprint
    cases hspan : (footprint i s).span with
    | none =>
      simp only
      cases (footprint i s).source with
      | none => exact wasReset_resetCore rfl rfl (.refl s) id
      | some h => exact wasReset_resetCore rfl rfl (sameLaunch_srcCursorDraw _ _) id
    | some r =>
      simp only
      have hm : Memory.wf s.mem = true → Memory.wf (memHavoc s r.addr r.count).mem = true :=
        fun hw => wf_memHavoc hw fun hn => footprint_below hspan hn
      cases (footprint i s).source with
      | none => exact wasReset_resetCore rfl rfl (sameLaunch_memHavoc _ _ _) hm
      | some h =>
        exact wasReset_resetCore rfl rfl ((sameLaunch_memHavoc _ _ _).trans (sameLaunch_srcCursorDraw _ _)) hm

/-! ## One action and one step -/

/-- The four-byte register of R20 that the offset 0 names is CMD. -/
theorem windowAccess_cmd {off bytes : Nat} (h : windowAccess off bytes = .whole .cmd) : off = 0 ∧ bytes = 4 := by
  unfold windowAccess at h
  split at h
  · rename_i r' hr'
    injection h with h
    subst h
    have := List.find?_some hr'
    simp only [Bool.and_eq_true, beq_iff_eq, HostReg.offset, HostReg.bytes] at this
    exact ⟨this.1.symm, this.2.symm⟩
  · split at h
    · cases h
    · split at h <;> cases h

/-- An action is a CMD write, a reset, or leaves the CORE's outcome, key and slots alone. -/
theorem act_cases {a : HostAction} {s t : State} (h : act a s = .next t) :
    (∃ w, IsCmdWrite s a w ∧ runCommand w s = .next t) ∨ IsReset a ∧ WasReset s t ∨
      ¬IsReset a ∧ LeavesCore s t := by
  have hnot : ∀ a : HostAction, a ≠ .reset → (∀ w, a ≠ .commandThenReset w) → ¬IsReset a := by
    rintro a h1 h2 (h | ⟨w, h⟩)
    · exact h1 h
    · exact h2 w h
  cases a with
  | regWrite addr bytes v =>
    have hr := hnot (.regWrite addr bytes v) (by simp) (by simp)
    simp only [act, windowWrite] at h
    split at h
    · rename_i r hw
      split at h
      · rename_i hc
        subst hc
        obtain ⟨h0, rfl⟩ := windowAccess_cmd hw
        exact .inl ⟨_, ⟨addr, v, rfl, h0, rfl⟩, h⟩
      · injection h with h
        subst h
        right; right
        cases r <;> exact ⟨hr, rfl, rfl, rfl, rfl, rfl, rfl, ⟨rfl, rfl, rfl, rfl⟩, id⟩
    · injection h with h
      subst h
      right; right
      rename_i r _ _
      cases r <;> exact ⟨hr, rfl, rfl, rfl, rfl, rfl, rfl, ⟨rfl, rfl, rfl, rfl⟩, id⟩
    · injection h with h
      subst h
      exact .inr (.inr ⟨hr, rfl, rfl, rfl, rfl, rfl, rfl, ⟨rfl, rfl, rfl, rfl⟩, id⟩)
    · cases h
  | regRead addr bytes =>
    have hr := hnot (.regRead addr bytes) (by simp) (by simp)
    simp only [act] at h
    split at h
    · cases h
    · injection h with h
      subst h
      exact .inr (.inr ⟨hr, rfl, rfl, rfl, rfl, rfl, rfl, ⟨rfl, rfl, rfl, rfl⟩, id⟩)
  | memWrite addr v =>
    injection h with h
    subst h
    refine .inr (.inr ⟨hnot _ (by simp) (by simp), rfl, rfl, rfl, rfl, rfl, rfl, ⟨rfl, rfl, rfl, rfl⟩, fun hw => ?_⟩)
    exact Memory.wf_write hw fun _ => by have := addr.isLt; simp; omega
  | memRead addr =>
    injection h with h
    subst h
    exact .inr (.inr ⟨hnot _ (by simp) (by simp), rfl, rfl, rfl, rfl, rfl, rfl, ⟨rfl, rfl, rfl, rfl⟩, id⟩)
  | moveCursor k c =>
    simp only [act] at h
    split at h
    · cases h
    · injection h with h
      subst h
      exact .inr (.inr ⟨hnot _ (by simp) (by simp), rfl, rfl, rfl, rfl, rfl, rfl, sameLaunch_srcSeek _ _ _, id⟩)
  | reset =>
    injection h with h
    subst h
    exact .inr (.inl ⟨.inl rfl, wasReset_resetCore rfl rfl (.refl s) id⟩)
  | commandThenReset w =>
    injection h with h
    subst h
    exact .inr (.inl ⟨.inr ⟨w, rfl⟩, wasReset_interruptedReset w s⟩)

/-- A step does nothing, with no action pending, or takes the first one. -/
theorem step_cases {s t : State} (h : step s = .next t) :
    t = s ∧ s.host = [] ∨ ∃ a rest, s.host = a :: rest ∧ act a { s with host := rest } = .next t := by
  unfold step at h
  split at h
  · rename_i h0
    injection h with h
    exact .inl ⟨h.symm, h0⟩
  · rename_i a rest h0
    exact .inr ⟨a, rest, h0, h⟩

end Sys2Proof.Machine
end

