-- ==== Sys2Proof/Laws/Encoding.lean ====
section
/-! SUPPORT. The fields of a packed command word (spec/30_encoding.md rule R70), and the opcode table of rule R80. -/

namespace Sys2Proof

/-! ## The fields of a packed word -/

section Fields
variable (op : Byte) (slot : BitVec 4) (whence : BitVec 2) (kind : BitVec 1) (n : BitVec 5)

@[simp] theorem opField_packWord : opField (packWord op slot whence kind n) = op := by
  apply BitVec.eq_of_getLsbD_eq
  intro i hi
  interval_cases i <;> simp [opField, packWord, placeField]

@[simp] theorem slotField_packWord : slotField (packWord op slot whence kind n) = slot := by
  apply BitVec.eq_of_getLsbD_eq
  intro i hi
  interval_cases i <;> simp [slotField, packWord, placeField]

@[simp] theorem whenceField_packWord : whenceField (packWord op slot whence kind n) = whence := by
  apply BitVec.eq_of_getLsbD_eq
  intro i hi
  interval_cases i <;> simp [whenceField, packWord, placeField]

@[simp] theorem kindField_packWord : kindField (packWord op slot whence kind n) = kind := by
  apply BitVec.eq_of_getLsbD_eq
  intro i hi
  interval_cases i
  simp [kindField, packWord, placeField]

@[simp] theorem nField_packWord : nField (packWord op slot whence kind n) = n := by
  apply BitVec.eq_of_getLsbD_eq
  intro i hi
  interval_cases i <;> simp [nField, packWord, placeField]

@[simp] theorem reservedSet_packWord : reservedSet (packWord op slot whence kind n) = false := by
  unfold reservedSet
  rw [Bool.or_eq_false_iff, bne_eq_false_iff_eq, bne_eq_false_iff_eq]
  constructor <;>
    (apply BitVec.eq_of_getLsbD_eq
     intro i hi
     interval_cases i <;> simp [packWord, placeField])

end Fields

/-- The reserved bits of R71 as one mask. -/
theorem reservedSet_eq_false_iff (w : Word) : reservedSet w = false ↔ w &&& 0xFFE08000#32 = 0 := by
  unfold reservedSet
  rw [Bool.or_eq_false_iff, bne_eq_false_iff_eq, bne_eq_false_iff_eq]
  constructor
  · rintro ⟨h1, h2⟩
    apply BitVec.eq_of_getLsbD_eq
    intro i hi
    have h1' := congrArg (fun b => b.getLsbD (i - 21)) h1
    have h2' := congrArg (fun b => b.getLsbD (i - 15)) h2
    clear h1 h2
    interval_cases i <;> simp_all
  · intro h
    have hb : ∀ i, (w.getLsbD i && (0xFFE08000#32).getLsbD i) = false := fun i => by
      have := congrArg (fun b => b.getLsbD i) h
      simpa using this
    constructor <;>
      (apply BitVec.eq_of_getLsbD_eq
       intro i hi
       have h21 := hb (21 + i)
       have h15 := hb (15 + i)
       interval_cases i <;> simp_all)

/-- A word whose reserved bits are clear is packed from its fields (R70). -/
theorem word_of_fields {w : Word} (h : reservedSet w = false) :
    w = packWord (opField w) (slotField w) (whenceField w) (kindField w) (nField w) := by
  rw [reservedSet_eq_false_iff] at h
  have hb : ∀ i, (w.getLsbD i && (0xFFE08000#32).getLsbD i) = false := fun i => by
    have := congrArg (fun b => b.getLsbD i) h
    simpa using this
  apply BitVec.eq_of_getLsbD_eq
  intro i hi
  have := hb i
  clear h hb
  interval_cases i <;> simp_all [packWord, placeField, opField, slotField, whenceField, kindField, nField]

@[simp] theorem Whence.ofField_toField (w : Whence) : Whence.ofField w.toField = w := by cases w <;> rfl

@[simp] theorem SeqKind.ofField_toField (k : SeqKind) : SeqKind.ofField k.toField = k := by cases k <;> rfl

/-! ## What the decoder answers -/

/-- If the decoder answers a command, the word's reserved bits are clear, its OP is a row of rule R80, the fields the row
does not permit are zero, and the command is the row's with the word's fields. -/
theorem decode_ok {w : Word} {i : Instr} (h : decode w = .ok i) :
    reservedSet w = false ∧
      ∃ p mk, opRow (opField w) = some (p, mk) ∧ fieldsPermitted p w = true ∧ mk (fieldsOf w) = i := by
  unfold decode at h
  split at h
  · cases h
  · rename_i hres
    rw [Bool.not_eq_true] at hres
    split at h
    · cases h
    · rename_i p mk hrow
      split at h
      · rename_i hp
        injection h with h
        exact ⟨hres, p, mk, hrow, hp, h⟩
      · cases h

/-- Why the decoder rejects a word, in the priority of rule R245. -/
theorem decode_error {w : Word} {d : DecodeError} (h : decode w = .error d) :
    (d = .reservedBits ∧ reservedSet w = true) ∨
      (d = .unknownOp ∧ reservedSet w = false ∧ opRow (opField w) = none) ∨
      (d = .field ∧ reservedSet w = false ∧
        ∃ p mk, opRow (opField w) = some (p, mk) ∧ fieldsPermitted p w = false) := by
  unfold decode at h
  split at h
  · rename_i hres
    injection h with h
    exact .inl ⟨h.symm, hres⟩
  · rename_i hres
    rw [Bool.not_eq_true] at hres
    split at h
    · rename_i hrow
      injection h with h
      exact .inr (.inl ⟨h.symm, hres, hrow⟩)
    · rename_i p mk hrow
      split at h
      · cases h
      · rename_i hp
        rw [Bool.not_eq_true] at hp
        injection h with h
        exact .inr (.inr ⟨h.symm, hres, p, mk, hrow, hp⟩)

/-! ## The opcode table -/

/-- One command of each row of rule R80. -/
def sampleCommands : List Instr :=
  [.nop, .keyload, .clrerr, .srcSetpos, .srcGetpos, .bfcEnc, .bfcDec, .bteaDec, .bteaEnc, .vbtDec, .vbtEnc, .vbtDecn 0,
    .vbtEncn 0, .absOpen 0, .absRead 0, .absSeek 0 .fromBegin, .absLen 0, .absPos 0, .absWrite 0, .absFlush 0,
    .absSetlen 0, .seqOpen 0 .blockTea, .seqRead 0, .seqSeek 0 .fromBegin, .seqWrite 0, .seqFlush 0, .seqSetlen 0,
    .close 0]

/-- No word is the command of two rows: the patterns differ on bits both masks fix. -/
theorem rows_disjoint :
    (sampleCommands.map Instr.row).Pairwise (fun r q => r.pattern &&& q.mask ≠ q.pattern &&& r.mask) := by
  decide +kernel

end Sys2Proof
end

