-- ==== Sys2Proof/Laws/Footprint.lean ====
section
/-! SUPPORT. The footprint of a command is sound: run to its end, the command changes no host byte and no source outside
it. -/

namespace Sys2Proof.Machine

/-- A state whose host memory and sources are those of `s`. -/
theorem onlyFootprint_quiet {p : Footprint} {s t : State} (hm : t.mem = s.mem) (hs : t.sources = s.sources) :
    OnlyFootprint p s t where
  bytes := fun _ _ => by rw [hm]
  others := fun h _ => by rw [sourceOf, hs, sourceOf]
  cursor := fun h _ => .inl (by rw [sourceOf, hs, sourceOf])

/-- A state whose sources are those of `s`, or those after a seek of the footprint's source. -/
theorem onlyFootprint_seek {p : Footprint} {s t : State} {h : Nat} (hp : p.source = some h)
    (hs : t.sources = s.sources ∨ ∃ c, t.sources = (srcSeek s h c).sources)
    (hb : ∀ x, (∀ r, p.span = some r → ¬(r.addr ≤ x ∧ x < r.addr + r.count)) →
      Memory.byte t.mem x = Memory.byte s.mem x) : OnlyFootprint p s t := by
  rcases hs with hs | ⟨c, hs⟩
  · have hk : ∀ k, sourceOf t k = sourceOf s k := fun k => by rw [sourceOf, hs, sourceOf]
    exact ⟨hb, fun k _ => hk k, fun k _ => .inl (hk k)⟩
  · have hc := cursorSet_srcSeek (s := s) (t := t) hs
    refine ⟨hb, fun k hk => hc.2 k (by rintro rfl; exact hk hp), fun k hk => ?_⟩
    rw [hp] at hk
    injection hk with hk
    exact .inr ⟨c, hk ▸ hc.1⟩

/-- A command that is its checks and its effect. -/
theorem onlyFootprint_command {α : Type} {p : Footprint} {s t : State} {checks : Except Failure α} {effect : α → Result}
    (h : command s checks effect = .next t) (he : ∀ x, checks = .ok x → effect x = .next t → OnlyFootprint p s t) :
    OnlyFootprint p s t := by
  rcases command_spec s checks effect with ⟨f, -, hc⟩ | ⟨x, hx, hc⟩
  · rw [hc] at h
    injection h with h
    exact h ▸ onlyFootprint_quiet rfl rfl
  · exact he x hx (hc ▸ h)

/-- A command whose effect reaches neither host memory nor a source. -/
theorem onlyFootprint_reports {α : Type} {p : Footprint} {s t : State} {checks : Except Failure α}
    {effect : α → Result} (h : command s checks effect = .next t)
    (he : ∀ x, ∃ u, effect x = .next u ∧ u.mem = s.mem ∧ u.sources = s.sources) : OnlyFootprint p s t := by
  refine onlyFootprint_command h fun x _ hx => ?_
  obtain ⟨u, hu, hm, hs⟩ := he x
  rw [hu] at hx
  injection hx with hx
  exact hx ▸ onlyFootprint_quiet hm hs

/-- A cipher command in place, over a range below 2^64. -/
theorem onlyFootprint_inPlace {s t : State} {f : List Byte → List Byte} {operand : Except Failure Span}
    (hw : Memory.wf s.mem = true)
    (hr : ∀ r, operand = .ok r →
      (r.count ≠ 0 → r.addr + r.count ≤ 2 ^ 64) ∧ (f (memRead s r.addr r.count)).length = r.count)
    (h : command s operand (inPlace s f) = .next t) : OnlyFootprint (cipherFootprint operand) s t := by
  refine onlyFootprint_command h fun r ho he => ?_
  obtain ⟨hle, hl⟩ := hr r ho
  subst ho
  injection he with he
  subst he
  have hm := sameMemoryOutside_memWrite hw (a := r.addr) (bs := f (memRead s r.addr r.count)) fun hne => by
    rw [hl]
    exact hle fun h0 => hne (List.length_eq_zero_iff.1 (hl.trans h0))
  rw [hl] at hm
  exact ⟨fun x hx => hm x (hx r rfl), fun _ _ => rfl, fun _ _ => .inl rfl⟩

/-- ABS.OPEN moves the cursor of its source alone. -/
theorem onlyFootprint_absOpen {slot : Nat} {s t : State} (h : exec (.absOpen slot) s = .next t) :
    OnlyFootprint (footprint (.absOpen slot) s) s t := by
  refine onlyFootprint_command h fun o ho he => ?_
  have hc := onlyCursor_srcRead s s.a0.toNat o.source o.offset.toNat 4
  suffices hk : t.mem = s.mem ∧ (t.sources = s.sources ∨ ∃ c, t.sources = (srcSeek s s.a0.toNat c).sources) from
    onlyFootprint_seek (h := s.a0.toNat) (by simp [footprint, sourceFootprint, ho]) hk.2 fun _ _ => by rw [hk.1]
  unfold absOpenEffect at he
  simp only at he
  generalize srcRead s s.a0.toNat o.source o.offset.toNat 4 = q at he hc
  obtain ⟨s1, raw⟩ := q
  have hfail : ∀ f, absOpenFails s1 s.a0.toNat o.offset f = .next t →
      t.mem = s.mem ∧ (t.sources = s.sources ∨ ∃ c, t.sources = (srcSeek s s.a0.toNat c).sources) := by
    intro f hf
    injection hf with hf
    exact hf ▸ ⟨hc.mem, .inr ⟨_, hc.seek _⟩⟩
  cases raw with
  | none => exact hfail _ he
  | some raw =>
    simp only at he
    split at he
    · exact hfail _ he
    · split at he
      · exact hfail _ he
      · injection he with he
        exact he ▸ ⟨hc.mem, hc.sources⟩

/-- ABS.READ changes the bytes it delivers and the cursor of its source alone. -/
theorem onlyFootprint_absRead {slot : Nat} {s t : State} (hw : Memory.wf s.mem = true)
    (h : exec (.absRead slot) s = .next t) : OnlyFootprint (footprint (.absRead slot) s) s t := by
  refine onlyFootprint_command h fun o ho he => ?_
  obtain ⟨f, r⟩ := o
  have hlow := absReadOperand_below ho
  have hp : footprint (.absRead slot) s
      = if absReadCount f r.count = 0 then .nothing else ⟨some ⟨r.addr, absReadCount f r.count⟩, some f.src⟩ := by
    simp [footprint, absReadFootprint, ho]
  unfold absReadEffect at he
  simp only at he
  split at he
  · injection he with he
    exact he ▸ onlyFootprint_quiet rfl rfl
  · rename_i n hn
    rw [hn, if_neg (by omega)] at hp
    have hbelow : r.addr + (n + 1) ≤ 2 ^ 64 := by
      have := hn.symm.le.trans (Nat.min_le_left _ _)
      simp only at hlow
      omega
    split at he
    · cases he
    · rename_i src hsrc
      have hc := onlyCursor_runReads f src (readPlan f.length.toNat f.pos.toNat (n + 1)) s
      have hlen := @runReads_length f src (readPlan f.length.toNat f.pos.toNat (n + 1)) s
      have hk : planKeep (readPlan f.length.toNat f.pos.toNat (n + 1)) = n + 1 := by
        have := (covers_readPlan (length := f.length.toNat) (pos := f.pos.toNat) (n := n + 1) (by omega)
          (by unfold absReadCount at hn; omega)).keep
        omega
      unfold absReadSome at he
      generalize runReads f src (readPlan f.length.toNat f.pos.toNat (n + 1)) s = q at he hc hlen
      obtain ⟨s1, res⟩ := q
      have hw1 : Memory.wf s1.mem = true := hc.mem ▸ hw
      rw [hp]
      cases res with
      | error e =>
        injection he with he
        subst he
        refine onlyFootprint_seek rfl (.inr ⟨_, hc.seek _⟩) fun x hx => ?_
        rw [← hc.mem]
        exact byte_memHavoc_outside hw1 (fun _ => hbelow) (hx _ rfl)
      | ok out =>
        injection he with he
        subst he
        refine onlyFootprint_seek rfl (.inr ⟨_, hc.seek _⟩) fun x hx => ?_
        have hl := hlen out rfl
        have hx := hx _ rfl
        simp only at hx
        rw [← hc.mem]
        exact sameMemoryOutside_memWrite hw1 (fun _ => by omega) x (by omega)

/-- SEQ.READ changes the bytes its source delivers and the cursor of its source alone. -/
theorem onlyFootprint_seqRead {slot : Nat} {s t : State} (hw : Memory.wf s.mem = true)
    (h : exec (.seqRead slot) s = .next t) : OnlyFootprint (footprint (.seqRead slot) s) s t := by
  refine onlyFootprint_command h fun o ho he => ?_
  obtain ⟨⟨kind, f⟩, r⟩ := o
  have hlow := seqReadOperand_below ho
  unfold seqReadEffect at he
  simp only at he
  split at he
  · injection he with he
    exact he ▸ onlyFootprint_quiet rfl rfl
  · rename_i hn
    split at he
    · cases he
    · rename_i src hsrc
      have hp : footprint (.seqRead slot) s
          = ⟨some ⟨r.addr, (delivery src src.cursor.toNat r.count).length⟩, some f.src⟩ := by
        simp [footprint, seqReadFootprint, ho, hsrc, hn]
      have hc := onlyCursor_srcRead s f.src src src.cursor.toNat r.count
      rw [hp]
      unfold seqReadSome at he
      rcases srcRead_spec s f.src src src.cursor.toNat r.count with ⟨h1, -⟩ | h1
      · rw [h1] at he hc
        injection he with he
        subst he
        exact onlyFootprint_seek rfl hc.sources fun x _ => by rw [raise_mem, hc.mem]
      · rw [h1] at he hc
        injection he with he
        subst he
        refine onlyFootprint_seek rfl hc.sources fun x hx => ?_
        have hl : (seqDec kind f.key (delivery src src.cursor.toNat r.count)).length
            = (delivery src src.cursor.toNat r.count).length := by
          cases kind <;> simp [seqDec]
        have hd : (delivery src src.cursor.toNat r.count).length ≤ r.count := by
          rw [length_delivery]
          exact Nat.min_le_left _ _
        rw [← hc.mem]
        refine sameMemoryOutside_memWrite (hc.mem ▸ hw) (fun _ => by have := hlow hn; simp only at this; omega) x ?_
        rw [hl]; exact hx _ rfl

/-- Every command keeps to its footprint. -/
theorem onlyFootprint_of_exec {i : Instr} {s t : State} (hw : Memory.wf s.mem = true) (h : exec i s = .next t) :
    OnlyFootprint (footprint i s) s t := by
  have hA : ∀ f : List Byte → List Byte, (∀ x, (f x).length = x.length) →
      command s (cipherOperand s) (inPlace s f) = .next t →
      OnlyFootprint (cipherFootprint (cipherOperand s)) s t := fun f hf h =>
    onlyFootprint_inPlace hw (fun r hr => ⟨admittedSpan_below (cipherOperand_ok_inv hr).2, by simp [hf]⟩) h
  have hB : ∀ (least n : Nat) (f : List Word → List Word), (∀ v, (f v).length = v.length) →
      command s (cipherOperandN s least n) (inPlace s (onWords f)) = .next t →
      OnlyFootprint (cipherFootprint (cipherOperandN s least n)) s t := fun least n f hf h =>
    onlyFootprint_inPlace hw (fun r hr => by
      have hr := (cipherOperandN_ok_inv hr).2.2.2
      refine ⟨admittedSpan_below hr, ?_⟩
      obtain ⟨-, rfl, -⟩ := admittedSpan_ok_inv hr
      rw [length_onWords hf, length_memRead]
      simp only
      omega) h
  cases i with
  | nop => injection h with h; exact h ▸ onlyFootprint_quiet rfl rfl
  | clrerr => injection h with h; exact h ▸ onlyFootprint_quiet rfl rfl
  | keyload => exact onlyFootprint_reports h fun _ => ⟨_, rfl, rfl, rfl⟩
  | srcSetpos =>
    refine onlyFootprint_command h fun q hq he => ?_
    injection he with he
    subst he
    exact onlyFootprint_seek (h := s.a0.toNat) (by simp [footprint, sourceFootprint, hq]) (.inr ⟨_, rfl⟩)
      fun _ _ => rfl
  | srcGetpos => exact onlyFootprint_reports h fun _ => ⟨_, rfl, rfl, rfl⟩
  | bfcEnc => exact hA _ (length_bfcEnc s.key) h
  | bfcDec => exact hA _ (length_bfcDec s.key) h
  | bteaDec => exact hA _ (length_btDec s.key) h
  | bteaEnc => exact hA _ (length_btEnc s.key) h
  | vbtDec => exact hA _ (length_vbtDec s.key) h
  | vbtEnc => exact hA _ (length_vbtEnc s.key) h
  | vbtDecn n => exact hB 1 n _ (length_vbtDecWords s.key) h
  | vbtEncn n => exact hB 2 n _ (length_vbtEncWords s.key) h
  | absOpen slot => exact onlyFootprint_absOpen h
  | absRead slot => exact onlyFootprint_absRead hw h
  | absSeek slot whence =>
    refine onlyFootprint_command h fun f hf he => ?_
    unfold absSeekEffect at he
    split at he
    · cases he
    · injection he with he
      subst he
      exact onlyFootprint_seek (h := f.src) (by simp [footprint, sourceFootprint, hf]) (.inr ⟨_, rfl⟩)
        fun _ _ => rfl
  | absLen slot => exact onlyFootprint_reports h fun _ => ⟨_, rfl, rfl, rfl⟩
  | absPos slot => exact onlyFootprint_reports h fun _ => ⟨_, rfl, rfl, rfl⟩
  | absWrite slot => exact onlyFootprint_reports h fun _ => ⟨_, rfl, rfl, rfl⟩
  | absFlush slot => exact onlyFootprint_reports h fun _ => ⟨_, rfl, rfl, rfl⟩
  | absSetlen slot => exact onlyFootprint_reports h fun _ => ⟨_, rfl, rfl, rfl⟩
  | seqOpen slot kind => exact onlyFootprint_reports h fun _ => ⟨_, rfl, rfl, rfl⟩
  | seqRead slot => exact onlyFootprint_seqRead hw h
  | seqSeek slot whence => exact onlyFootprint_reports h fun _ => ⟨_, rfl, rfl, rfl⟩
  | seqWrite slot => exact onlyFootprint_reports h fun _ => ⟨_, rfl, rfl, rfl⟩
  | seqFlush slot => exact onlyFootprint_reports h fun _ => ⟨_, rfl, rfl, rfl⟩
  | seqSetlen slot => exact onlyFootprint_reports h fun _ => ⟨_, rfl, rfl, rfl⟩
  | close slot => exact onlyFootprint_reports h fun _ => ⟨_, rfl, rfl, rfl⟩

end Sys2Proof.Machine
end

