-- ==== Sys2Proof/Laws/PerInstr.lean ====
section
/-! SUPPORT. A statement made of every command: its word matches its row of rule R80's table. -/

namespace Sys2Proof.Laws.EncodesItsRow

/-- The word of a well-formed command meets the mask and match columns of its row (spec/30_encoding.md rule R80: "a word
`w` is the command when `w & mask == match`"). -/
def Statement (i : Instr) : Prop := i.wellFormed = true → encode i &&& i.row.mask = i.row.pattern

/-- A packed word under a mask that clears exactly the SLOT bits. -/
theorem slot_word (op : Byte) (slot : Nat) : packSlot op slot &&& 0xFFFFF0FF#32 = op.setWidth 32 := by
  apply BitVec.eq_of_getLsbD_eq
  intro i hi
  interval_cases i <;> simp [packSlot, packWord, placeField]

/-- A packed word under a mask that clears exactly the N bits. -/
theorem count_word (op : Byte) (n : Nat) : packCount op n &&& 0xFFE0FFFF#32 = op.setWidth 32 := by
  apply BitVec.eq_of_getLsbD_eq
  intro i hi
  interval_cases i <;> simp [packCount, packWord, placeField]

/-- A packed word under a mask that clears exactly the SLOT and WHENCE bits. -/
theorem seek_word (op : Byte) (slot : BitVec 4) (w : BitVec 2) :
    packWord op slot w 0 0 &&& 0xFFFFC0FF#32 = op.setWidth 32 := by
  apply BitVec.eq_of_getLsbD_eq
  intro i hi
  interval_cases i <;> simp [packWord, placeField]

/-- A packed word under a mask that clears exactly the SLOT and KIND bits. -/
theorem open_word (op : Byte) (slot : BitVec 4) (k : BitVec 1) :
    packWord op slot 0 k 0 &&& 0xFFFFB0FF#32 = op.setWidth 32 := by
  apply BitVec.eq_of_getLsbD_eq
  intro i hi
  interval_cases i <;> simp [packWord, placeField]

theorem nop : Statement .nop := fun _ => by decide
theorem keyload : Statement .keyload := fun _ => by decide
theorem clrerr : Statement .clrerr := fun _ => by decide
theorem srcSetpos : Statement .srcSetpos := fun _ => by decide
theorem srcGetpos : Statement .srcGetpos := fun _ => by decide
theorem bfcEnc : Statement .bfcEnc := fun _ => by decide
theorem bfcDec : Statement .bfcDec := fun _ => by decide
theorem bteaDec : Statement .bteaDec := fun _ => by decide
theorem bteaEnc : Statement .bteaEnc := fun _ => by decide
theorem vbtDec : Statement .vbtDec := fun _ => by decide
theorem vbtEnc : Statement .vbtEnc := fun _ => by decide
theorem vbtDecn (n : Nat) : Statement (.vbtDecn n) := fun _ => count_word _ n
theorem vbtEncn (n : Nat) : Statement (.vbtEncn n) := fun _ => count_word _ n
theorem absOpen (slot : Nat) : Statement (.absOpen slot) := fun _ => slot_word _ slot
theorem absRead (slot : Nat) : Statement (.absRead slot) := fun _ => slot_word _ slot
theorem absLen (slot : Nat) : Statement (.absLen slot) := fun _ => slot_word _ slot
theorem absPos (slot : Nat) : Statement (.absPos slot) := fun _ => slot_word _ slot
theorem absWrite (slot : Nat) : Statement (.absWrite slot) := fun _ => slot_word _ slot
theorem absFlush (slot : Nat) : Statement (.absFlush slot) := fun _ => slot_word _ slot
theorem absSetlen (slot : Nat) : Statement (.absSetlen slot) := fun _ => slot_word _ slot
theorem seqRead (slot : Nat) : Statement (.seqRead slot) := fun _ => slot_word _ slot
theorem seqWrite (slot : Nat) : Statement (.seqWrite slot) := fun _ => slot_word _ slot
theorem seqFlush (slot : Nat) : Statement (.seqFlush slot) := fun _ => slot_word _ slot
theorem seqSetlen (slot : Nat) : Statement (.seqSetlen slot) := fun _ => slot_word _ slot
theorem close (slot : Nat) : Statement (.close slot) := fun _ => slot_word _ slot
theorem absSeek (slot : Nat) (whence : Whence) : Statement (.absSeek slot whence) := fun _ => seek_word _ _ _
theorem seqSeek (slot : Nat) (whence : Whence) : Statement (.seqSeek slot whence) := fun _ => seek_word _ _ _
theorem seqOpen (slot : Nat) (kind : SeqKind) : Statement (.seqOpen slot kind) := fun _ => open_word _ _ _

end Sys2Proof.Laws.EncodesItsRow
end

