-- ==== Sys2Proof/Tests/Slice0.lean ====
section
/-! SUPPORT. Tests on words and vectors the spec gives, and for each statement with premises a state that meets them.
Expected values are those of spec/95_test_vectors.md, or written out from the encoding rules R70 and R80. -/

namespace Sys2Proof.Machine

/-! ## Helpers -/

/-- The `count` bytes a hexadecimal numeral spells, the first two digits first. -/
def hexBytes (v count : Nat) : List Byte := (List.range count).map fun i => BitVec.ofNat 8 (v >>> (8 * (count - 1 - i)))

/-- The bytes 00, 01, .. of 95_test_vectors.md. -/
def ascending (count : Nat) : List Byte := (List.range count).map (BitVec.ofNat 8)

/-- The key of 95_test_vectors.md section 2.1. -/
def vectorKey : Key := ⟨0x11223344, 0x55667788, 0x99AABBCC, 0xDDEEFF00⟩

/-- Its key buffer (section 2.1). -/
def vectorKeyBuffer : List Byte := hexBytes 0x44332211887766 7 ++ hexBytes 0x55ccbbaa9900ffeedd 9

/-- Source 0 of section 2.6. -/
def fixture : List Byte := hexBytes 0xa5a5a5a5a54fe8fd0199db172f8c852578bf21a8875b36910865ac2351a5c2e438201fa5b1640e25b4908de0d6ae1d39390a97dc8936cf0f8cb54e820311b76385d131551da0a2efa8367ecd0f537bcadd6ad02cc4dc6ad1bcda3ea6015ec77d9c5818aed8c265a6ca6ca6a3a01059c0104cb19a9623da8f953c080acd6a72efa62eb603ba954a032a1ad1f4b4a6138ef25dc6c532209f964a5cab16efeacc 159

/-- Source 1 of section 2.7. -/
def sequentialFixture : List Byte := hexBytes 0x3a1a21cc3deb0575ba9917a4303721698905f6c41db3f265611b85c5d899dd680794eb31e2115c9f88d8d7c1f83dce9660687c40f4b687a97c3eca87b0477fec28f94de97298d13a79155c21f9c72ad0083e9a1200ed5a40ca4f6d822f3d2fdadaad9afa8a5b5b7f8f9a1104e0bbbe4f24be638596c3e32813c8c6b5b25165b97ae726b40662d899 136

/-- The slots and sources the tests use: slot 0 Closed; slot 1 the stream of section 2.6 at position 60; slots 2 and 3
sequential streams over source 4; slot 4 the stream of section 2.6 over the first 100 bytes of its source; slots 5 and 6
streams over a source that may fail. Sources 2 and 3 are those of program P4. -/
def testBase : State :=
  { State.reset with
    status := 0x40000000, key := vectorKey,
    slots := [.closed, .aligned ⟨0, vectorKey, 9, 150, 60⟩, .seqBlockTea ⟨4, vectorKey⟩, .seqVbt ⟨4, vectorKey⟩,
      .aligned ⟨5, vectorKey, 9, 150, 60⟩, .aligned ⟨6, vectorKey, 9, 150, 60⟩, .seqVbt ⟨6, vectorKey⟩],
    sources := [some ⟨fixture, 0, false⟩, none, some ⟨hexBytes 0x997bdf48 4, 0, false⟩, some ⟨hexBytes 0x0102 2, 0, false⟩,
      some ⟨sequentialFixture, 0, false⟩, some ⟨fixture.take 100, 0, false⟩, some ⟨fixture, 0, true⟩],
    hostMem := [⟨0x1000, 16⟩, ⟨0x2000, 256⟩] }

/-- The memory of the tests: the key buffer at 0x1000, and 00, 01, .. at 0x2000. -/
def testMemory : Memory := Memory.write (Memory.write [] 0x1000 vectorKeyBuffer) 0x2000 (ascending 64)

/-- A test state with the argument registers it is given. -/
def withArgs (a0 a1 a2 a3 : U64) : State := { testBase with mem := testMemory, a0 := a0, a1 := a1, a2 := a2, a3 := a3 }

/-- The result of a command is a next state with a property. -/
def leads (r : Result) (p : State → Bool) : Bool :=
  match r with
  | .next t => p t
  | .fault _ => false
  | .refused _ => false

theorem leads_next {r : Result} {p : State → Prop} [DecidablePred p] (h : leads r (fun t => decide (p t)) = true) :
    ∃ t, r = .next t ∧ p t := by
  cases r with
  | next t => exact ⟨t, rfl, of_decide_eq_true h⟩
  | fault f => cases h
  | refused f => cases h

/-- The registers a command reports in. -/
def reports (t : State) (status : Word) (errinfo res : U64) : Bool :=
  t.status == status && t.errinfo == errinfo && t.res == res

/-- A cipher command over `count` bytes at 0x2000 leaves there the bytes of a numeral. -/
def inPlaceGives (i : Instr) (count : U64) (v len : Nat) : Bool :=
  leads (exec i (withArgs 0x2000 64 0 count)) fun t =>
    reports t 0x40000000 0 0 && memRead t 0x2000 len == hexBytes v len

/-! ## WellFormed: each check refuses an ill-formed term -/

theorem test_wellFormed_slot : [Instr.absOpen 16, .absRead 16, .absSeek 16 .fromBegin, .absLen 16, .absPos 16,
    .absWrite 16, .absFlush 16, .absSetlen 16, .seqOpen 16 .blockTea, .seqRead 16, .seqSeek 16 .fromEnd, .seqWrite 16,
    .seqFlush 16, .seqSetlen 16, .close 16].all (fun i => !i.wellFormed) = true := by decide

theorem test_wellFormed_count : (Instr.vbtDecn 32).wellFormed = false ∧ (Instr.vbtEncn 32).wellFormed = false := by
  decide

theorem test_wellFormed_accepts : (Instr.close 15).wellFormed = true ∧ (Instr.vbtDecn 31).wellFormed = true ∧
    (Instr.absSeek 15 .three).wellFormed = true := by decide

/-! ## Decode: each command's word, written out from R70 and R80 -/

theorem test_decode_control : decode 0b00000000000000000000000000000000 = .ok .nop ∧
    decode 0b00000000000000000000000000000001 = .ok .keyload ∧
    decode 0b00000000000000000000000000000010 = .ok .clrerr ∧
    decode 0b00000000000000000000000000000011 = .ok .srcSetpos ∧
    decode 0b00000000000000000000000000000100 = .ok .srcGetpos ∧
    decode 0b00000000000000000000101101100000 = .ok (.close 11) := by decide

theorem test_decode_ciphers : decode 0b00000000000000000000000000010000 = .ok .bfcEnc ∧
    decode 0b00000000000000000000000000010001 = .ok .bfcDec ∧
    decode 0b00000000000000000000000000100000 = .ok .bteaDec ∧
    decode 0b00000000000000000000000000100001 = .ok .bteaEnc ∧
    decode 0b00000000000000000000000000110000 = .ok .vbtDec ∧
    decode 0b00000000000000000000000000110001 = .ok .vbtEnc ∧
    decode 0b00000000000010110000000000110010 = .ok (.vbtDecn 11) ∧
    decode 0b00000000000100100000000000110011 = .ok (.vbtEncn 18) := by decide

theorem test_decode_aligned : decode 0b00000000000000000000001001000000 = .ok (.absOpen 2) ∧
    decode 0b00000000000000000000010001000001 = .ok (.absRead 4) ∧
    decode 0b00000000000000000010100001000010 = .ok (.absSeek 8 .fromEnd) ∧
    decode 0b00000000000000000011000101000010 = .ok (.absSeek 1 .three) ∧
    decode 0b00000000000000000000110101000011 = .ok (.absLen 13) ∧
    decode 0b00000000000000000000111001000100 = .ok (.absPos 14) ∧
    decode 0b00000000000000000000000101000101 = .ok (.absWrite 1) ∧
    decode 0b00000000000000000000111101000110 = .ok (.absFlush 15) ∧
    decode 0b00000000000000000000011101000111 = .ok (.absSetlen 7) := by decide

theorem test_decode_sequential : decode 0b00000000000000000100001001010000 = .ok (.seqOpen 2 .variableBlockTea) ∧
    decode 0b00000000000000000000100101010000 = .ok (.seqOpen 9 .blockTea) ∧
    decode 0b00000000000000000000010001010001 = .ok (.seqRead 4) ∧
    decode 0b00000000000000000001100001010010 = .ok (.seqSeek 8 .fromCurrent) ∧
    decode 0b00000000000000000000110101010011 = .ok (.seqWrite 13) ∧
    decode 0b00000000000000000000111001010100 = .ok (.seqFlush 14) ∧
    decode 0b00000000000000000000001101010101 = .ok (.seqSetlen 3) := by decide

/-- The rejected words of section 2.8, and one with KIND set where it may not be. -/
theorem test_decode_rejects : decode 0x00008000 = .error .reservedBits ∧ decode 0x000000FF = .error .unknownOp ∧
    decode 0x00000110 = .error .field ∧ decode 0x002080FF = .error .reservedBits ∧ decode 0x00004041 = .error .field := by
  decide

/-! ## The cipher commands (sections 2.2 to 2.5) -/

theorem test_bfcEnc : inPlaceGives .bfcEnc 16 0xccadafe0a2dd9258462a3dab1d9b3402 16 = true := by decide +kernel

theorem test_bfcEnc_tail_kept : inPlaceGives .bfcEnc 12 0x5534f5e0a2dd0bbc1945ad980c0d0e0f 16 = true := by decide +kernel

theorem test_bfcDec : inPlaceGives .bfcDec 17 0xdda7ef0240ce152ee28f9f0347eaf13226 17 = true := by decide +kernel

theorem test_bfcDec_one : inPlaceGives .bfcDec 1 0xaa01 2 = true := by decide +kernel

theorem test_bteaDec_leftovers : inPlaceGives .bteaDec 15 0x2c2cc3d96b5b1a4c08090a0b0c0d0e0f 16 = true := by
  decide +kernel

theorem test_bteaEnc : inPlaceGives .bteaEnc 16 0x3a1a21cc3deb0575ba9917a430372169 16 = true := by decide +kernel

theorem test_vbtDec_tails : inPlaceGives .vbtDec 11 0x40df1d27aa9a59d29d47e3 11 = true := by decide +kernel

theorem test_vbtDec_block : inPlaceGives .vbtDec 64
    0x71f3d84722587351fe30e55924ce0acbcb5cefaac73bae9035fc4631d90b3e30830c35cdb028af607cf93bdb0c5762fa93e68b13dde8e2d955658c4dbc61ec06
    64 = true := by decide +kernel

theorem test_vbtEnc : inPlaceGives .vbtEnc 9 0x5bce690bba6d463e54 9 = true := by decide +kernel

theorem test_vbtDecn_one : inPlaceGives (.vbtDecn 1) 99 0x641d60ed04050607 8 = true := by decide +kernel

theorem test_vbtDecn_three : inPlaceGives (.vbtDecn 3) 0 0x3183eac8ce00bebe858f61f8 12 = true := by decide +kernel

theorem test_vbtEncn : inPlaceGives (.vbtEncn 5) 0 0xbc131335375953e2723f1aee96315797ddcf33ad14 21 = true := by
  decide +kernel

/-- The collision of R144: two words decrypt to one. -/
theorem test_vbt_collision : vbtDecWords vectorKey [0x52] = [0xF0635259] ∧ vbtDecWords vectorKey [0x4F] = [0xF0635259] := by
  decide +kernel

/-! ## The control commands (section 2.8, programs P1 to P3) -/

theorem test_nop : leads (exec .nop { withArgs 0 0 0 0 with status := 0xC0000000 }) (fun t => reports t 0xC0000000 0 0) = true := by
  decide +kernel

theorem test_keyload : leads (exec .keyload { withArgs 0x1000 0 0 0 with status := 0, key := ⟨0, 0, 0, 0⟩ })
    (fun t => reports t 0x40000000 0 0 && t.key == vectorKey) = true := by decide +kernel

theorem test_keyload_range : leads (exec .keyload { withArgs 0x1008 0 0 0 with status := 0 })
    (fun t => reports t 0x80000082 0x1010 0) = true := by decide +kernel

theorem test_clrerr : leads (exec .clrerr { withArgs 0 0 0 0 with status := 0xC0010002 })
    (fun t => reports t 0x40000000 0 0) = true := by decide +kernel

theorem test_srcSetpos : leads (exec .srcSetpos (withArgs 4 64 0 0))
    (fun t => reports t 0x40000000 0 64 && (sourceOf t 4).map Source.cursor == some 64) = true := by decide +kernel

theorem test_srcGetpos : leads (exec .srcGetpos { withArgs 4 0 0 0 with
      sources := [none, none, none, none, some ⟨sequentialFixture, 136, false⟩] })
    (fun t => reports t 0x40000000 0 136) = true := by decide +kernel

theorem test_close : leads (exec (.close 1) (withArgs 0 0 0 0))
    (fun t => reports t 0x40000000 0 0 && t.slots[1]? == some .closed) = true := by decide +kernel

/-! ## AlignedBlockStream (section 2.6, programs P2 and P4) -/

theorem test_absOpen : leads (exec (.absOpen 0) (withArgs 0 5 0x1000 0)) (fun t => reports t 0x40000000 0 150 &&
    t.slots[0]? == some (.aligned ⟨0, vectorKey, 9, 150, 0⟩) && (sourceOf t 0).map Source.cursor == some 9) = true := by
  decide +kernel

theorem test_absOpen_short : leads (exec (.absOpen 0) (withArgs 3 0 0x1000 0)) (fun t => reports t 0xC0020103 2 0 &&
    t.slots[0]? == some .closed && (sourceOf t 3).map Source.cursor == some 0) = true := by decide +kernel

theorem test_absRead : leads (exec (.absRead 1) (withArgs 0x2000 256 16 10)) (fun t => reports t 0x40000000 0 10 &&
    memRead t 0x2010 10 == hexBytes 0xa7aeb5bcc3cad1d8dfe6 10 && memRead t 0x200F 1 == [0x0F] && memRead t 0x201A 1 == [0x1A] &&
    t.slots[1]? == some (.aligned ⟨0, vectorKey, 9, 150, 70⟩)) = true := by decide +kernel

/-- A read of three blocks, clamped to the 90 bytes left. -/
theorem test_absRead_clamps : leads (exec (.absRead 1) (withArgs 0x2000 256 0 100)) (fun t => reports t 0x40000000 0 90 &&
    memRead t 0x2000 90 == (List.range 90).map (fun i => BitVec.ofNat 8 (7 * (60 + i) + 3))) = true := by decide +kernel

theorem test_absSeek : leads (exec (.absSeek 1 .fromEnd) (withArgs 0xFFFFFFFFFFFFFFFB 0 0 0))
    (fun t => reports t 0x40000000 0 145 && (sourceOf t 0).map Source.cursor == some 154) = true := by decide +kernel

theorem test_absSeek_clamps : leads (exec (.absSeek 1 .fromCurrent) (withArgs 0xFFFFFFFFFFFFFF00 0 0 0))
    (fun t => reports t 0x40000000 0 0 && (sourceOf t 0).map Source.cursor == some 9) = true := by decide +kernel

theorem test_absLen : leads (exec (.absLen 1) (withArgs 0 0 0 0)) (fun t => reports t 0x40000000 0 150) = true := by
  decide +kernel

theorem test_absPos : leads (exec (.absPos 1) (withArgs 0 0 0 0)) (fun t => reports t 0x40000000 0 60) = true := by
  decide +kernel

theorem test_absWrite : leads (exec (.absWrite 1) (withArgs 0 0 0 0)) (fun t => reports t 0xC0010002 0 0) = true := by
  decide +kernel

theorem test_absFlush : leads (exec (.absFlush 1) (withArgs 0 0 0 0)) (fun t => reports t 0xC0020002 0 0) = true := by
  decide +kernel

theorem test_absSetlen : leads (exec (.absSetlen 1) (withArgs 0 0 0 0)) (fun t => reports t 0xC0030002 0 0) = true := by
  decide +kernel

/-! ## SequentialCipherStream (section 2.7, program P3) -/

theorem test_seqOpen : leads (exec (.seqOpen 0 .variableBlockTea) (withArgs 4 0 0x1000 0)) (fun t => reports t 0x40000000 0 0 &&
    t.slots[0]? == some (.seqVbt ⟨4, vectorKey⟩) && (sourceOf t 4).map Source.cursor == some 0) = true := by decide +kernel

theorem test_seqOpen_open : leads (exec (.seqOpen 1 .blockTea) (withArgs 4 0 0x1000 0))
    (fun t => reports t 0xC0040081 1 0) = true := by decide +kernel

theorem test_seqRead_blockTea : leads (exec (.seqRead 2) (withArgs 0x2000 256 0 12)) (fun t => reports t 0x40000000 0 12 &&
    memRead t 0x2000 12 == hexBytes 0x0001020304050607ba9917a4 12 && (sourceOf t 4).map Source.cursor == some 12) = true := by
  decide +kernel

/-- A short delivery at the end of the source is a normal result. -/
theorem test_seqRead_short : leads (exec (.seqRead 3) { withArgs 0x2000 256 0 100 with
      sources := [none, none, none, none, some ⟨sequentialFixture, 64, false⟩] })
    (fun t => reports t 0x40000000 0 72 && memRead t 0x2000 72 == (List.range 72).map (fun i => BitVec.ofNat 8 (0x80 + i)) &&
      (sourceOf t 4).map Source.cursor == some 136) = true := by decide +kernel

theorem test_seqSeek : leads (exec (.seqSeek 3 .three) (withArgs 0 0 0 0)) (fun t => reports t 0xC0040002 0 0) = true := by
  decide +kernel

theorem test_seqWrite : leads (exec (.seqWrite 3) (withArgs 0 0 0 0)) (fun t => reports t 0xC0010002 0 0) = true := by
  decide +kernel

theorem test_seqFlush : leads (exec (.seqFlush 3) (withArgs 0 0 0 0)) (fun t => reports t 0xC0020002 0 0) = true := by
  decide +kernel

theorem test_seqSetlen : leads (exec (.seqSetlen 1) (withArgs 0 0 0 0)) (fun t => reports t 0xC0030081 1 0) = true := by
  decide +kernel

/-! ## The step and the host -/

/-- Program P1's first statement, as the first command after reset. -/
theorem test_step_word : leads (step (State.reset.withFetchWord 32 0xFF)) (fun t => reports t 0x80010080 0xFF 0 && t.cmd == 0xFF) = true := by
  decide +kernel

theorem test_halves : leads (act (.regWrite 0x0C 4 0x11223344) (withArgs 0x55667788 0 0 0))
    (fun t => t.a0 == 0x1122334455667788) = true := by decide +kernel

theorem test_params : leads (act (.regRead 0x58 4) (withArgs 0 0 0 0)) (fun t => t.hostData == 0x707) = true := by
  decide +kernel

theorem test_reset : leads (act .reset (withArgs 1 2 3 4)) (fun t => t.status == 0 && t.a3 == 0 && t.key == ⟨0, 0, 0, 0⟩ &&
    t.slots == List.replicate 7 .closed && t.mem == testMemory) = true := by decide +kernel

theorem test_assemble : assemble "keyload 0x1000 ; P1\nVBT.decn 4, 0x2000, 16, 0\n.word 0x000000ff"
    = some [.mov 0 0x1000, .command .keyload, .mov 0 0x2000, .mov 1 16, .mov 2 0, .command (.vbtDecn 4), .word 0xFF] := by
  decide +kernel

/-! ## States that meet the premises of the statements -/

theorem attached_testBase {s : State} (hs : s.sources = testBase.sources) {h : Nat} {src : Source}
    (h1 : sourceOf s h = some src) : src.data.length < 2 ^ 63 := by
  have hall : ∀ o ∈ testBase.sources, ∀ x, o = some x → x.data.length < 2 ^ 63 := by decide +kernel
  unfold sourceOf at h1
  rw [hs] at h1
  cases h2 : testBase.sources[h]? with
  | none => rw [h2] at h1; cases h1
  | some o =>
    rw [h2] at h1
    exact hall o (List.mem_of_getElem? h2) src h1

theorem good_withArgs (a0 a1 a2 a3 : U64) (host : List HostAction) : ({ withArgs a0 a1 a2 a3 with host := host }).Good where
  mem := by
    show Memory.wf testMemory = true
    decide +kernel
  status := by
    have h : StatusGood (withArgs 0 0 0 0) :=
      ⟨by decide, by decide, fun _ => by decide, fun h => absurd (by decide) h, fun _ => ⟨by decide, rfl⟩⟩
    exact h
  slots := by
    intro v hv
    have hv : v ∈ testBase.slots := hv
    simp only [testBase, List.mem_cons, List.not_mem_nil, or_false] at hv
    rcases hv with rfl | rfl | rfl | rfl | rfl | rfl | rfl
    · trivial
    · exact ⟨nofun, by decide, by decide, by decide, by decide⟩
    · exact nofun
    · exact nofun
    · exact ⟨nofun, by decide, by decide, by decide, by decide⟩
    · exact ⟨nofun, by decide, by decide, by decide, by decide⟩
    · exact nofun
  launch := by
    have h : LaunchGood (withArgs 0 0 0 0) :=
      ⟨by decide, by decide, fun _ _ h => attached_testBase rfl h, by decide, by decide⟩
    exact ⟨h.slots, h.sources, h.data, h.window, h.windowFree⟩

/-- Ranges inside the two regions of the tests are admitted. -/
theorem admitted_withArgs (a0 a1 a2 a3 : U64) {a n : Nat} (h : 0x1000 ≤ a ∧ a + n ≤ 0x1010 ∨ 0x2000 ≤ a ∧ a + n ≤ 0x2100) :
    Admitted (withArgs a0 a1 a2 a3) a n := by
  right
  refine ⟨by omega, fun x h1 h2 => ?_⟩
  show admits [⟨0x1000, 16⟩, ⟨0x2000, 256⟩] x = true
  simp only [admits, List.any_cons, List.any_nil, Region.contains, Bool.or_false, Bool.or_eq_true, Bool.and_eq_true,
    decide_eq_true_eq]
  omega

theorem keyAt_withArgs (a0 a1 a2 a3 : U64) : KeyAt (withArgs a0 a1 a2 a3) 0x1000 vectorKey := by
  show ∀ j, j < 4 → vectorKey.word j = le32 (Memory.byte testMemory (0x1000 + 4 * j)) (Memory.byte testMemory (0x1000 + 4 * j + 1))
    (Memory.byte testMemory (0x1000 + 4 * j + 2)) (Memory.byte testMemory (0x1000 + 4 * j + 3))
  decide +kernel

theorem wf_testMemory : Memory.wf testMemory = true := by decide +kernel

theorem bufValid_test : BufValid (withArgs 0x2000 16 0 16) 16 ∧ BufValid (withArgs 0x2000 16 16 0) 0 ∧
    BufValid (withArgs 0x2000 0x7FFFFFFF 0 0) 0x7FFFFFFF := by
  unfold BufValid
  decide

/-! The witnesses, one for each statement with premises, and for each of its clauses. -/

theorem witness_DecodeOfEncode : (Instr.seqOpen 15 .variableBlockTea).wellFormed = true ∧
    (Instr.vbtEncn 31).wellFormed = true := by decide

theorem witness_EncodeOfDecode : decode 0x00003F42 = .ok (.absSeek 15 .three) := by decide

theorem witness_RejectedWordsRaiseIllegalCommand :
    (0x00008000 : Word) &&& 0xFFE08000 ≠ 0 ∧ (0x00200000 : Word) &&& 0xFFE08000 ≠ 0 ∧
    ((0x00000005 : Word) &&& 0xFFE08000 = 0 ∧ (opField 0x00000005).toNat ∉ assignedOps) ∧
    ((0x001F7FFF : Word) &&& 0xFFE08000 = 0 ∧ (opField 0x001F7FFF).toNat ∉ assignedOps) ∧
    (0x00000F60 : Word) &&& (Instr.close 0).row.mask = (Instr.close 0).row.pattern := by decide

/-- A word with an assigned OP and a field its row does not permit. -/
theorem witness_RejectedWordsRaiseIllegalCommand_field :
    (0x00000110 : Word) &&& 0xFFE08000 = 0 ∧ (opField 0x00000110).toNat ∈ assignedOps ∧
      ∀ i : Instr, (0x00000110 : Word) &&& i.row.mask ≠ i.row.pattern := by
  refine ⟨by decide, by decide, fun i => ?_⟩
  cases i <;> simp [Instr.row]

theorem witness_StepRunsTheDecodedCommand : decode 0x00000160 = .ok (.close 1) ∧
    ({ withArgs 0 0 0 0 with host := [.regWrite 0 4 0x160, .reset] }).host = .regWrite 0 4 0x160 :: [.reset] ∧
    windowOffset { withArgs 0 0 0 0 with host := [.regWrite 0 4 0x160, .reset] } 0 = 0 ∧
    (0x160 : U64).setWidth 32 = (0x160 : Word) := ⟨by decide, rfl, rfl, by decide⟩

theorem witness_StepTakesOneHostAction : (withArgs 0 0 0 0).host = [] ∧
    ({ withArgs 0 0 0 0 with host := [.reset, .memRead 0] }).host = .reset :: [.memRead 0] ∧
    ∃ t, step { withArgs 0 0 0 0 with host := [.reset, .memRead 0] } = .next t := ⟨rfl, rfl, _, rfl⟩

theorem witness_StatementsRunAsWritten : (Instr.absRead 15).wellFormed = true := by decide

theorem witness_StepKeepsGood : ({ withArgs 0 0 0 0 with host := [.reset] }).Good ∧
    ∃ t, step { withArgs 0 0 0 0 with host := [.reset] } = .next t := ⟨good_withArgs _ _ _ _ _, _, rfl⟩

theorem witness_StepKeepsLaunch : ∃ t, step { withArgs 0 0 0 0 with host := [.moveCursor 0 7] } = .next t := by
  obtain ⟨t, h, -⟩ := leads_next (r := step { withArgs 0 0 0 0 with host := [.moveCursor 0 7] })
    (p := fun t => t.host = []) (by decide +kernel)
  exact ⟨t, h⟩

theorem witness_GoodStatesNeverFault :
    (({ withArgs 0 0 0 0 with host := [.regRead 0x34 4] }).Good ∧
      step { withArgs 0 0 0 0 with host := [.regRead 0x34 4] } = .refused .undefinedWindowAccess) ∧
    ({ withArgs 0 0 0 0 with host := [.moveCursor 1 0] }).Good ∧
      step { withArgs 0 0 0 0 with host := [.moveCursor 1 0] } = .refused .noSuchSource := by
  exact ⟨⟨good_withArgs _ _ _ _ _, rfl⟩, good_withArgs _ _ _ _ _, rfl⟩

theorem witness_EveryCommandEndsWithOneOutcome : (withArgs 0x2000 16 0 16).Good := good_withArgs _ _ _ _ []

theorem witness_ErrIsSticky :
    (∃ t, runCommand 0x8000 (withArgs 0 0 0 0) = .next t ∧ statusCause t.status ≠ 0) ∧
    (∃ t, runCommand 0 (withArgs 0 0 0 0) = .next t ∧ statusCause t.status = 0) ∧
    (∃ t, runCommand 2 (withArgs 0 0 0 0) = .next t ∧ True) ∧
    (∃ t, act .reset (withArgs 0 0 0 0) = .next t ∧ IsReset .reset) ∧
    statusErr ({ withArgs 0 0 0 0 with status := 0xC0010002 }).status = true ∧
    (∃ t, act (.regWrite 0 4 2) { withArgs 0 0 0 0 with status := 0xC0010002 } = .next t ∧
      statusErr t.status = false) :=
  ⟨leads_next (by decide +kernel), leads_next (by decide +kernel), leads_next (by decide +kernel), ⟨_, rfl, .inl rfl⟩,
    by decide, leads_next (by decide +kernel)⟩

theorem witness_CommandsKeepTheirInputs : ∃ t, runCommand 0x10 (withArgs 0x2000 16 0 16) = .next t ∧
    statusCause t.status = 0 := leads_next (by decide +kernel)

theorem witness_KeyChangesByKeyloadAlone :
    (∃ t, act .reset (withArgs 0 0 0 0) = .next t ∧ t.key ≠ (withArgs 0 0 0 0).key) ∧
    (∃ t, act (.regWrite 0 4 1) { withArgs 0x1000 0 0 0 with status := 0, key := ⟨0, 0, 0, 0⟩ } = .next t ∧
      statusKeyv t.status ≠ statusKeyv 0) := ⟨leads_next (by decide +kernel), leads_next (by decide +kernel)⟩

theorem witness_OpenSlotKeepsItsStream :
    (∃ t, act (.regWrite 0 4 0x160) (withArgs 0 0 0 0) = .next t ∧
      (withArgs 0 0 0 0).slots[1]? = some (.aligned ⟨0, vectorKey, 9, 150, 60⟩) ∧
      Slot.aligned ⟨0, vectorKey, 9, 150, 60⟩ ≠ .closed) ∧
    Admitted (withArgs 0x1000 0 0 0) 0x1000 16 ∧ KeyAt (withArgs 0x1000 0 0 0) 0x1000 vectorKey :=
  ⟨leads_next (by decide +kernel), admitted_withArgs _ _ _ _ (by omega), keyAt_withArgs _ _ _ _⟩

/-- A word that is no command, an ABS.OPEN over a short source and one of a bad length, an ABS.READ past its source. -/
theorem witness_FailuresLeaveWhatTheTableSays :
    ((withArgs 0 0 0x1000 0).Good ∧ (withArgs 3 0 0x1000 0).Good ∧ (withArgs 2 0 0x1000 0).Good ∧
      (withArgs 0x2000 256 0 90).Good) ∧
    (∃ t, runCommand 0x8000 (withArgs 0 0 0x1000 0) = .next t ∧ statusCause t.status ≠ 0 ∧ statusCause t.status ≠ 3 ∧
      statusCause t.status ≠ 0x83) ∧
    (decode 0x40 = .ok (.absOpen 0) ∧ ∃ t, runCommand 0x40 (withArgs 3 0 0x1000 0) = .next t ∧ statusCause t.status = 3) ∧
    (∃ t, runCommand 0x40 (withArgs 2 0 0x1000 0) = .next t ∧ statusCause t.status = 0x83) ∧
    decode 0x441 = .ok (.absRead 4) ∧
    (withArgs 0x2000 256 0 90).slots[4]? = some (.aligned ⟨5, vectorKey, 9, 150, 60⟩) ∧
    ∃ t, runCommand 0x441 (withArgs 0x2000 256 0 90) = .next t ∧ statusCause t.status = 3 :=
  ⟨⟨good_withArgs _ _ _ _ [], good_withArgs _ _ _ _ [], good_withArgs _ _ _ _ [], good_withArgs _ _ _ _ []⟩,
    leads_next (by decide +kernel), ⟨by decide, leads_next (by decide +kernel)⟩, leads_next (by decide +kernel),
    by decide, rfl, leads_next (by decide +kernel)⟩

theorem witness_KeyloadLoadsTheKey :
    Admitted (withArgs 0x1000 0 0 0) (withArgs 0x1000 0 0 0).a0.toNat 16 ∧
      KeyAt (withArgs 0x1000 0 0 0) (withArgs 0x1000 0 0 0).a0.toNat vectorKey :=
  ⟨admitted_withArgs _ _ _ _ (by decide), keyAt_withArgs _ _ _ _⟩

/-- A position past the end, the greatest i64. -/
theorem witness_SetposMovesOneCursor :
    sourceOf (withArgs 4 0x7FFFFFFFFFFFFFFF 0 0) 4 = some ⟨sequentialFixture, 0, false⟩ ∧
      0 ≤ (withArgs 4 0x7FFFFFFFFFFFFFFF 0 0).a1.toInt := ⟨rfl, by decide⟩

theorem witness_GetposReportsTheCursor : sourceOf (withArgs 6 0 0 0) 6 = some ⟨fixture, 0, true⟩ := rfl

theorem witness_CloseClosesTheSlot : 0 < nSlots (withArgs 0 0 0 0) ∧ 6 < nSlots (withArgs 0 0 0 0) := by decide

/-- A handle past the sources, one not attached, and a negative position, with a Closed slot and with every slot open. -/
theorem witness_SourceOperandsAreChecked :
    (withArgs 7 0 0 0).slots[0]? = some .closed ∧ sourceOf (withArgs 7 0 0 0) 7 = none ∧
    sourceOf (withArgs 1 0 0 0) 1 = none ∧ sourceOf (withArgs 0 0x8000000000000000 0 0) 0 = some ⟨fixture, 0, false⟩ ∧
    (withArgs 0 0x8000000000000000 0 0).a1.toInt < 0 ∧
    (sourceOf { withArgs 7 0xFFFFFFFFFFFFFFFF 0 0 with slots := [.seqVbt ⟨4, vectorKey⟩] } 7 = none ∧
      sourceOf { withArgs 0 0xFFFFFFFFFFFFFFFF 0 0 with slots := [.seqVbt ⟨4, vectorKey⟩] } 0 = some ⟨fixture, 0, false⟩ ∧
      (withArgs 0 0xFFFFFFFFFFFFFFFF 0 0).a1.toInt < 0) :=
  ⟨rfl, rfl, rfl, rfl, by decide, rfl, rfl, by decide⟩

/-- The four kinds of command of `TakesBuf`. -/
theorem witness_TakesBuf (a0 a1 a2 a3 : U64) :
    TakesBuf (withArgs a0 a1 a2 a3) .bteaEnc (withArgs a0 a1 a2 a3).a3.toInt ∧
    TakesBuf (withArgs a0 a1 a2 a3) (.vbtDecn 1) 4 ∧ TakesBuf (withArgs a0 a1 a2 a3) (.vbtEncn 16) 64 ∧
    TakesBuf (withArgs a0 a1 a2 a3) (.absRead 1) (withArgs a0 a1 a2 a3).a3.toInt ∧
    TakesBuf (withArgs a0 a1 a2 a3) (.seqRead 3) (withArgs a0 a1 a2 a3).a3.toInt :=
  have hk : statusKeyv 0x40000000 = true := by decide
  ⟨.inl ⟨by decide, hk, rfl⟩, .inr (.inl ⟨1, .inl ⟨rfl, by decide⟩, by decide, hk, rfl⟩),
    .inr (.inl ⟨16, .inr ⟨rfl, by decide⟩, by decide, hk, rfl⟩),
    .inr (.inr (.inl ⟨1, ⟨0, vectorKey, 9, 150, 60⟩, rfl, rfl, rfl⟩)),
    .inr (.inr (.inr ⟨3, ⟨4, vectorKey⟩, rfl, .inr rfl, rfl⟩))⟩

/-- The five checks, each at a boundary; `witness_TakesBuf` gives the command. -/
theorem witness_BufChecksRunInOrder :
    (withArgs 0 0 0xFFFFFFFFFFFFFFFF 0).a2.toInt < 0 ∧
    (0 ≤ (withArgs 0 0 0 0xFFFFFFFFFFFFFFFF).a2.toInt ∧ (withArgs 0 0 0 0xFFFFFFFFFFFFFFFF).a3.toInt < 0) ∧
    (0 ≤ (withArgs 0 0xFFFFFFFFFFFFFFFF 0 0).a3.toInt ∧ (withArgs 0 0xFFFFFFFFFFFFFFFF 0 0).a1.toInt < 0) ∧
    2 ^ 31 - 1 < (withArgs 0 0x80000000 0 0).a1.toInt ∧ 2 ^ 31 - 1 < (withArgs 0 0 0 0x80000000).a3.toInt ∧
    ((withArgs 0 0x7FFFFFFF 1 0x7FFFFFFF).a1.toInt ≤ 2 ^ 31 - 1 ∧ (withArgs 0 0x7FFFFFFF 1 0x7FFFFFFF).a3.toInt ≤ 2 ^ 31 - 1 ∧
      (withArgs 0 0x7FFFFFFF 1 0x7FFFFFFF).a1.toInt
        < (withArgs 0 0x7FFFFFFF 1 0x7FFFFFFF).a2.toInt + (withArgs 0 0x7FFFFFFF 1 0x7FFFFFFF).a3.toInt) := by decide

/-- A range that runs past 2^64, one that starts there, and for each kind of range one whose first gap ends a region. -/
theorem witness_HostRangesAreAdmittedFirst :
    (BufValid (withArgs 0xFFFFFFFFFFFFFFFF 16 0 2) 2 ∧ 2 ^ 64 < bufStart (withArgs 0xFFFFFFFFFFFFFFFF 16 0 2) + 2) ∧
    (BufValid (withArgs 0xFFFFFFFFFFFFFFFF 16 1 2) 2 ∧ bufStart (withArgs 0xFFFFFFFFFFFFFFFF 16 1 2) = 2 ^ 64) ∧
    (BufValid (withArgs 0x20FF 16 0 2) 2 ∧ bufStart (withArgs 0x20FF 16 0 2) + 2 ≤ 2 ^ 64 ∧
      admits (withArgs 0x20FF 16 0 2).hostMem 0x2100 = false ∧
      ∀ x, 0x20FF ≤ x → x < 0x2100 → admits (withArgs 0x20FF 16 0 2).hostMem x = true) ∧
    ((withArgs 0x1001 0 0 0).a0.toNat + 16 ≤ 2 ^ 64 ∧ admits (withArgs 0x1001 0 0 0).hostMem 0x1010 = false ∧
      ∀ x, 0x1001 ≤ x → x < 0x1010 → admits (withArgs 0x1001 0 0 0).hostMem x = true) ∧
    (withArgs 0 0 0x1001 0).slots[0]? = some .closed ∧
      sourceOf (withArgs 0 0 0x1001 0) 0 = some ⟨fixture, 0, false⟩ ∧ 0 ≤ (withArgs 0 0 0x1001 0).a1.toInt := by
  have hin : ∀ (a0 a1 a2 a3 : U64) (a b : Nat), 0x1000 ≤ a ∧ b ≤ 0x1010 ∨ 0x2000 ≤ a ∧ b ≤ 0x2100 →
      ∀ x, a ≤ x → x < b → admits (withArgs a0 a1 a2 a3).hostMem x = true := by
    intro a0 a1 a2 a3 a b h x h1 h2
    rcases admitted_withArgs a0 a1 a2 a3 (a := x) (n := 1) (by omega) with h0 | ⟨-, h0⟩
    · cases h0
    · exact h0 x (by omega) (by omega)
  refine ⟨⟨by unfold BufValid; decide, by decide⟩, ⟨by unfold BufValid; decide, by decide⟩,
    ⟨by unfold BufValid; decide, by decide, by decide, hin _ _ _ _ _ _ (by omega)⟩,
    ⟨by decide, by decide, hin _ _ _ _ _ _ (by omega)⟩, rfl, rfl, by decide⟩

theorem witness_CiphersNeedAKey : statusKeyv ({ withArgs 0 0 0 0 with status := 0 }).status = false ∧ IsCipher .bfcEnc ∧
    IsCipher (.vbtDecn 0) ∧ IsCipher (.vbtEncn 31) :=
  ⟨by decide, .inl (by decide), .inr (.inl ⟨0, rfl⟩), .inr (.inr ⟨31, rfl⟩)⟩

/-- N = 0, 1, 2, 16 and 17, and a next state of the last two clauses. -/
theorem witness_WordCountIsChecked : statusKeyv (withArgs 0x2000 64 0 0).status = true ∧ (0 = 0 ∨ 16 < 0) ∧ (17 = 0 ∨ 16 < 17) ∧
    (1 < 2 ∨ 16 < 1) ∧ (∃ t, exec (.vbtDecn 1) (withArgs 0x2000 64 0 0) = .next t ∧ True) ∧
    (∃ t, exec (.vbtDecn 16) (withArgs 0x2000 64 0 0) = .next t ∧ True) ∧
    (∃ t, exec (.vbtEncn 2) (withArgs 0x2000 64 0 0) = .next t ∧ True) ∧
    ∃ t, exec (.vbtEncn 16) (withArgs 0x2000 64 0 0) = .next t ∧ True :=
  ⟨by decide, by decide, by decide, by decide, leads_next (by decide +kernel), leads_next (by decide +kernel),
    leads_next (by decide +kernel), leads_next (by decide +kernel)⟩

theorem witness_SlotsAreChecked :
    (nSlots (withArgs 0 0 0 0) ≤ 7 ∧ IsAbsOn (.absRead 7) 7 ∧ IsSeqOn (.seqRead 7) 7 ∧ IsOpenOn (.absOpen 7) 7) ∧
    ((withArgs 0 0 0 0).slots[0]? = some .closed ∧ IsAbsOn (.absSeek 0 .three) 0 ∧ IsSeqOn (.seqSeek 0 .three) 0) ∧
    ((withArgs 0 0 0 0).slots[1]? = some (.aligned ⟨0, vectorKey, 9, 150, 60⟩) ∧ IsSeqOn (.seqSetlen 1) 1) ∧
    ((withArgs 0 0 0 0).slots[2]? = some (.seqBlockTea ⟨4, vectorKey⟩) ∧ IsAbsOn (.absLen 2) 2) ∧
    ((withArgs 0 0 0 0).slots[3]? = some (.seqVbt ⟨4, vectorKey⟩) ∧ IsAbsOn (.absPos 3) 3) ∧
    Slot.seqVbt ⟨4, vectorKey⟩ ≠ .closed ∧ IsOpenOn (.seqOpen 3 .blockTea) 3 :=
  ⟨⟨by decide, .inl (by decide), .inl (by decide), .inl rfl⟩, ⟨rfl, .inr ⟨_, rfl⟩, .inr ⟨_, rfl⟩⟩, ⟨rfl, .inl (by decide)⟩,
    ⟨rfl, .inl (by decide)⟩, ⟨rfl, .inl (by decide)⟩, nofun, .inr ⟨_, rfl⟩⟩

/-- The premises of the four statements about ciphers in place. -/
theorem witness_InPlace : Memory.wf (withArgs 0x2000 16 0 16).mem = true ∧ statusKeyv (withArgs 0x2000 16 0 16).status = true ∧
    BufValid (withArgs 0x2000 16 0 16) (withArgs 0x2000 16 0 16).a3.toInt ∧
    Admitted (withArgs 0x2000 16 0 16) (bufStart (withArgs 0x2000 16 0 16)) (withArgs 0x2000 16 0 16).a3.toNat :=
  ⟨wf_testMemory, by decide, bufValid_test.1, admitted_withArgs _ _ _ _ (by decide)⟩

theorem witness_WordBlockInPlace : Memory.wf (withArgs 0x2000 64 0 7).mem = true ∧
    statusKeyv (withArgs 0x2000 64 0 7).status = true ∧ BufValid (withArgs 0x2000 64 0 7) (4 * ((16 : Nat) : Int)) ∧
    Admitted (withArgs 0x2000 64 0 7) (bufStart (withArgs 0x2000 64 0 7)) (4 * 16) ∧
    BufValid (withArgs 0x2000 64 0 7) (4 * ((1 : Nat) : Int)) ∧
    Admitted (withArgs 0x2000 64 0 7) (bufStart (withArgs 0x2000 64 0 7)) (4 * 1) :=
  ⟨wf_testMemory, by decide, by unfold BufValid; decide, admitted_withArgs _ _ _ _ (by decide), by unfold BufValid; decide,
    admitted_withArgs _ _ _ _ (by decide)⟩

theorem witness_ByteCipherByteByByte : 0 < (ascending 3).length ∧ 2 < (ascending 3).length := by decide

theorem witness_ByteDecryptSynchronisesItself : (hexBytes 0x000102 3).length = (hexBytes 0xFF0102 3).length ∧
    2 < (hexBytes 0x000102 3).length ∧ byteAt (hexBytes 0x000102 3) 2 = byteAt (hexBytes 0xFF0102 3) 2 ∧
    byteAt (hexBytes 0x000102 3) (2 - 1) = byteAt (hexBytes 0xFF0102 3) (2 - 1) ∧ (0 : Nat) ≠ 2 ∧ (0 : Nat) ≠ 2 + 1 := by
  decide

/-- A block alone, and the last of two with bytes after it. -/
theorem witness_BlockTeaInverse : 8 * 0 + 8 ≤ (ascending 8).length ∧ 8 * 1 + 8 ≤ (ascending 23).length := by decide

theorem witness_BlockTeaHasNoChaining : 8 * 1 + 8 ≤ (ascending 8 ++ ascending 8).length ∧ 8 * 0 + 8 ≤ (ascending 8).length ∧
    ((ascending 8 ++ ascending 8).drop (8 * 1)).take 8 = ((ascending 8).drop (8 * 0)).take 8 := by decide

/-- Lengths 1, 2 and 16, and the first and last word of the passes' inner loops. -/
theorem witness_WordDecryptRunsEveryRound : (1 ≤ ([0] : List Word).length ∧ ([0] : List Word).length ≤ 16) ∧
    (2 ≤ ([0, 1] : List Word).length ∧ 1 ≤ 1 ∧ 1 < ([0, 1] : List Word).length ∧ 0 + 1 < ([0, 1] : List Word).length) ∧
    (List.replicate 16 (0 : Word)).length ≤ 16 ∧ 15 < (List.replicate 16 (0 : Word)).length ∧
    14 + 1 < (List.replicate 16 (0 : Word)).length := by
  decide

theorem witness_VariableBlockTeaInverse : 2 ≤ ([0, 1] : List Word).length ∧ ([0, 1] : List Word).length ≤ 16 ∧
    (List.replicate 16 (0 : Word)).length ≤ 16 := by decide

theorem witness_FullBlockPathAgrees : (ascending 64).length = 64 ∧ (withArgs 0x2000 64 0 64).a3 = 64 := by decide

theorem witness_BlocksAreIndependent : (ascending 64).length % 64 = 0 ∧ (ascending 7).length < 8 ∧
    (8 ≤ (ascending 60).length ∧ (ascending 60).length < 64 ∧ (ascending 60).length % 4 = 0 ∧ (ascending 3).length < 4 ∧
      (ascending 60).length + (ascending 3).length < 64) := by decide

/-- The fixture of section 2.6; its length is 150. -/
theorem witness_AbsOpenOpensTheStream : (withArgs 0 5 0x1000 0).slots[0]? = some .closed ∧
    sourceOf (withArgs 0 5 0x1000 0) 0 = some ⟨fixture, 0, false⟩ ∧ 0 ≤ (withArgs 0 5 0x1000 0).a1.toInt ∧
    Admitted (withArgs 0 5 0x1000 0) 0x1000 16 ∧ KeyAt (withArgs 0 5 0x1000 0) 0x1000 vectorKey ∧
    (withArgs 0 5 0x1000 0).a1.toNat + 4 ≤ fixture.length ∧
    vbtDec vectorKey ((fixture.drop 5).take 4) = [0x96, 0, 0, 0] ∧ (le32 0x96 0 0 0).toNat < 2 ^ 31 :=
  ⟨rfl, rfl, by decide, admitted_withArgs _ _ _ _ (by omega), keyAt_withArgs _ _ _ _, by decide +kernel,
    by decide +kernel, by decide⟩

/-- A source too short, and one whose prefix is 2^31. -/
theorem witness_AbsOpenReportsItsRead : (withArgs 3 0 0x1000 0).slots[0]? = some .closed ∧
    sourceOf (withArgs 3 0 0x1000 0) 3 = some ⟨hexBytes 0x0102 2, 0, false⟩ ∧
    sourceOf (withArgs 2 0 0x1000 0) 2 = some ⟨hexBytes 0x997bdf48 4, 0, false⟩ ∧
    vbtDec vectorKey (hexBytes 0x997bdf48 4) = [0, 0, 0, 0x80] ∧ 0 ≤ (withArgs 3 0 0x1000 0).a1.toInt ∧
    Admitted (withArgs 3 0 0x1000 0) 0x1000 16 ∧ KeyAt (withArgs 3 0 0x1000 0) 0x1000 vectorKey :=
  ⟨rfl, rfl, rfl, by decide +kernel, by decide, admitted_withArgs _ _ _ _ (by omega), keyAt_withArgs _ _ _ _⟩

/-- Slot 1 over a source that does not fail, and slot 5 over one that may. -/
theorem witness_AbsReadDeliversContent : Memory.wf (withArgs 0x2000 256 0 90).mem = true ∧
    (withArgs 0x2000 256 0 90).slots[1]? = some (.aligned ⟨0, vectorKey, 9, 150, 60⟩) ∧
    sourceOf (withArgs 0x2000 256 0 90) 0 = some ⟨fixture, 0, false⟩ ∧
    (withArgs 0x2000 256 0 90).slots[5]? = some (.aligned ⟨6, vectorKey, 9, 150, 60⟩) ∧
    sourceOf (withArgs 0x2000 256 0 90) 6 = some ⟨fixture, 0, true⟩ ∧
    (9 : U64).toNat + (150 : Word).toNat ≤ fixture.length ∧
    BufValid (withArgs 0x2000 256 0 90) (withArgs 0x2000 256 0 90).a3.toInt ∧
    Admitted (withArgs 0x2000 256 0 90) (bufStart (withArgs 0x2000 256 0 90)) (withArgs 0x2000 256 0 90).a3.toNat :=
  ⟨wf_testMemory, rfl, rfl, rfl, rfl, by decide +kernel, by unfold BufValid; decide, admitted_withArgs _ _ _ _ (by decide)⟩

/-- A count of 0: the clause of ABS.READ that touches nothing. -/
theorem witness_AbsReadDeliversContent_nothing : BufValid (withArgs 0x2000 256 0 0) (withArgs 0x2000 256 0 0).a3.toInt ∧
    Admitted (withArgs 0x2000 256 0 0) (bufStart (withArgs 0x2000 256 0 0)) (withArgs 0x2000 256 0 0).a3.toNat ∧
    min (withArgs 0x2000 256 0 0).a3.toNat ((150 : Word).toNat - (60 : U64).toNat) = 0 :=
  ⟨by unfold BufValid; decide, .inl (by decide), by decide⟩

theorem witness_SeekThenReadIsASlice :
    BufValid { withArgs 0 0 0 0 with a0 := 0x2000, a1 := 256, a2 := 0, a3 := 150 } (150 : U64).toInt ∧
    Admitted (withArgs 0 0 0 0) ((0x2000 : U64).toNat + (0 : U64).toNat) (150 : U64).toNat ∧
    (150 : Word).toNat < 2 ^ 31 ∧ 150 ≤ (150 : Word).toNat :=
  ⟨by unfold BufValid; decide, admitted_withArgs _ _ _ _ (by decide), by decide, by decide⟩

/-- Slot 4, whose source ends in the block 64 to 127 of the content: the read of the tail block falls short. -/
theorem witness_AbsReadReportsAShortSource :
    (withArgs 0x2000 256 0 20).slots[4]? = some (.aligned ⟨5, vectorKey, 9, 150, 60⟩) ∧
    sourceOf (withArgs 0x2000 256 0 20) 5 = some ⟨fixture.take 100, 0, false⟩ ∧
    BufValid (withArgs 0x2000 256 0 20) (withArgs 0x2000 256 0 20).a3.toInt ∧
    Admitted (withArgs 0x2000 256 0 20) (bufStart (withArgs 0x2000 256 0 20)) (withArgs 0x2000 256 0 20).a3.toNat ∧
    (fixture.take 100).length < (9 : U64).toNat + min (150 : Word).toNat (64 * ((60 + 20 - 1) / 64) + 64) :=
  ⟨rfl, rfl, by unfold BufValid; decide, admitted_withArgs _ _ _ _ (by decide), by decide +kernel⟩

theorem witness_SeqReadDeliversOrFails : sourceOf (withArgs 0x2000 256 0 1) 6 = some ⟨fixture, 0, true⟩ ∧
    BufValid (withArgs 0x2000 256 0 1) (withArgs 0x2000 256 0 1).a3.toInt ∧ (withArgs 0x2000 256 0 1).a3 ≠ 0 ∧
    Admitted (withArgs 0x2000 256 0 1) (bufStart (withArgs 0x2000 256 0 1)) (withArgs 0x2000 256 0 1).a3.toNat ∧
    (withArgs 0x2000 256 0 1).slots[6]? = some (.seqVbt ⟨6, vectorKey⟩) :=
  ⟨rfl, by unfold BufValid; decide, by decide, admitted_withArgs _ _ _ _ (by decide), rfl⟩

/-- The same with a slot of the BlockTea variant. -/
theorem witness_SeqReadDeliversOrFails_blockTea :
    ({ withArgs 0x2000 256 0 1 with slots := [.seqBlockTea ⟨6, vectorKey⟩] }).slots[0]? = some (.seqBlockTea ⟨6, vectorKey⟩) := rfl

/-- A target past each end, from each origin. -/
theorem witness_AbsSeekClampsTheTarget : (withArgs 1000 0 0 0).slots[1]? = some (.aligned ⟨0, vectorKey, 9, 150, 60⟩) ∧
    sourceOf (withArgs 1000 0 0 0) 0 = some ⟨fixture, 0, false⟩ ∧
    ((150 : Nat) : Int) = min (max (0 + (withArgs 1000 0 0 0).a0.toInt) 0) ((150 : Word).toNat : Int) ∧
    ((0 : Nat) : Int) = min (max (((60 : U64).toNat : Int) + (withArgs 0xFFFFFFFFFFFFFFC4 0 0 0).a0.toInt) 0) ((150 : Word).toNat : Int) ∧
    ((150 : Nat) : Int) = min (max (((150 : Word).toNat : Int) + (withArgs 0 0 0 0).a0.toInt) 0) ((150 : Word).toNat : Int) :=
  ⟨rfl, rfl, by decide, by decide, by decide⟩

theorem witness_AbsQueriesReport : (withArgs 0 0 0 0).slots[1]? = some (.aligned ⟨0, vectorKey, 9, 150, 60⟩) := rfl

theorem witness_SeqOpenOpensTheStream : (withArgs 4 0 0x1000 0).slots[0]? = some .closed ∧
    sourceOf (withArgs 4 0 0x1000 0) 4 = some ⟨sequentialFixture, 0, false⟩ ∧
    Admitted (withArgs 4 0 0x1000 0) 0x1000 16 ∧ KeyAt (withArgs 4 0 0x1000 0) 0x1000 vectorKey :=
  ⟨rfl, rfl, admitted_withArgs _ _ _ _ (by omega), keyAt_withArgs _ _ _ _⟩

theorem witness_SeqReadDeliversAtTheCursor : Memory.wf (withArgs 0x2000 256 0 200).mem = true ∧
    sourceOf (withArgs 0x2000 256 0 200) 4 = some ⟨sequentialFixture, 0, false⟩ ∧
    BufValid (withArgs 0x2000 256 0 200) (withArgs 0x2000 256 0 200).a3.toInt ∧
    Admitted (withArgs 0x2000 256 0 200) (bufStart (withArgs 0x2000 256 0 200)) (withArgs 0x2000 256 0 200).a3.toNat ∧
    (withArgs 0x2000 256 0 200).slots[2]? = some (.seqBlockTea ⟨4, vectorKey⟩) ∧
    (withArgs 0x2000 256 0 200).slots[3]? = some (.seqVbt ⟨4, vectorKey⟩) :=
  ⟨wf_testMemory, rfl, by unfold BufValid; decide, admitted_withArgs _ _ _ _ (by decide), rfl, rfl⟩

theorem witness_RefusedOperationsAreUnsupported :
    (withArgs 0 0 0 0).slots[1]? = some (.aligned ⟨0, vectorKey, 9, 150, 60⟩) ∧
    (withArgs 0 0 0 0).slots[2]? = some (.seqBlockTea ⟨4, vectorKey⟩) ∧
    (withArgs 0 0 0 0).slots[3]? = some (.seqVbt ⟨4, vectorKey⟩) := ⟨rfl, rfl, rfl⟩

/-- Each kind of access to an unmapped offset, and each ground of a refusal. -/
theorem witness_WindowAccessesFollowTheRule :
    (windowOffset (withArgs 0 0 0 0) 0x04 % 4 = 0 ∧ windowOffset (withArgs 0 0 0 0) 0x04 ∈ [0x04, 0x54, 0x5C]) ∧
    (windowOffset (withArgs 0 0 0 0) 0x5C % 4 = 0 ∧ windowOffset (withArgs 0 0 0 0) 0x5C ∈ [0x04, 0x54, 0x5C]) ∧
    (windowOffset (withArgs 0 0 0 0) 0x60 % 8 = 0 ∧ 0x60 ≤ windowOffset (withArgs 0 0 0 0) 0x60) ∧
    (windowOffset (withArgs 0 0 0 0) 0xFFFFFFFFFFFFFFFC % 4 = 0 ∧ 0x60 ≤ windowOffset (withArgs 0 0 0 0) 0xFFFFFFFFFFFFFFFC) ∧
    ((2 : Nat) ≠ 4 ∧ (2 : Nat) ≠ 8) ∧ ((0 : Nat) ≠ 4 ∧ (0 : Nat) ≠ 8) ∧ windowOffset (withArgs 0 0 0 0) 2 % 4 ≠ 0 ∧
    windowOffset (withArgs 0 0 0 0) 0x64 % 8 ≠ 0 ∧
    windowOffset (withArgs 0 0 0 0) 0x00 ∈ [0x00, 0x30, 0x40, 0x48, 0x50, 0x58] ∧
    windowOffset (withArgs 0 0 0 0) 0x58 ∈ [0x00, 0x30, 0x40, 0x48, 0x50, 0x58] ∧
    windowOffset (withArgs 0 0 0 0) 0x34 = 0x34 := by decide

/-- A cipher command over 16 bytes and those over 16 words and 1; VBT.ENCN with N = 1, which fails. -/
theorem witness_ResetInsideACommand : Memory.wf (withArgs 0x2000 64 0 16).mem = true ∧ decode 0x10 = .ok .bfcEnc ∧
    decode 0x8000 = .error .reservedBits ∧ statusKeyv (withArgs 0x2000 64 0 16).status = true ∧
    (BufValid (withArgs 0x2000 64 0 16) (withArgs 0x2000 64 0 16).a3.toInt ∧
      Admitted (withArgs 0x2000 64 0 16) (bufStart (withArgs 0x2000 64 0 16)) (withArgs 0x2000 64 0 16).a3.toNat) ∧
    (BufValid (withArgs 0x2000 64 0 16) (4 * ((16 : Nat) : Int)) ∧
      Admitted (withArgs 0x2000 64 0 16) (bufStart (withArgs 0x2000 64 0 16)) (4 * 16)) ∧
    (BufValid (withArgs 0x2000 64 0 16) (4 * ((1 : Nat) : Int)) ∧
      Admitted (withArgs 0x2000 64 0 16) (bufStart (withArgs 0x2000 64 0 16)) (4 * 1)) ∧
    ∃ t, exec (.vbtEncn 1) (withArgs 0x2000 64 0 16) = .next t ∧
      statusCause t.status ∈ ([0x01, 0x02, 0x81, 0x82, 0x84] : List (BitVec 8)) :=
  ⟨wf_testMemory, by decide, by decide, by decide, ⟨by unfold BufValid; decide, admitted_withArgs _ _ _ _ (by decide)⟩,
    ⟨by unfold BufValid; decide, admitted_withArgs _ _ _ _ (by decide)⟩,
    ⟨by unfold BufValid; decide, admitted_withArgs _ _ _ _ (by decide)⟩, leads_next (by decide +kernel)⟩

/-- The commands that use a source: SRC.SETPOS at the position 0, ABS.OPEN, ABS.SEEK, and the reads, of no byte and of
some. -/
theorem witness_ResetInsideACommand_sources :
    (sourceOf (withArgs 4 0 0x1000 0) 4 = some ⟨sequentialFixture, 0, false⟩ ∧ 0 ≤ (withArgs 4 0 0x1000 0).a1.toInt ∧
      (withArgs 4 0 0x1000 0).slots[0]? = some .closed ∧ Admitted (withArgs 4 0 0x1000 0) 0x1000 16) ∧
    ((withArgs 0x2000 16 0 16).slots[1]? = some (.aligned ⟨0, vectorKey, 9, 150, 60⟩) ∧ Whence.fromEnd ≠ .three) ∧
    ((withArgs 0x2000 16 0 16).slots[2]? = some (.seqBlockTea ⟨4, vectorKey⟩) ∧
      (withArgs 0x2000 16 0 16).slots[3]? = some (.seqVbt ⟨4, vectorKey⟩) ∧
      sourceOf (withArgs 0x2000 16 0 16) 4 = some ⟨sequentialFixture, 0, false⟩) ∧
    (BufValid (withArgs 0x2000 16 0 16) (withArgs 0x2000 16 0 16).a3.toInt ∧
      Admitted (withArgs 0x2000 16 0 16) (bufStart (withArgs 0x2000 16 0 16)) (withArgs 0x2000 16 0 16).a3.toNat ∧
      min (withArgs 0x2000 16 0 16).a3.toNat ((150 : Word).toNat - (60 : U64).toNat) = 16) ∧
    BufValid (withArgs 0x2000 16 16 0) (withArgs 0x2000 16 16 0).a3.toInt ∧
      Admitted (withArgs 0x2000 16 16 0) (bufStart (withArgs 0x2000 16 16 0)) (withArgs 0x2000 16 16 0).a3.toNat ∧
      min (withArgs 0x2000 16 16 0).a3.toNat ((150 : Word).toNat - (60 : U64).toNat) = 0 ∧
      (withArgs 0x2000 16 16 0).a3 = 0 :=
  ⟨⟨rfl, by decide, rfl, admitted_withArgs _ _ _ _ (by omega)⟩, ⟨rfl, by decide⟩, ⟨rfl, rfl, rfl⟩,
    ⟨by unfold BufValid; decide, admitted_withArgs _ _ _ _ (by decide), by decide⟩, by unfold BufValid; decide,
    .inl (by decide), by decide, rfl⟩

theorem witness_HostMemoryReadsBack : Memory.wf (withArgs 0 0 0 0).mem = true ∧
    2 ^ 64 - 64 + (ascending 64).length ≤ 2 ^ 64 := ⟨wf_testMemory, by decide⟩

end Sys2Proof.Machine
end

/-! # KEYLOAD (spec/46_host_control.md rule R221) -/

namespace Sys2Proof.Machine

/-- KEYLOAD's own effect (R221), before the outcome of R240: the key registers hold `K` and KEYV is set. -/
def loadKey (s : State) (K : Key) : State := { s with key := K, status := statusSetKeyv s.status }

@[simp] theorem loadKey_status (s : State) (K : Key) : (loadKey s K).status = statusSetKeyv s.status := rfl

theorem sameInputs_loadKey (s : State) (K : Key) : SameInputs s (loadKey s K) :=
  ⟨rfl, rfl, rfl, rfl, rfl, rfl, rfl, rfl, rfl⟩

theorem exec_keyload_of_keyBuffer {s : State} {K : Key} (h : keyBuffer s s.a0 = .ok K) :
    exec .keyload s = .next (succeed (loadKey s K) 0) := by
  change command s (keyBuffer s s.a0) (fun k => .next (succeed (loadKey s k) 0)) = _
  rw [h, command_ok]

/-- Loading a key leaves ERR alone and sets KEYV, and so does the success that follows it (R24, R221). -/
theorem succeed_loadKey_flags (s : State) (K : Key) (r : U64) :
    statusErr (succeed (loadKey s K) r).status = statusErr s.status ∧
      statusKeyv (succeed (loadKey s K) r).status = true := by
  obtain ⟨herr, hkeyv⟩ := flagsKept_succeed (loadKey s K) r
  rw [herr, hkeyv, loadKey_status]
  exact ⟨statusErr_statusSetKeyv _, statusKeyv_statusSetKeyv _⟩

/-- Settles O20: the admitted key buffer passes KEYLOAD's one check and holds `K`, and what follows is the effect
`loadKey` under a success. -/
theorem keyloadLoadsTheKey : Obligations.KeyloadLoadsTheKey := by
  intro s K hadm hkey
  have hbuf : keyBuffer s s.a0 = .ok K := keyBuffer_of_admitted hadm hkey
  obtain ⟨herr, hkeyv⟩ := succeed_loadKey_flags s K 0
  have hinputs : SameInputs s (succeed (loadKey s K) 0) := (sameInputs_loadKey s K).trans (sameInputs_succeed _ _)
  exact ⟨_, exec_keyload_of_keyBuffer hbuf, succeeds_succeed _ _, herr, hkeyv, rfl, hinputs, rfl, rfl, fun _ => rfl⟩

end Sys2Proof.Machine

/-! # Laws of the state: one CMD write, one action, one step (spec/10_state.md) -/

namespace Sys2Proof.Machine

/-! ## The word of a decoded command -/

/-- The OP column of rule R80: the word of a row's command sets OP and the fields the row permits, and no other bit. -/
theorem encode_of_opRow {op : Byte} {p : Permits} {mk : Fields → Instr} (h : opRow op = some (p, mk)) (f : Fields) :
    encode (mk f) = packWord op (if p.slot then BitVec.ofNat 4 f.slot else 0)
      (if p.whence then f.whence.toField else 0) (if p.kind then f.kind.toField else 0)
      (if p.n then BitVec.ofNat 5 f.n else 0) := by
  have hop : op = BitVec.ofNat 8 op.toNat := by simp
  unfold opRow at h
  generalize op.toNat = k at h hop
  subst hop
  split at h
  case h_29 => cases h
  all_goals
    cases h
    rfl

@[simp] theorem Whence.toField_ofField (b : BitVec 2) : (Whence.ofField b).toField = b := by
  revert b; decide

@[simp] theorem SeqKind.toField_ofField (b : BitVec 1) : (SeqKind.ofField b).toField = b := by
  revert b; decide

/-- A word the decoder accepts is the word of the command it answers (R70 to R72). -/
theorem encode_of_decode {w : Word} {i : Instr} (h : decode w = .ok i) : encode i = w := by
  obtain ⟨hres, p, mk, hrow, hpermitted, rfl⟩ := decode_ok h
  simp only [fieldsPermitted, Bool.and_eq_true, Bool.or_eq_true, beq_iff_eq] at hpermitted
  obtain ⟨⟨⟨hslot, hwhence⟩, hkind⟩, hn⟩ := hpermitted
  have field : ∀ {n : Nat} {permitted : Bool} {v : BitVec n}, permitted = true ∨ v = 0 →
      (if permitted then v else 0#n) = v := by
    rintro n permitted v (rfl | rfl) <;> simp
  rw [encode_of_opRow hrow, word_of_fields hres]
  simp [fieldsOf, field hslot, field hwhence, field hkind, field hn]

/-- The word 1 alone is KEYLOAD. -/
theorem eq_of_decode_keyload {w : Word} (h : decode w = .ok .keyload) : w = 1 :=
  (encode_of_decode h).symm.trans (by decide)

/-- The word 2 alone is CLRERR. -/
theorem eq_of_decode_clrerr {w : Word} (h : decode w = .ok .clrerr) : w = 2 :=
  (encode_of_decode h).symm.trans (by decide)

theorem decode_clrerr : decode 2 = .ok .clrerr := by decide

/-! ## What one CMD write leaves (R21, R25, R27, R240) -/

section CmdWrite

variable {w : Word} {s t : State}

theorem sameLaunch_cmd (s : State) (w : Word) : SameLaunch s { s with cmd := w } := ⟨rfl, rfl, rfl, rfl⟩

theorem sameInputs_runCommand (h : runCommand w s = .next t) : SameInputs { s with cmd := w } t := by
  obtain ⟨i, -, hran⟩ := ran_runCommand h
  exact hran.inputs

theorem sameLaunch_runCommand (h : runCommand w s = .next t) : SameLaunch s t := by
  obtain ⟨i, -, hran⟩ := ran_runCommand h
  exact (sameLaunch_cmd s w).trans hran.launch

theorem statusGood_runCommand (h : runCommand w s = .next t) : StatusGood t := by
  obtain ⟨i, -, hran⟩ := ran_runCommand h
  exact hran.status

/-- A failing command sets ERR (R25). -/
theorem err_runCommand_of_fails (h : runCommand w s = .next t) (hc : statusCause t.status ≠ 0) :
    statusErr t.status = true := by
  obtain ⟨-, -, -, hfails, -⟩ := statusGood_runCommand h
  exact (hfails hc).1

/-- A successful command other than CLRERR leaves ERR (R25). -/
theorem err_runCommand_of_succeeds (h : runCommand w s = .next t) (hc : statusCause t.status = 0) (hw : w ≠ 2) :
    statusErr t.status = statusErr s.status := by
  obtain ⟨i, hi, hran⟩ := ran_runCommand h
  refine hran.err hc ?_
  rintro rfl
  rcases hi with hdec | ⟨hnop, -⟩
  · exact hw (eq_of_decode_clrerr hdec)
  · cases hnop

/-- CLRERR clears ERR (R25). -/
theorem err_runCommand_clrerr (h : runCommand 2 s = .next t) : statusErr t.status = false := by
  obtain ⟨i, hi, hran⟩ := ran_runCommand h
  refine hran.clr ?_
  rw [decode_clrerr] at hi
  rcases hi with hdec | ⟨-, d, hdec⟩
  · injection hdec with hdec
    exact hdec.symm
  · cases hdec

/-- A command other than KEYLOAD leaves the key registers and KEYV (R27, R39). -/
theorem key_runCommand (h : runCommand w s = .next t) (hw : w ≠ 1) :
    t.key = s.key ∧ statusKeyv t.status = statusKeyv s.status := by
  obtain ⟨i, hi, hran⟩ := ran_runCommand h
  refine hran.key ?_
  rintro rfl
  rcases hi with hdec | ⟨hnop, -⟩
  · exact hw (eq_of_decode_keyload hdec)
  · cases hnop

/-- An open slot keeps its stream, or the command is CLOSE of that slot (R34). -/
theorem slots_runCommand (h : runCommand w s = .next t) {k : Nat} {v : Slot} (hv : s.slots[k]? = some v)
    (hopen : v ≠ .closed) :
    (∃ v', t.slots[k]? = some v' ∧ SameStream v v') ∨
      decode w = .ok (.close k) ∧ t.slots[k]? = some .closed := by
  obtain ⟨i, hi, hran⟩ := ran_runCommand h
  rcases hran.slots k v hv hopen with hsame | ⟨rfl, hclosed⟩
  · exact .inl hsame
  · rcases hi with hdec | ⟨hnop, -⟩
    · exact .inr ⟨hdec, hclosed⟩
    · cases hnop

/-- A state of the invariant ends with success, or with one of the causes of R241 (R240). -/
theorem StatusGood.outcome (h : StatusGood t) :
    (statusCause t.status = 0 ∧ Succeeds t t.res) ∨
      ∃ cause phase detail info,
        cause ∈ ([0x01, 0x02, 0x03, 0x80, 0x81, 0x82, 0x83, 0x84] : List (BitVec 8)) ∧
        (cause ≠ 0x03 → phase = 0) ∧ Fails t cause phase detail info := by
  obtain ⟨-, hmem, hphase, hfails, hsucceeds⟩ := h
  by_cases hc : statusCause t.status = 0
  · obtain ⟨hdetail, herrinfo⟩ := hsucceeds hc
    exact .inl ⟨hc, rfl, hc, hphase (by rw [hc]; decide), hdetail, herrinfo⟩
  · obtain ⟨herr, hres⟩ := hfails hc
    have hcause := (List.mem_cons.1 hmem).resolve_left hc
    exact .inr ⟨_, _, _, _, hcause, hphase, hres, rfl, rfl, rfl, herr, rfl⟩

end CmdWrite

/-! ## What one action keeps -/

theorem IsCmdWrite.not_isReset {s : State} {a : HostAction} {w : Word} (h : IsCmdWrite s a w) : ¬IsReset a := by
  obtain ⟨addr, v, rfl, -, -⟩ := h
  rintro (hreset | ⟨w', hreset⟩) <;> cases hreset

theorem sameLaunch_act {a : HostAction} {s t : State} (h : act a s = .next t) : SameLaunch s t := by
  rcases act_cases h with ⟨w, -, hrun⟩ | ⟨-, hreset⟩ | ⟨-, hleft⟩
  · exact sameLaunch_runCommand hrun
  · exact hreset.launch
  · exact hleft.launch

/-- STATUS, ERRINFO and RES stay good under every action. -/
theorem statusGood_act {a : HostAction} {s t : State} (hg : StatusGood s) (h : act a s = .next t) : StatusGood t := by
  rcases act_cases h with ⟨w, -, hrun⟩ | ⟨-, hreset⟩ | ⟨-, hleft⟩
  · exact statusGood_runCommand hrun
  · unfold StatusGood
    rw [hreset.status, hreset.errinfo]
    exact ⟨by decide, by decide, fun _ => by decide, fun hc => absurd (by decide) hc, fun _ => ⟨by decide, rfl⟩⟩
  · unfold StatusGood
    rw [hleft.status, hleft.res, hleft.errinfo]
    exact hg

/-- Every slot stays good under every action. -/
theorem slotsGood_act {a : HostAction} {s t : State} (hg : ∀ v ∈ s.slots, SlotGood s v) (h : act a s = .next t) :
    ∀ v ∈ t.slots, SlotGood t v := by
  rcases act_cases h with ⟨w, -, hrun⟩ | ⟨-, hreset⟩ | ⟨-, hleft⟩
  · obtain ⟨i, -, hran⟩ := ran_runCommand hrun
    exact hran.good fun v hv => (hg v hv).of_launch (sameLaunch_cmd s w)
  · intro v hv
    rw [hreset.slots] at hv
    obtain ⟨-, -, rfl⟩ := List.mem_map.1 hv
    trivial
  · intro v hv
    rw [hleft.slots] at hv
    exact (hg v hv).of_launch hleft.launch

/-- Host memory keeps its canonical form under every action. -/
theorem memWf_act {a : HostAction} {s t : State} (hw : Memory.wf s.mem = true) (h : act a s = .next t) :
    Memory.wf t.mem = true := by
  rcases act_cases h with ⟨w, -, hrun⟩ | ⟨-, hreset⟩ | ⟨-, hleft⟩
  · obtain ⟨i, -, hran⟩ := ran_runCommand hrun
    exact hran.mem hw
  · exact hreset.mem hw
  · exact hleft.mem hw

/-- Every action keeps the invariant. -/
theorem good_act {a : HostAction} {s t : State} (hg : s.Good) (h : act a s = .next t) : t.Good where
  mem := memWf_act hg.mem h
  status := statusGood_act hg.status h
  slots := slotsGood_act hg.slots h
  launch := hg.launch.of_launch (sameLaunch_act h)

theorem sameLaunch_host (s : State) (rest : List HostAction) : SameLaunch s { s with host := rest } :=
  ⟨rfl, rfl, rfl, rfl⟩

/-- The pending actions are no part of the invariant. -/
theorem State.Good.withHost {s : State} (hg : s.Good) (rest : List HostAction) : ({ s with host := rest }).Good where
  mem := hg.mem
  status := hg.status
  slots := fun v hv => (hg.slots v hv).of_launch (sameLaunch_host s rest)
  launch := hg.launch.of_launch (sameLaunch_host s rest)

theorem sameLaunch_step {s t : State} (h : step s = .next t) : SameLaunch s t := by
  rcases step_cases h with ⟨rfl, -⟩ | ⟨a, rest, -, hact⟩
  · exact .refl _
  · exact (sameLaunch_host s rest).trans (sameLaunch_act hact)

/-- PARAMS reports launch parameters alone (R29). -/
theorem SameLaunch.paramsValue_eq {s t : State} (h : SameLaunch s t) : paramsValue t = paramsValue s := by
  have hsources : nSources t = nSources s := by simpa [nSources] using congrArg List.length h.sources
  unfold paramsValue
  rw [h.slots, hsources]

/-- Where every slot is good, an action answers a next state, or is one of the two that are refused (R30, R35). -/
theorem act_answers {s : State} (hg : ∀ v ∈ s.slots, SlotGood s v) (a : HostAction) :
    (∃ t, act a s = .next t) ∨
      (∃ addr bytes v, (a = .regWrite addr bytes v ∨ a = .regRead addr bytes) ∧
        windowAccess (windowOffset s addr) bytes = .undefined ∧ act a s = .refused .undefinedWindowAccess) ∨
      ∃ h c, a = .moveCursor h c ∧ sourceOf s h = none ∧ act a s = .refused .noSuchSource := by
  cases a with
  | regWrite addr bytes v =>
    simp only [act, windowWrite]
    cases hacc : windowAccess (windowOffset s addr) bytes with
    | whole r =>
      left
      by_cases hr : r = .cmd
      · simpa [hr] using runCommand_next hg (v.setWidth 32)
      · simp [hr]
    | half r high => exact .inl ⟨_, rfl⟩
    | unmapped => exact .inl ⟨_, rfl⟩
    | undefined => exact .inr (.inl ⟨addr, bytes, v, .inl rfl, hacc, rfl⟩)
  | regRead addr bytes =>
    simp only [act, windowRead]
    cases hacc : windowAccess (windowOffset s addr) bytes with
    | whole r => exact .inl ⟨_, rfl⟩
    | half r high => exact .inl ⟨_, rfl⟩
    | unmapped => exact .inl ⟨_, rfl⟩
    | undefined => exact .inr (.inl ⟨addr, bytes, 0, .inr rfl, hacc, rfl⟩)
  | moveCursor h c =>
    simp only [act]
    cases hsrc : sourceOf s h with
    | none => exact .inr (.inr ⟨h, c, rfl, hsrc, rfl⟩)
    | some src => exact .inl ⟨_, rfl⟩
  | memWrite addr v => exact .inl ⟨_, rfl⟩
  | memRead addr => exact .inl ⟨_, rfl⟩
  | reset => exact .inl ⟨_, rfl⟩
  | commandThenReset w => exact .inl ⟨_, rfl⟩

/-! ## The obligations -/

/-- Settles O9: every action keeps the invariant, and the pending actions are no part of it. -/
theorem stepKeepsGood : Obligations.StepKeepsGood := by
  intro s t hg h
  rcases step_cases h with ⟨rfl, -⟩ | ⟨a, rest, -, hact⟩
  · exact hg
  · exact good_act (hg.withHost rest) hact

/-- Settles O11. -/
theorem stepKeepsLaunch : Obligations.StepKeepsLaunch := fun _ _ h =>
  ⟨sameLaunch_step h, (sameLaunch_step h).paramsValue_eq⟩

/-- Settles O12: the one action a step takes answers a next state or is one of the two that are refused. -/
theorem goodStatesNeverFault : Obligations.GoodStatesNeverFault := by
  intro s hg
  cases hhost : s.host with
  | nil =>
    have hstep : step s = .next s := by rw [step, hhost]
    rw [hstep]
    exact ⟨nofun, nofun⟩
  | cons a rest =>
    have hstep : step s = act a { s with host := rest } := by rw [step, hhost]
    rw [hstep]
    rcases act_answers (hg.withHost rest).slots a with
      ⟨t, hnext⟩ | ⟨addr, bytes, v, ha, hacc, href⟩ | ⟨h, c, rfl, hsrc, href⟩
    · rw [hnext]
      exact ⟨nofun, nofun⟩
    · rw [href]
      exact ⟨nofun, fun _ _ => .inl ⟨addr, bytes, v, rest, ha.imp (congrArg (· :: rest)) (congrArg (· :: rest)), hacc⟩⟩
    · rw [href]
      exact ⟨nofun, fun _ _ => .inr ⟨h, c, rest, rfl, hsrc⟩⟩

/-- Settles O13: from a good state a CMD write completes, and the STATUS it leaves tells which outcome it had. -/
theorem everyCommandEndsWithOneOutcome : Obligations.EveryCommandEndsWithOneOutcome := by
  intro w s hg
  obtain ⟨t, h⟩ := runCommand_next hg.slots w
  refine ⟨t, h, ?_, fun hw => (key_runCommand h hw).2⟩
  rcases (statusGood_runCommand h).outcome with ⟨hc, hsucceeds⟩ | hfails
  · exact .inl ⟨_, hsucceeds, err_runCommand_of_succeeds h hc⟩
  · exact .inr hfails

/-- Settles O14. An action that clears ERR is a reset or a CMD write; a CMD write that clears it did not fail, and is
CLRERR. -/
theorem errIsSticky : Obligations.ErrIsSticky := by
  refine ⟨fun w s t h => ⟨err_runCommand_of_fails h, err_runCommand_of_succeeds h, ?_⟩, fun a s t h => ?_⟩
  · rintro rfl
    exact err_runCommand_clrerr h
  · rcases act_cases h with ⟨w, hw, hrun⟩ | ⟨hreset, hwas⟩ | ⟨hnot, hleft⟩
    · refine ⟨fun hreset => absurd hreset hw.not_isReset, fun hset hclear => .inr ?_⟩
      have hc : statusCause t.status = 0 := by
        by_contra hc
        rw [err_runCommand_of_fails hrun hc] at hclear
        cases hclear
      by_cases hw2 : w = 2
      · exact hw2 ▸ hw
      · rw [err_runCommand_of_succeeds hrun hc hw2, hset] at hclear
        cases hclear
    · exact ⟨fun _ => by rw [hwas.status]; decide, fun _ _ => .inl hreset⟩
    · refine ⟨fun hreset => absurd hreset hnot, fun hset hclear => ?_⟩
      rw [hleft.status, hset] at hclear
      cases hclear

/-- Settles O15. -/
theorem commandsKeepTheirInputs : Obligations.CommandsKeepTheirInputs := fun _ _ _ h => sameInputs_runCommand h

/-- Settles O16: an action is a CMD write, of KEYLOAD or of a command that leaves the key, or a reset, or leaves the
key. -/
theorem keyChangesByKeyloadAlone : Obligations.KeyChangesByKeyloadAlone := by
  intro a s t h hchanged
  rcases act_cases h with ⟨w, hw, hrun⟩ | ⟨hreset, -⟩ | ⟨-, hleft⟩
  · by_cases hw1 : w = 1
    · exact .inr (hw1 ▸ hw)
    · obtain ⟨hkey, hkeyv⟩ := key_runCommand hrun hw1
      rcases hchanged with hne | hne
      · exact absurd hkey hne
      · exact absurd hkeyv hne
  · exact .inl hreset
  · rcases hchanged with hne | hne
    · exact absurd hleft.key hne
    · exact absurd (congrArg statusKeyv hleft.status) hne

/-- Settles O17. -/
theorem openSlotKeepsItsStream : Obligations.OpenSlotKeepsItsStream := by
  refine ⟨fun a s t slot v h hv hopen => ?_, fun s K hadm hkey => ?_⟩
  · rcases act_cases h with ⟨w, hw, hrun⟩ | ⟨hreset, hwas⟩ | ⟨-, hleft⟩
    · rcases slots_runCommand hrun hv hopen with hsame | ⟨hdec, hclosed⟩
      · exact .inl hsame
      · exact .inr ⟨hclosed, .inr ⟨w, hw, hdec⟩⟩
    · exact .inr ⟨by rw [hwas.slots, List.getElem?_map, hv]; rfl, .inl hreset⟩
    · exact .inl ⟨v, by rw [hleft.slots]; exact hv, .refl v⟩
  · exact ⟨_, exec_keyload_of_keyBuffer (keyBuffer_of_admitted hadm hkey), rfl, rfl⟩

end Sys2Proof.Machine

/-! # Laws of the register window (spec/10_state.md rules R20, R22, R28 to R30) -/

namespace Sys2Proof.Machine

/-! ## What an access reaches -/

/-- An access at a register's own offset and width reaches it whole. -/
theorem windowAccess_whole (r : HostReg) : windowAccess r.offset r.bytes = .whole r := by cases r <;> rfl

/-- A 32-bit access at a 64-bit register's offset reaches its low half. -/
theorem windowAccess_low {r : HostReg} (h : r.bytes = 8) : windowAccess r.offset 4 = .half r false := by
  cases r <;> simp [HostReg.bytes] at h <;> rfl

/-- A 32-bit access four bytes past a 64-bit register's offset reaches its high half. -/
theorem windowAccess_high {r : HostReg} (h : r.bytes = 8) : windowAccess (r.offset + 4) 4 = .half r true := by
  cases r <;> simp [HostReg.bytes] at h <;> rfl

/-- An access that is neither a register's own nor one of its halves is unmapped, where R30 takes it, or undefined. -/
theorem windowAccess_of_no_register {off bytes : Nat}
    (h4 : bytes = 4 → off % 4 ≠ 0 ∨ off ∈ [0x04, 0x34, 0x54, 0x5C] ∨ 0x60 ≤ off)
    (h8 : bytes = 8 → off % 8 ≠ 0 ∨ off ∈ [0x00, 0x30, 0x40, 0x48, 0x50, 0x58] ∨ 0x60 ≤ off) :
    windowAccess off bytes =
      if (bytes = 4 ∨ bytes = 8) ∧ off % bytes = 0 ∧ unmappedOffset off = true then .unmapped else .undefined := by
  simp only [List.mem_cons, List.not_mem_nil, or_false] at h4 h8
  have hwhole : hostRegs.find? (fun r => r.offset == off && r.bytes == bytes) = none := by
    rw [List.find?_eq_none]
    intro r _
    simp only [Bool.and_eq_true, beq_iff_eq]
    cases r <;> simp only [HostReg.offset, HostReg.bytes] <;> omega
  have hhalf : hostRegs.find?
      (fun r => r.bytes == 8 && bytes == 4 && (r.offset == off || r.offset + 4 == off)) = none := by
    rw [List.find?_eq_none]
    intro r _
    simp only [Bool.and_eq_true, Bool.or_eq_true, beq_iff_eq]
    cases r <;> simp only [HostReg.offset, HostReg.bytes] <;> omega
  rw [windowAccess, hwhole, hhalf]

theorem unmappedOffset_iff (off : Nat) :
    unmappedOffset off = true ↔ off = 0x04 ∨ off = 0x54 ∨ off = 0x5C ∨ 0x60 ≤ off := by
  simp [unmappedOffset, or_assoc]

/-- An aligned access of 4 or 8 bytes at an unmapped offset is taken (R20, R30). -/
theorem windowAccess_unmapped {off bytes : Nat} (hbytes : bytes = 4 ∨ bytes = 8) (haligned : off % bytes = 0)
    (hoff : off ∈ [0x04, 0x54, 0x5C] ∨ 0x60 ≤ off) : windowAccess off bytes = .unmapped := by
  simp only [List.mem_cons, List.not_mem_nil, or_false] at hoff
  rw [windowAccess_of_no_register, if_pos ⟨hbytes, haligned, (unmappedOffset_iff off).2 (by omega)⟩]
  · rintro rfl
    simp only [List.mem_cons, List.not_mem_nil, or_false]
    omega
  · rintro rfl
    omega

/-- R30 gives no effect to an access that is not 4 or 8 bytes wide, or not aligned, nor to one of 8 bytes at a 32-bit
register, nor to offset 0x34. -/
theorem windowAccess_undefined {off bytes : Nat}
    (h : bytes ≠ 4 ∧ bytes ≠ 8 ∨ off % bytes ≠ 0 ∨ bytes = 8 ∧ off ∈ [0x00, 0x30, 0x40, 0x48, 0x50, 0x58] ∨
      bytes = 4 ∧ off = 0x34) : windowAccess off bytes = .undefined := by
  simp only [List.mem_cons, List.not_mem_nil, or_false] at h
  rw [windowAccess_of_no_register, if_neg]
  · rw [unmappedOffset_iff]
    rintro ⟨rfl | rfl, haligned, hoff⟩ <;> omega
  · rintro rfl
    simp only [List.mem_cons, List.not_mem_nil, or_false]
    omega
  · rintro rfl
    simp only [List.mem_cons, List.not_mem_nil, or_false]
    omega

/-! ## Halves of a 64-bit register -/

theorem withHalf_low (v : U64) (w : Word) : withHalf false v w = v.extractLsb' 32 32 ++ w := by
  apply BitVec.eq_of_getLsbD_eq
  intro i hi
  refine Eq.trans ?_ BitVec.getLsbD_append.symm
  by_cases hlow : i < 32
  · simp [withHalf, hlow, hi]
  · have hhigh : i - 32 < 32 := by omega
    have hw : w.getLsbD i = false := BitVec.getLsbD_of_ge w i (by omega)
    simp [withHalf, hlow, hi, hhigh, hw]

theorem withHalf_high (v : U64) (w : Word) : withHalf true v w = w ++ v.extractLsb' 0 32 := by
  apply BitVec.eq_of_getLsbD_eq
  intro i hi
  refine Eq.trans ?_ BitVec.getLsbD_append.symm
  by_cases hlow : i < 32 <;> simp [withHalf, hlow, hi]

/-! ## Addresses -/

theorem windowOffset_add (s : State) (off : U64) : windowOffset s (s.regBase + off) = off.toNat := by
  rw [windowOffset, add_sub_cancel_left]

theorem windowOffset_add_four (s : State) (off : U64) :
    windowOffset s (s.regBase + off + 4) = (off + 4).toNat := by
  rw [add_assoc, windowOffset_add]

theorem windowOffset_regBase (s : State) : windowOffset s s.regBase = 0 := by
  simp [windowOffset]

/-! ## What an access does -/

section Access

variable {s : State} {addr : U64} {r : HostReg}

theorem act_regWrite_cmd (h : windowOffset s addr = 0) (v : U64) :
    act (.regWrite addr 4 v) s = runCommand (v.setWidth 32) s := by
  have hacc : windowAccess 0 4 = .whole .cmd := windowAccess_whole .cmd
  simp only [act, windowWrite, h, hacc, if_pos]

theorem act_regWrite_whole (h : windowOffset s addr = r.offset) (hr : r ≠ .cmd) (v : U64) :
    act (.regWrite addr r.bytes v) s = .next (writeReg s r v) := by
  simp only [act, windowWrite, h, windowAccess_whole, if_neg hr]

theorem act_regWrite_low (h : windowOffset s addr = r.offset) (h8 : r.bytes = 8) (v : U64) :
    act (.regWrite addr 4 v) s
      = .next (writeReg s r ((readReg s r).extractLsb' 32 32 ++ v.extractLsb' 0 32)) := by
  simp only [act, windowWrite, h, windowAccess_low h8, withHalf_low,
    BitVec.setWidth_eq_extractLsb' (show 32 ≤ 64 by decide)]

theorem act_regWrite_high (h : windowOffset s addr = r.offset + 4) (h8 : r.bytes = 8) (v : U64) :
    act (.regWrite addr 4 v) s
      = .next (writeReg s r (v.extractLsb' 0 32 ++ (readReg s r).extractLsb' 0 32)) := by
  simp only [act, windowWrite, h, windowAccess_high h8, withHalf_high,
    BitVec.setWidth_eq_extractLsb' (show 32 ≤ 64 by decide)]

theorem act_regRead_whole (h : windowOffset s addr = r.offset) :
    act (.regRead addr r.bytes) s = .next { s with hostData := readReg s r } := by
  simp only [act, windowRead, h, windowAccess_whole]

theorem act_regRead_low (h : windowOffset s addr = r.offset) (h8 : r.bytes = 8) :
    act (.regRead addr 4) s = .next { s with hostData := ((readReg s r).extractLsb' 0 32).setWidth 64 } := by
  simp only [act, windowRead, h, windowAccess_low h8]
  rfl

theorem act_regRead_high (h : windowOffset s addr = r.offset + 4) (h8 : r.bytes = 8) :
    act (.regRead addr 4) s = .next { s with hostData := ((readReg s r).extractLsb' 32 32).setWidth 64 } := by
  simp only [act, windowRead, h, windowAccess_high h8]
  rfl

end Access

/-- The three writes of R30 to a 64-bit register other than CMD: whole, its low half and its high half. -/
theorem act_regWrite_offset {r : HostReg} {off : U64} (hr : r ≠ .cmd) (h8 : r.bytes = 8) (hlow : off.toNat = r.offset)
    (hhigh : (off + 4).toNat = r.offset + 4) (s : State) (v : U64) :
    act (.regWrite (s.regBase + off) 8 v) s = .next (writeReg s r v) ∧
    act (.regWrite (s.regBase + off) 4 v) s
      = .next (writeReg s r ((readReg s r).extractLsb' 32 32 ++ v.extractLsb' 0 32)) ∧
    act (.regWrite (s.regBase + off + 4) 4 v) s
      = .next (writeReg s r (v.extractLsb' 0 32 ++ (readReg s r).extractLsb' 0 32)) := by
  have hoff := (windowOffset_add s off).trans hlow
  exact ⟨h8 ▸ act_regWrite_whole hoff hr v, act_regWrite_low hoff h8 v,
    act_regWrite_high ((windowOffset_add_four s off).trans hhigh) h8 v⟩

/-- The two reads of R30 of a half of a 64-bit register. -/
theorem act_regRead_offset {r : HostReg} {off : U64} (h8 : r.bytes = 8) (hlow : off.toNat = r.offset)
    (hhigh : (off + 4).toNat = r.offset + 4) (s : State) :
    act (.regRead (s.regBase + off) 4) s
      = .next { s with hostData := ((readReg s r).extractLsb' 0 32).setWidth 64 } ∧
    act (.regRead (s.regBase + off + 4) 4) s
      = .next { s with hostData := ((readReg s r).extractLsb' 32 32).setWidth 64 } :=
  ⟨act_regRead_low ((windowOffset_add s off).trans hlow) h8,
    act_regRead_high ((windowOffset_add_four s off).trans hhigh) h8⟩

/-! ## PARAMS (R29) -/

/-- The two byte fields of PARAMS, as a number. -/
theorem paramsValue_setWidth (s : State) :
    (paramsValue s).setWidth 64 = BitVec.ofNat 64 (nSlots s % 256 + 256 * (nSources s % 256)) := by
  have hor : 256 * (nSources s % 256) ||| nSlots s % 256 = 256 * (nSources s % 256) + nSlots s % 256 :=
    (Nat.two_pow_add_eq_or_of_lt (i := 8) (Nat.mod_lt _ (by decide)) _).symm
  apply BitVec.eq_of_toNat_eq
  simp only [paramsValue, placeField, BitVec.toNat_setWidth, BitVec.toNat_or, BitVec.toNat_shiftLeft,
    BitVec.toNat_ofNat, Nat.shiftLeft_eq]
  have hslots : nSlots s % 2 ^ 8 % 2 ^ 32 * 2 ^ 0 % 2 ^ 32 = nSlots s % 256 := by omega
  have hsources : nSources s % 2 ^ 8 % 2 ^ 32 * 2 ^ 8 % 2 ^ 32 = 256 * (nSources s % 256) := by omega
  rw [hslots, hsources, Nat.or_comm, hor, Nat.add_comm]

/-! ## Reset (R40) -/

/-- Reset leaves the registers and slots at the values of R20 and R40. -/
theorem coreIsReset_resetCore (s : State) : CoreIsReset s (resetCore s) where
  cmd := rfl
  a0 := rfl
  a1 := rfl
  a2 := rfl
  a3 := rfl
  res := rfl
  status := rfl
  errinfo := rfl
  key := rfl
  slots := by rw [resetCore_slots, List.map_const']; rfl
  launch := sameLaunch_resetCore s

/-- The launch of `State.reset` is in range: its one handle is not attached, and HostMem starts where the window
ends. -/
theorem launchGood_reset : LaunchGood State.reset where
  slots := by decide
  sources := by decide
  data := by
    intro h src hsrc
    have := List.mem_of_getElem? (sourceOf_eq_some.1 hsrc)
    simp [State.reset] at this
  window := by decide
  windowFree := by
    intro off hoff
    simp [State.reset, admits, Region.contains]
    omega

theorem statusGood_reset : StatusGood State.reset :=
  ⟨by decide, by decide, fun _ => by decide, fun hc => absurd (by decide) hc, fun _ => ⟨by decide, rfl⟩⟩

/-! ## The obligations -/

/-- Settles O57, register by register: what an access reaches is its row of R20, and a read-only register ignores what
is written to it. -/
theorem windowAccessesFollowTheRule : Obligations.WindowAccessesFollowTheRule := by
  intro s v
  refine ⟨?_, ?_, ?_, ?_, ?_, ?_⟩
  · intro r hr
    simp only [List.mem_cons, List.not_mem_nil, or_false] at hr
    rcases hr with rfl | rfl | rfl | rfl
    · exact act_regWrite_offset (r := .a0) nofun rfl rfl rfl s v
    · exact act_regWrite_offset (r := .a1) nofun rfl rfl rfl s v
    · exact act_regWrite_offset (r := .a2) nofun rfl rfl rfl s v
    · exact act_regWrite_offset (r := .a3) nofun rfl rfl rfl s v
  · intro r hr
    simp only [List.mem_cons, List.not_mem_nil, or_false] at hr
    rcases hr with rfl | rfl | rfl | rfl | rfl | rfl
    · exact act_regRead_offset (r := .a0) rfl rfl rfl s
    · exact act_regRead_offset (r := .a1) rfl rfl rfl s
    · exact act_regRead_offset (r := .a2) rfl rfl rfl s
    · exact act_regRead_offset (r := .a3) rfl rfl rfl s
    · exact act_regRead_offset (r := .res) rfl rfl rfl s
    · exact act_regRead_offset (r := .errinfo) rfl rfl rfl s
  · intro off hoff
    simp only [List.mem_cons, List.not_mem_nil, or_false] at hoff
    rcases hoff with rfl | rfl
    · exact act_regWrite_whole (r := .res) (windowOffset_add s _) nofun v
    · exact act_regWrite_whole (r := .errinfo) (windowOffset_add s _) nofun v
  · intro off hoff
    simp only [List.mem_cons, List.not_mem_nil, or_false] at hoff
    rcases hoff with rfl | rfl | rfl | rfl | rfl | rfl | rfl | rfl | rfl | rfl | rfl
    · exact act_regWrite_low (r := .res) (windowOffset_add s _) rfl v
    · exact act_regWrite_high (r := .res) (windowOffset_add s _) rfl v
    · exact act_regWrite_whole (r := .status) (windowOffset_add s _) nofun v
    · exact act_regWrite_low (r := .errinfo) (windowOffset_add s _) rfl v
    · exact act_regWrite_high (r := .errinfo) (windowOffset_add s _) rfl v
    · exact act_regWrite_whole (r := .key0) (windowOffset_add s _) nofun v
    · exact act_regWrite_whole (r := .key1) (windowOffset_add s _) nofun v
    · exact act_regWrite_whole (r := .key2) (windowOffset_add s _) nofun v
    · exact act_regWrite_whole (r := .key3) (windowOffset_add s _) nofun v
    · exact act_regWrite_whole (r := .id) (windowOffset_add s _) nofun v
    · exact act_regWrite_whole (r := .params) (windowOffset_add s _) nofun v
  · intro addr bytes hbytes haligned hoff
    have hacc := windowAccess_unmapped hbytes haligned hoff
    simp [act, windowWrite, windowRead, hacc]
  · intro addr bytes h
    have hacc := windowAccess_undefined h
    simp [act, windowWrite, windowRead, hacc]

/-- Settles O56, register by register. -/
theorem windowReadsTheRegisters : Obligations.WindowReadsTheRegisters := by
  intro s p hp
  have params : readReg s .params = BitVec.ofNat 64 (nSlots s % 256 + 256 * (nSources s % 256)) :=
    paramsValue_setWidth s
  have read : ∀ (r : HostReg) (off : U64), off.toNat = r.offset →
      act (.regRead (s.regBase + off) r.bytes) s = .next { s with hostData := readReg s r } := fun r off h =>
    act_regRead_whole ((windowOffset_add s off).trans h)
  simp only [List.mem_cons, List.not_mem_nil, or_false] at hp
  rcases hp with rfl | rfl | rfl | rfl | rfl | rfl | rfl | rfl | rfl | rfl | rfl | rfl | rfl | rfl
  · exact read .cmd _ rfl
  · exact read .a0 _ rfl
  · exact read .a1 _ rfl
  · exact read .a2 _ rfl
  · exact read .a3 _ rfl
  · exact read .res _ rfl
  · exact read .status _ rfl
  · exact read .errinfo _ rfl
  · exact read .key0 _ rfl
  · exact read .key1 _ rfl
  · exact read .key2 _ rfl
  · exact read .key3 _ rfl
  · exact read .id _ rfl
  · exact params ▸ read .params _ rfl

/-- Settles O6: the access at offset 0 is CMD's, and the word written there is the one decoded. -/
theorem stepRunsTheDecodedCommand : Obligations.StepRunsTheDecodedCommand := by
  intro s w i hdec
  have run : ∀ u : State, runCommand w u = exec i { u with cmd := w } := fun u => by rw [runCommand, hdec]
  refine ⟨fun addr v rest hhost hoff hv => ?_, ?_⟩
  · rw [step, hhost]
    exact (act_regWrite_cmd (s := { s with host := rest }) hoff v).trans (hv ▸ run _)
  · have hw : (BitVec.ofNat 64 (w.toNat % 2 ^ 32)).setWidth 32 = w := by
      apply BitVec.eq_of_toNat_eq
      have := w.isLt
      simp only [BitVec.toNat_setWidth, BitVec.toNat_ofNat]
      omega
    exact (act_regWrite_cmd (windowOffset_regBase s) _).trans (hw.symm ▸ run s)

/-- Settles O58. -/
theorem resetBetweenCommands : Obligations.ResetBetweenCommands := fun s =>
  ⟨resetCore s, rfl, coreIsReset_resetCore s, rfl, rfl⟩

/-- Settles O10. -/
theorem resetStateIsGood : Obligations.ResetStateIsGood := by
  refine ⟨⟨rfl, statusGood_reset, fun v hv => ?_, launchGood_reset⟩, coreIsReset_resetCore State.reset⟩
  rw [List.eq_of_mem_replicate (n := 4) (a := Slot.closed) hv]
  trivial

end Sys2Proof.Machine

/-! # Laws of memory, sources and streams (spec/20_memory.md) -/

namespace Sys2Proof.Machine

/-! ## Checks in sequence -/

@[simp] theorem ok_bind {α β : Type} (a : α) (k : α → Except Failure β) :
    ((.ok a : Except Failure α) >>= k) = k a := rfl

@[simp] theorem error_bind {α β : Type} (f : Failure) (k : α → Except Failure β) :
    ((.error f : Except Failure α) >>= k) = .error f := rfl

/-! ## One action (R58) -/

/-- No action reaches the actions still pending. -/
theorem host_act {a : HostAction} {s t : State} (h : act a s = .next t) : t.host = s.host := by
  rcases act_cases h with ⟨w, -, hrun⟩ | ⟨-, hwas⟩ | ⟨-, hleft⟩
  · exact (sameInputs_runCommand hrun).host
  · exact hwas.host
  · exact hleft.host

/-- Settles O7: the step takes the first action off the list, and no action puts another on it. -/
theorem stepTakesOneHostAction : Obligations.StepTakesOneHostAction := by
  intro s
  refine ⟨fun hnil => by rw [step, hnil], fun a rest hcons => ?_⟩
  have hstep : step s = act a { s with host := rest } := by rw [step, hcons]
  exact ⟨hstep, fun t ht => host_act (hstep ▸ ht)⟩

/-! ## Host memory (R52, R67) -/

/-- A read after a host write of one byte (R67). -/
theorem byte_memWrite_singleton {s : State} (h : Memory.wf s.mem = true) (a : Nat) (v : Byte) (x : Nat) :
    Memory.byte (memWrite s a [v]).mem x = if x = a then v else Memory.byte s.mem x :=
  Memory.byte_store h a v x

/-- Settles O60. -/
theorem hostMemoryReadsBack : Obligations.HostMemoryReadsBack := by
  intro s hwf
  refine ⟨fun addr v => ?_, fun a bs hle => ?_⟩
  · have hbyte := byte_memWrite_singleton hwf addr.toNat v
    refine ⟨_, rfl, hbyte, ?_⟩
    rw [act, hbyte, if_pos rfl]
  · exact ⟨memRead_memWrite hwf fun _ => hle, sameMemoryOutside_memWrite hwf fun _ => hle⟩

/-! ## What a success leaves of the state before it -/

theorem flagsKept_succeed_of_status {s u : State} (h : u.status = s.status) (r : U64) : FlagsKept s (succeed u r) := by
  have hkept := flagsKept_succeed u r
  rwa [FlagsKept, h] at hkept

/-! ## SRC.SETPOS (R223) -/

theorem exec_srcSetpos_of_attached {s : State} {src : Source} (hsrc : sourceOf s s.a0.toNat = some src)
    (hpos : 0 ≤ s.a1.toInt) : exec .srcSetpos s = .next (succeed (srcSeek s s.a0.toNat s.a1) s.a1) := by
  have hchecks : setposOperand s = .ok s.a1 := by
    rw [setposOperand, (sourceOperand_ok_iff s src).2 hsrc, ok_bind, offsetOperand_ok hpos]
  rw [exec, execSrcSetpos, hchecks, command_ok]

/-- Settles O22: with both checks passed SRC.SETPOS is a seek under a success. -/
theorem setposMovesOneCursor : Obligations.SetposMovesOneCursor := by
  intro s src hsrc hpos
  have hsources : (succeed (srcSeek s s.a0.toNat s.a1) s.a1).sources = (srcSeek s s.a0.toNat s.a1).sources := rfl
  obtain ⟨hcursor, hothers⟩ := cursorSet_srcSeek hsources
  exact ⟨_, exec_srcSetpos_of_attached hsrc hpos, succeeds_succeed _ _, flagsKept_succeed_of_status rfl _, hcursor,
    hothers, (sameInputs_srcSeek _ _ _).trans (sameInputs_succeed _ _), rfl, rfl, fun _ => rfl⟩

/-! ## The check of a host range (R51, R247) -/

/-- A range that runs past 2^64 fails with its start. -/
theorem checkRange_past_end {s : State} {a n : Nat} (hn : n ≠ 0) (h : 2 ^ 64 < a + n) :
    checkRange s a n = .error (.hostAccess a) := by
  rw [checkRange, if_neg hn, if_pos h]

/-- A range below 2^64 fails with its lowest address outside HostMem. -/
theorem checkRange_gap {s : State} {a n g : Nat} (hle : a + n ≤ 2 ^ 64) (hag : a ≤ g) (hgn : g < a + n)
    (hg : admits s.hostMem g = false) (hbelow : ∀ x, a ≤ x → x < g → admits s.hostMem x = true) :
    checkRange s a n = .error (.hostAccess g) := by
  rcases checkRange_spec s a n with ⟨-, hall⟩ | ⟨-, -, hpast⟩ | ⟨g', h, -, -, hag', hgn', hg', hbelow'⟩
  · rcases hall with rfl | ⟨-, hall⟩
    · omega
    · rw [hall g hag hgn] at hg
      cases hg
  · omega
  · rcases Nat.lt_trichotomy g g' with hlt | rfl | hlt
    · rw [hbelow' g hag hlt] at hg
      cases hg
    · exact h
    · rw [hbelow g' hag' hlt] at hg'
      cases hg'

/-! ## What follows a check that fails -/

section Fails

variable {s : State} {f : Failure}

theorem command_cipher_of_admittedSpan_error {effect : Span → Result} (hkey : statusKeyv s.status = true)
    (h : admittedSpan s s.a3.toInt = .error f) : command s (cipherOperand s) effect = .next (raise s f) := by
  rw [cipherOperand, hkey, require_true, ok_bind, bufOperand, h, command_error]

theorem command_cipherN_of_admittedSpan_error {effect : Span → Result} {least n : Nat}
    (hkey : statusKeyv s.status = true) (hleast : least ≤ n) (hn : n ≤ 16)
    (h : admittedSpan s (4 * (n : Int)) = .error f) :
    command s (cipherOperandN s least n) effect = .next (raise s f) := by
  rw [cipherOperandN, hkey, require_true, ok_bind, decide_eq_true ⟨hleast, hn⟩, require_true, ok_bind, h,
    command_error]

theorem exec_absRead_of_bufOperand_error {slot : Nat} {g : Aligned} (hslot : s.slots[slot]? = some (.aligned g))
    (h : bufOperand s = .error f) : exec (.absRead slot) s = .next (raise s f) := by
  rw [exec, execAbsRead, absReadOperand, (alignedSlot_ok_iff s slot g).2 hslot, ok_bind, h, error_bind, command_error]

/-- `require_slot(Seq)` passes for either variant. -/
theorem seqSlot_of_open {slot : Nat} {g : Sequential}
    (hslot : s.slots[slot]? = some (.seqBlockTea g) ∨ s.slots[slot]? = some (.seqVbt g)) :
    ∃ kind, seqSlot s slot = .ok (kind, g) := by
  rcases hslot with hslot | hslot
  · exact ⟨.blockTea, (seqSlot_ok_iff s slot .blockTea g).2 hslot⟩
  · exact ⟨.variableBlockTea, (seqSlot_ok_iff s slot .variableBlockTea g).2 hslot⟩

theorem exec_seqRead_of_bufOperand_error {slot : Nat} {o : SeqKind × Sequential} (hslot : seqSlot s slot = .ok o)
    (h : bufOperand s = .error f) : exec (.seqRead slot) s = .next (raise s f) := by
  rw [exec, execSeqRead, seqReadOperand, hslot, ok_bind, h, error_bind, command_error]

/-- Every command of form BUF or BUFN raises what the check of its operand range raises (R75, R250). -/
theorem exec_of_admittedSpan_error {i : Instr} {count : Int} (htakes : TakesBuf s i count)
    (h : admittedSpan s count = .error f) : exec i s = .next (raise s f) := by
  rcases htakes with ⟨hi, hkey, rfl⟩ | ⟨n, hi, hn, hkey, rfl⟩ | ⟨slot, g, rfl, hslot, rfl⟩ | ⟨slot, g, rfl, hslot, rfl⟩
  · simp only [List.mem_cons, List.not_mem_nil, or_false] at hi
    rcases hi with rfl | rfl | rfl | rfl | rfl | rfl <;> exact command_cipher_of_admittedSpan_error hkey h
  · rcases hi with ⟨rfl, hleast⟩ | ⟨rfl, hleast⟩ <;> exact command_cipherN_of_admittedSpan_error hkey hleast hn h
  · exact exec_absRead_of_bufOperand_error hslot h
  · obtain ⟨kind, hseq⟩ := seqSlot_of_open hslot
    exact exec_seqRead_of_bufOperand_error hseq h

theorem admittedSpan_of_checkRange_error {count : Int} (hbuf : BufValid s count)
    (h : checkRange s (bufStart s) count.toNat = .error f) : admittedSpan s count = .error f := by
  rw [bufStart] at h
  rw [admittedSpan, bufSpan_ok hbuf, ok_bind, h, error_bind]

theorem keyBuffer_of_checkRange_error {addr : U64} (h : checkRange s addr.toNat 16 = .error f) :
    keyBuffer s addr = .error f := by
  rw [keyBuffer, h, error_bind]

theorem exec_keyload_of_keyBuffer_error (h : keyBuffer s s.a0 = .error f) : exec .keyload s = .next (raise s f) := by
  rw [exec, execKeyload, h, command_error]

theorem exec_absOpen_of_keyBuffer_error {slot : Nat} {src : Source} (hslot : s.slots[slot]? = some .closed)
    (hsrc : sourceOf s s.a0.toNat = some src) (hpos : 0 ≤ s.a1.toInt) (h : keyBuffer s s.a2 = .error f) :
    exec (.absOpen slot) s = .next (raise s f) := by
  rw [exec, execAbsOpen, absOpenOperand, (closedSlot_ok_iff s slot).2 hslot, ok_bind,
    (sourceOperand_ok_iff s src).2 hsrc, ok_bind, offsetOperand_ok hpos, ok_bind, h, error_bind, command_error]

theorem exec_seqOpen_of_keyBuffer_error {slot : Nat} {kind : SeqKind} {src : Source}
    (hslot : s.slots[slot]? = some .closed) (hsrc : sourceOf s s.a0.toNat = some src)
    (h : keyBuffer s s.a2 = .error f) : exec (.seqOpen slot kind) s = .next (raise s f) := by
  rw [exec, execSeqOpen, seqOpenOperand, (closedSlot_ok_iff s slot).2 hslot, ok_bind,
    (sourceOperand_ok_iff s src).2 hsrc, ok_bind, h, command_error]

end Fails

/-- The command's last check is that of the host range `[a, a+n)`: what it raises, the command raises (R250). -/
def RaisesFromRange (s : State) (i : Instr) (a n : Nat) : Prop :=
  ∀ f, checkRange s a n = .error f → exec i s = .next (raise s f)

/-- A command whose last check fails with HostAccessFault has no effect but that report (R247, R251). -/
theorem RaisesFromRange.failsCleanly {s : State} {i : Instr} {a n g : Nat} (h : RaisesFromRange s i a n)
    (hg : checkRange s a n = .error (.hostAccess g)) :
    FailsCleanly i s 0x82 0 ((Failure.hostAccess g).info s.draws) :=
  failsCleanly_of_raise (h _ hg) rfl

theorem info_hostAccess {g : Nat} (hg : g < 2 ^ 64) (c : Nat) : (Failure.hostAccess g).info c = BitVec.ofNat 64 g :=
  if_pos hg

/-- Settles O27: each command that takes a host range comes to its check once the others have passed, and that check
names the start of a range past 2^64 or the first address not admitted. -/
theorem hostRangesAreAdmittedFirst : Obligations.HostRangesAreAdmittedFirst := by
  intro s i a n hrange hn
  have hraises : RaisesFromRange s i a n := by
    intro f h
    rcases hrange with ⟨count, htakes, hbuf, rfl, rfl⟩ | ⟨rfl, rfl, rfl⟩ |
      ⟨slot, src, rfl, hslot, hsrc, hpos, rfl, rfl⟩ | ⟨slot, kind, src, rfl, hslot, hsrc, rfl, rfl⟩
    · exact exec_of_admittedSpan_error htakes (admittedSpan_of_checkRange_error hbuf h)
    · exact exec_keyload_of_keyBuffer_error (keyBuffer_of_checkRange_error h)
    · exact exec_absOpen_of_keyBuffer_error hslot hsrc hpos (keyBuffer_of_checkRange_error h)
    · exact exec_seqOpen_of_keyBuffer_error hslot hsrc (keyBuffer_of_checkRange_error h)
  refine ⟨fun hpast => ?_, fun hle g hag hgn hg hbelow => ?_⟩
  · exact ⟨_, hraises.failsCleanly (checkRange_past_end hn hpast), fun ha => info_hostAccess ha _⟩
  · rw [← info_hostAccess (by omega) s.draws]
    exact hraises.failsCleanly (checkRange_gap hle hag hgn hg hbelow)

end Sys2Proof.Machine

/-! # Laws of the cipher commands in place (spec/30_encoding.md rules R75, R76; spec/20_memory.md rule R59) -/

namespace Sys2Proof.Machine

section InPlace

variable {s : State} {a n : Nat}

/-- The range of R51 lies below 2^64 unless it is empty. -/
theorem Admitted.below (h : Admitted s a n) : n = 0 ∨ a + n ≤ 2 ^ 64 := h.imp id And.left

/-- A cipher command of form BUF, with a key loaded and an operand that passes R75 and R51 (R59, R104). -/
theorem command_cipher_inPlace {f : List Byte → List Byte} (hwf : Memory.wf s.mem = true)
    (hkey : statusKeyv s.status = true) (hbuf : BufValid s s.a3.toInt) (hadm : Admitted s (bufStart s) s.a3.toNat)
    (hf : ∀ x, (f x).length = x.length) :
    ∃ t, command s (cipherOperand s) (inPlace s f) = .next t ∧ InPlaceDone s t (bufStart s) s.a3.toNat f := by
  rw [cipherOperand_of_valid hkey hbuf hadm, command_ok]
  exact inPlace_done hwf hadm.below fun x hx => (hf x).trans hx

/-- The operand of form BUFN where KEYV, R76, R75 and R51 pass: 4N bytes, whatever A3 holds. -/
theorem cipherOperandN_of_valid {least : Nat} (hkey : statusKeyv s.status = true) (hleast : least ≤ n) (hn : n ≤ 16)
    (hbuf : BufValid s (4 * (n : Int))) (hadm : Admitted s (bufStart s) (4 * n)) :
    cipherOperandN s least n = .ok ⟨bufStart s, 4 * n⟩ := by
  have hcount : (4 * (n : Int)).toNat = 4 * n := by omega
  have hspan := admittedSpan_ok hbuf (hcount ▸ checkRange_of_admitted hadm)
  rw [cipherOperandN, hkey, require_true, ok_bind, decide_eq_true ⟨hleast, hn⟩, require_true, ok_bind, hspan, hcount,
    bufStart]

/-- A cipher command of form BUFN over a range of 4N bytes (R59, R150, R151). -/
theorem command_cipherN_inPlace {f : List Word → List Word} {least : Nat} (hwf : Memory.wf s.mem = true)
    (hkey : statusKeyv s.status = true) (hleast : least ≤ n) (hn : n ≤ 16) (hbuf : BufValid s (4 * (n : Int)))
    (hadm : Admitted s (bufStart s) (4 * n)) (hf : ∀ v, (f v).length = v.length) :
    ∃ t, command s (cipherOperandN s least n) (inPlace s (onWords f)) = .next t ∧
      InPlaceDone s t (bufStart s) (4 * n) (onWords f) := by
  rw [cipherOperandN_of_valid hkey hleast hn hbuf hadm, command_ok]
  refine inPlace_done hwf hadm.below fun x hx => ?_
  rw [length_onWords hf, hx]
  omega

end InPlace

/-- Settles O31. -/
theorem byteCipherInPlace : Obligations.ByteCipherInPlace := fun s hwf hkey hbuf hadm =>
  ⟨command_cipher_inPlace hwf hkey hbuf hadm (length_bfcEnc s.key),
    command_cipher_inPlace hwf hkey hbuf hadm (length_bfcDec s.key)⟩

/-- Settles O32. -/
theorem blockTeaInPlace : Obligations.BlockTeaInPlace := fun s hwf hkey hbuf hadm =>
  ⟨command_cipher_inPlace hwf hkey hbuf hadm (length_btDec s.key),
    command_cipher_inPlace hwf hkey hbuf hadm (length_btEnc s.key)⟩

/-- Settles O33. -/
theorem variableBlockTeaInPlace : Obligations.VariableBlockTeaInPlace := fun s hwf hkey hbuf hadm =>
  ⟨command_cipher_inPlace hwf hkey hbuf hadm (length_vbtDec s.key),
    command_cipher_inPlace hwf hkey hbuf hadm (length_vbtEnc s.key)⟩

/-- Settles O34: the two commands differ in the word function and in the least N (R76). -/
theorem wordBlockInPlace : Obligations.WordBlockInPlace := fun s _ hwf hkey hleast hn hbuf hadm =>
  ⟨command_cipherN_inPlace hwf hkey hleast hn hbuf hadm (length_vbtDecWords s.key),
    fun hleast => command_cipherN_inPlace hwf hkey hleast hn hbuf hadm (length_vbtEncWords s.key)⟩

end Sys2Proof.Machine

/-! # ABS.OPEN, ABS.READ and SEQ.READ (spec/43_aligned_block_stream.md, spec/44_sequential_stream.md) -/

namespace Sys2Proof.Machine

/-! ## A source read (R63) -/

/-- The state a read that delivers leaves: the cursor after the delivery, and one draw taken. -/
def afterDelivery (s : State) (h off count : Nat) : State :=
  { srcSeek s h (BitVec.ofNat 64 (off + count)) with draws := s.draws + 1 }

theorem sameInputs_afterDelivery (s : State) (h off count : Nat) : SameInputs s (afterDelivery s h off count) :=
  ⟨rfl, rfl, rfl, rfl, rfl, rfl, rfl, rfl, rfl⟩

theorem afterDelivery_sources (s : State) (h off count : Nat) :
    (afterDelivery s h off count).sources = (srcSeek s h (BitVec.ofNat 64 (off + count))).sources := rfl

/-- A read fails exactly where SRC_MAY_FAIL holds and the draw says so (R63, X1). -/
theorem srcRead_of_draw {s : State} {src : Source} (hmay : src.mayFail = true) (h off n : Nat) :
    srcRead s h src off n =
      if Config.drawReadFails s.draws then (srcCursorDraw s h, none)
      else (afterDelivery s h off (delivery src off n).length, some (delivery src off n)) := by
  rw [srcRead, hmay, Bool.true_and]
  rfl

theorem srcRead_of_reliable {s : State} {src : Source} (hmay : src.mayFail = false) (h off n : Nat) :
    srcRead s h src off n
      = (afterDelivery s h off (delivery src off n).length, some (delivery src off n)) :=
  srcRead_delivers hmay off n

/-! ## ABS.OPEN (R172) -/

/-- The checks of ABS.OPEN, where each passes (R172). -/
theorem absOpenOperand_of_valid {s : State} {slot : Nat} {src : Source} {K : Key}
    (hslot : s.slots[slot]? = some .closed) (hsrc : sourceOf s s.a0.toNat = some src) (hpos : 0 ≤ s.a1.toInt)
    (hadm : Admitted s s.a2.toNat 16) (hkey : KeyAt s s.a2.toNat K) :
    absOpenOperand slot s = .ok ⟨src, s.a1, K⟩ := by
  rw [absOpenOperand, (closedSlot_ok_iff s slot).2 hslot, ok_bind, (sourceOperand_ok_iff s src).2 hsrc, ok_bind,
    offsetOperand_ok hpos, ok_bind, keyBuffer_of_admitted hadm hkey, ok_bind]
  rfl

/-- The length of a stream is the word of the four bytes decrypted once (R172, R173). -/
theorem lengthPrefix_eq {K : Key} {raw : List Byte} {b0 b1 b2 b3 : Byte} (h : vbtDec K raw = [b0, b1, b2, b3]) :
    lengthPrefix K raw = le32 b0 b1 b2 b3 := by
  rw [lengthPrefix, h]
  rfl

/-- The state ABS.OPEN leaves where it opens the stream, from `u`, the state after its source read (R172). -/
def openedStream (s u : State) (slot : Nat) (K : Key) (length : Word) : State :=
  succeed (setSlot u slot (.aligned ⟨s.a0.toNat, K, s.a1 + 4, length, 0⟩)) (length.setWidth 64)

/-- ABS.OPEN opens the stream where its read delivers four bytes that decode to a length below 2^31 (R172). -/
theorem absOpenEffect_opens {s u : State} {slot : Nat} {src : Source} {K : Key} {raw : List Byte}
    (hread : srcRead s s.a0.toNat src s.a1.toNat 4 = (u, some raw)) (hraw : raw.length = 4)
    (hlen : (lengthPrefix K raw).toNat < 2 ^ 31) :
    absOpenEffect slot s ⟨src, s.a1, K⟩ = .next (openedStream s u slot K (lengthPrefix K raw)) := by
  have hwhole : ¬raw.length < 4 := by omega
  have hsmall : ¬2 ^ 31 ≤ (lengthPrefix K raw).toNat := by omega
  simp only [absOpenEffect, hread, if_neg hwhole, if_neg hsmall, openedStream]

theorem absOpened_openedStream (s : State) (slot : Nat) (K : Key) (length : Word) :
    AbsOpened s (openedStream s (afterDelivery s s.a0.toNat s.a1.toNat 4) slot K length) slot K length := by
  have horigin : BitVec.ofNat 64 (s.a1.toNat + 4) = s.a1 + 4 := by simp [BitVec.ofNat_add]
  have hsources := afterDelivery_sources s s.a0.toNat s.a1.toNat 4
  rw [horigin] at hsources
  obtain ⟨hcursor, hothers⟩ := cursorSet_srcSeek
    (t := openedStream s (afterDelivery s s.a0.toNat s.a1.toNat 4) slot K length) hsources
  exact
    { outcome := succeeds_succeed _ _
      flags := flagsKept_succeed_of_status rfl _
      inputs := (sameInputs_afterDelivery _ _ _ _).trans ((sameInputs_setSlot _ _ _).trans (sameInputs_succeed _ _))
      key := rfl
      slots := rfl
      cursor := hcursor
      sources := hothers
      memory := fun _ => rfl }

/-- Settles O44: the checks pass, the read delivers the four bytes of the length, and the length is below 2^31. -/
theorem absOpenOpensTheStream : Obligations.AbsOpenOpensTheStream := by
  intro s slot src K b0 b1 b2 b3 hslot hsrc hmay hpos hadm hkey hlong hdec hlen
  have hwhole : (delivery src s.a1.toNat 4).length = 4 := length_delivery_of_le hlong
  have hlength : lengthPrefix K (delivery src s.a1.toNat 4) = le32 b0 b1 b2 b3 := lengthPrefix_eq hdec
  have heffect := absOpenEffect_opens (slot := slot) (K := K)
    (srcRead_of_reliable (s := s) hmay s.a0.toNat s.a1.toNat 4) hwhole (hlength ▸ hlen)
  rw [hwhole, hlength] at heffect
  refine ⟨_, ?_, absOpened_openedStream s slot K (le32 b0 b1 b2 b3)⟩
  rw [exec, execAbsOpen, absOpenOperand_of_valid hslot hsrc hpos hadm hkey, command_ok, heffect]

/-! ## ABS.READ (R174 to R176) -/

theorem absReadOperand_of_valid {s : State} {slot : Nat} {f : Aligned} (hslot : s.slots[slot]? = some (.aligned f))
    (hbuf : BufValid s s.a3.toInt) (hadm : Admitted s (bufStart s) s.a3.toNat) :
    absReadOperand slot s = .ok (f, ⟨bufStart s, s.a3.toNat⟩) := by
  rw [absReadOperand, (alignedSlot_ok_iff s slot f).2 hslot, ok_bind, bufOperand_of_valid hbuf hadm, ok_bind]
  rfl

/-- ABS.READ whose checks pass: a success alone where the clamped count is 0, and else its source reads (R174). -/
theorem exec_absRead_of_valid {s : State} {slot : Nat} {f : Aligned} {src : Source}
    (hslot : s.slots[slot]? = some (.aligned f)) (hsrc : sourceOf s f.src = some src)
    (hbuf : BufValid s s.a3.toInt) (hadm : Admitted s (bufStart s) s.a3.toNat) :
    exec (.absRead slot) s =
      if absReadCount f s.a3.toNat = 0 then .next (succeed s 0)
      else absReadSome slot s f src (bufStart s) (absReadCount f s.a3.toNat) := by
  rw [exec, execAbsRead, absReadOperand_of_valid hslot hbuf hadm, command_ok, absReadEffect]
  cases hn : absReadCount f s.a3.toNat with
  | zero => rfl
  | succ n => simp only [hsrc, Nat.add_one_ne_zero, if_false]

/-- A success alone is a read of no byte. -/
theorem absReadDone_zero {s : State} {slot : Nat} {f : Aligned} {src : Source}
    (hslot : s.slots[slot]? = some (.aligned f)) (hsrc : sourceOf s f.src = some src) :
    AbsReadDone s (succeed s 0) slot f 0 [] where
  outcome := succeeds_succeed _ _
  flags := flagsKept_succeed _ _
  inputs := sameInputs_succeed _ _
  key := rfl
  slots := by
    obtain ⟨hlt, hget⟩ := List.getElem?_eq_some_iff.1 hslot
    simp [← hget]
  cursor := ⟨src.cursor, by rw [CursorSet, hsrc]; exact hsrc⟩
  sources := fun _ _ => rfl
  range := rfl
  outside := fun _ _ => rfl

/-- The reads of ABS.READ (R174, R175): the head block, the whole blocks between, and the tail block. -/
theorem mem_readPlan {length pos n : Nat} {r : ReadStep} (h : r ∈ readPlan length pos n) :
    (r.phase = .blockScratch ∧ r.first = 64 * (pos / 64)) ∨
      (pos / 64 < (pos + n) / 64 ∧ (pos + n) % 64 ≠ 0 ∧ r.phase = .blockScratch ∧ r.first = 64 * ((pos + n) / 64)) ∨
      (pos / 64 + 1 < (pos + n) / 64 ∧ r.phase = .content ∧ r.first = 64 * (pos / 64) + 64) := by
  simp only [readPlan, List.mem_cons, List.mem_ite_nil_right, List.mem_append, List.mem_ite_nil_left,
    List.not_mem_nil, or_false] at h
  rcases h with rfl | ⟨hblocks, ⟨hmid, rfl⟩ | ⟨hpart, rfl⟩⟩
  · exact .inl ⟨rfl, rfl⟩
  · refine .inr (.inr ⟨?_, rfl, by simp only; omega⟩)
    split at hmid <;> omega
  · exact .inr (.inl ⟨by omega, hpart, rfl, by simp only [blockStep]; omega⟩)

/-- DEVICE of the read `r` of ABS.READ's plan, in the cases of R244. -/
theorem fails_device_of_mem_readPlan {t : State} {f : Aligned} {n : Nat} {r : ReadStep}
    (hr : r ∈ readPlan f.length.toNat f.pos.toNat n)
    (h : Fails t 0x03 r.phase.code 1 (BitVec.ofNat 64 (f.origin.toNat + r.first))) :
    Fails t 0x03 2 1 (BitVec.ofNat 64 (f.origin.toNat + 64 * (f.pos.toNat / 64))) ∨
      f.pos.toNat / 64 < (f.pos.toNat + n) / 64 ∧ (f.pos.toNat + n) % 64 ≠ 0 ∧
        Fails t 0x03 2 1 (BitVec.ofNat 64 (f.origin.toNat + 64 * ((f.pos.toNat + n) / 64))) ∨
      f.pos.toNat / 64 + 1 < (f.pos.toNat + n) / 64 ∧
        Fails t 0x03 3 1 (BitVec.ofNat 64 (f.origin.toNat + 64 * (f.pos.toNat / 64) + 64)) := by
  rcases mem_readPlan hr with ⟨hphase, hfirst⟩ | ⟨hblocks, hpart, hphase, hfirst⟩ | ⟨hblocks, hphase, hfirst⟩ <;>
    rw [hphase, hfirst] at h
  · exact .inl h
  · exact .inr (.inl ⟨hblocks, hpart, h⟩)
  · exact .inr (.inr ⟨hblocks, h⟩)

/-- The content of a stream that lies in its source has the stream's length (R170). -/
theorem length_content {data : List Byte} {f : Aligned} (h : f.origin.toNat + f.length.toNat ≤ data.length) :
    (content data f).length = f.length.toNat := by
  rw [content, length_vbtDec, List.length_take, List.length_drop]
  omega

/-- Settles O49: no read of the plan runs past the source, so the run delivers the slice, or the draw fails one read of
the plan. -/
theorem absReadDeliversOrNamesItsRead : Obligations.AbsReadDeliversOrNamesItsRead := by
  intro s slot f src n stop hwf hslot hsrc hpos hsource hbuf hadm hn hstop
  subst hstop
  have hcount : absReadCount f s.a3.toNat = n := hn.symm
  rw [exec_absRead_of_valid hslot hsrc hbuf hadm, hcount]
  by_cases h0 : n = 0
  · rw [if_pos h0, h0, List.take_zero]
    exact ⟨_, rfl, .inl (absReadDone_zero hslot hsrc)⟩
  · rw [if_neg h0]
    have hfit : f.pos.toNat + n ≤ f.length.toNat := by omega
    have hbelow : bufStart s + n ≤ 2 ^ 64 := by
      rcases hadm.below with h | h <;> omega
    have hruns := runReads_outcome hsource (covers_readPlan h0 hfit) s
    rcases absReadSome_spec hwf slot f src hbelow with ⟨e, t, he, ht, hfails, hframe⟩ | ⟨out, t, hout, ht, hdone⟩
    · rcases hruns with ⟨hmay, r, hr, hdevice⟩ | hok
      · cases he.symm.trans hdevice
        exact ⟨t, ht, .inr ⟨hmay, h0, hframe, fails_device_of_mem_readPlan hr hfails⟩⟩
      · cases he.symm.trans hok
    · rcases hruns with ⟨-, r, -, hdevice⟩ | hok
      · cases hout.symm.trans hdevice
      · cases hout.symm.trans hok
        rw [Nat.add_sub_cancel_left] at hdone
        refine ⟨t, ht, .inl (hdone ?_)⟩
        rw [List.length_take, List.length_drop, length_content hsource]
        omega

/-! ## SEQ.READ (R201) -/

theorem seqReadOperand_of_valid {s : State} {slot : Nat} {o : SeqKind × Sequential} (hslot : seqSlot s slot = .ok o)
    (hbuf : BufValid s s.a3.toInt) (hadm : Admitted s (bufStart s) s.a3.toNat) :
    seqReadOperand slot s = .ok (o, ⟨bufStart s, s.a3.toNat⟩) := by
  rw [seqReadOperand, hslot, ok_bind, bufOperand_of_valid hbuf hadm, ok_bind]
  rfl

/-- SEQ.READ whose checks pass: a success alone where the count is 0, and else its source read (R201). -/
theorem exec_seqRead_of_valid {s : State} {slot : Nat} {kind : SeqKind} {f : Sequential} {src : Source}
    (hslot : seqSlot s slot = .ok (kind, f)) (hsrc : sourceOf s f.src = some src) (hbuf : BufValid s s.a3.toInt)
    (hadm : Admitted s (bufStart s) s.a3.toNat) :
    exec (.seqRead slot) s =
      if s.a3.toNat = 0 then .next (succeed s 0) else seqReadSome s kind f src ⟨bufStart s, s.a3.toNat⟩ := by
  rw [exec, execSeqRead, seqReadOperand_of_valid hslot hbuf hadm, command_ok, seqReadEffect]
  simp only [hsrc]

@[simp] theorem length_seqDec (kind : SeqKind) (K : Key) (raw : List Byte) :
    (seqDec kind K raw).length = raw.length := by
  cases kind <;> simp [seqDec]

/-- The state SEQ.READ leaves where its read delivers `raw` (R201). -/
def seqDelivered (s : State) (kind : SeqKind) (f : Sequential) (src : Source) (raw : List Byte) : State :=
  succeed (memWrite (afterDelivery s f.src src.cursor.toNat raw.length) (bufStart s) (seqDec kind f.key raw))
    (BitVec.ofNat 64 raw.length)

theorem seqReadDone_seqDelivered {s : State} (hwf : Memory.wf s.mem = true) (kind : SeqKind) (f : Sequential)
    (src : Source) {raw : List Byte} (hbelow : bufStart s + raw.length ≤ 2 ^ 64) :
    SeqReadDone s (seqDelivered s kind f src raw) f src raw (seqDec kind f.key raw) := by
  have hcursor : BitVec.ofNat 64 (src.cursor.toNat + raw.length) = src.cursor + BitVec.ofNat 64 raw.length := by
    simp [BitVec.ofNat_add]
  have hsources := afterDelivery_sources s f.src src.cursor.toNat raw.length
  rw [hcursor] at hsources
  obtain ⟨hcursor, hothers⟩ := cursorSet_srcSeek (t := seqDelivered s kind f src raw) hsources
  have hlen := length_seqDec kind f.key raw
  have hfits : seqDec kind f.key raw ≠ [] → bufStart s + (seqDec kind f.key raw).length ≤ 2 ^ 64 :=
    fun _ => hlen ▸ hbelow
  have hwf' : Memory.wf (afterDelivery s f.src src.cursor.toNat raw.length).mem = true := hwf
  have hrange := memRead_memWrite hwf' hfits
  have houtside := sameMemoryOutside_memWrite hwf' hfits
  rw [hlen] at hrange houtside
  exact
    { outcome := succeeds_succeed _ _
      flags := flagsKept_succeed_of_status rfl _
      inputs := (sameInputs_afterDelivery _ _ _ _).trans ((sameInputs_memWrite _ _ _).trans (sameInputs_succeed _ _))
      key := rfl
      slots := rfl
      cursor := hcursor
      sources := hothers
      range := hrange
      outside := houtside }

/-- A failing read of SEQ.READ moves the cursor of its source and writes no host byte (R201). -/
theorem streamReadFailed_raise_srcCursorDraw (s : State) (h : Nat) (e : Failure) :
    StreamReadFailed s (raise (srcCursorDraw s h) e) h 0 := by
  obtain ⟨hcursor, hothers⟩ := cursorSet_srcSeek (s := s) (t := raise (srcCursorDraw s h) e)
    (srcCursorDraw_sources s h)
  exact
    { keyv := (onlyReports_raise (srcCursorDraw s h) e).keyv
      inputs := (sameInputs_srcCursorDraw _ _).trans (sameInputs_raise _ _)
      key := rfl
      slots := rfl
      cursor := ⟨_, hcursor⟩
      sources := hothers
      outside := fun _ _ => rfl }

/-- SEQ.READ of at least one byte over a source that may fail: the draw chooses the outcome (R63, R201). -/
theorem seqReadSome_of_draw {s : State} {src : Source} (hmay : src.mayFail = true) (kind : SeqKind) (f : Sequential)
    (n : Nat) :
    seqReadSome s kind f src ⟨bufStart s, n⟩ =
      .next (if Config.drawReadFails s.draws then
          raise (srcCursorDraw s f.src) (.underlyingIO .content .device src.cursor)
        else seqDelivered s kind f src (delivery src src.cursor.toNat n)) := by
  rw [seqReadSome, srcRead_of_draw hmay]
  cases Config.drawReadFails s.draws <;> rfl

/-- A slot of either variant, and the decryption its kind asks for (R202, R203). -/
theorem seqSlot_and_seqDec {s : State} {slot : Nat} {f : Sequential} {raw out : List Byte}
    (h : (s.slots[slot]? = some (.seqBlockTea f) ∧ out = btDec f.key raw) ∨
      (s.slots[slot]? = some (.seqVbt f) ∧ out = vbtDec f.key raw)) :
    ∃ kind, seqSlot s slot = .ok (kind, f) ∧ out = seqDec kind f.key raw := by
  rcases h with ⟨hslot, hout⟩ | ⟨hslot, hout⟩
  · exact ⟨.blockTea, (seqSlot_ok_iff s slot .blockTea f).2 hslot, hout⟩
  · exact ⟨.variableBlockTea, (seqSlot_ok_iff s slot .variableBlockTea f).2 hslot, hout⟩

/-- Settles O50, by the draw. -/
theorem seqReadDeliversOrFails : Obligations.SeqReadDeliversOrFails := by
  intro s slot f src raw out hwf hsrc hmay hbuf ha3 hadm hraw hvariant
  obtain ⟨kind, hslot, rfl⟩ := seqSlot_and_seqDec hvariant
  have hcount : s.a3.toNat ≠ 0 := fun h => ha3 (BitVec.eq_of_toNat_eq h)
  have hdelivery : delivery src src.cursor.toNat s.a3.toNat = raw := hraw.symm
  have hexec := exec_seqRead_of_valid hslot hsrc hbuf hadm
  rw [if_neg hcount, seqReadSome_of_draw hmay, hdelivery] at hexec
  refine ⟨_, hexec, ?_⟩
  split
  · exact ⟨fails_raise _ _, streamReadFailed_raise_srcCursorDraw s f.src _⟩
  · refine seqReadDone_seqDelivered hwf kind f src ?_
    have hlen : raw.length ≤ s.a3.toNat := by
      rw [← hdelivery, length_delivery]
      exact Nat.min_le_left _ _
    rcases hadm.below with h | h <;> omega

end Sys2Proof.Machine

/-! # The command word: decoder, encoder and opcode table (spec/30_encoding.md rules R70 to R73, R80, R245) -/

namespace Sys2Proof

/-! ## The rows of the opcode table -/

/-- The mask column of rule R80 for a row: every bit of the word but those of the fields the row permits. -/
def Permits.mask (p : Permits) : Word :=
  ~~~packWord 0 (if p.slot then 15 else 0) (if p.whence then 3 else 0) (if p.kind then 1 else 0) (if p.n then 31 else 0)

/-- The fields with those a row does not permit at their zero value. -/
def Permits.restrict (p : Permits) (f : Fields) : Fields where
  slot := if p.slot then f.slot else 0
  whence := if p.whence then f.whence else .fromBegin
  kind := if p.kind then f.kind else .blockTea
  n := if p.n then f.n else 0

/-- What rule R80 says of a row: the mask and match of its commands, which of their field values a word can spell, and
that they carry no field the row does not permit. -/
structure RowMeaning (op : Byte) (p : Permits) (mk : Fields → Instr) : Prop where
  row : ∀ f, (mk f).row = ⟨p.mask, packOp op⟩
  wellFormed : ∀ f, (mk f).wellFormed = ((!p.slot || slotFits f.slot) && (!p.n || countFits f.n))
  restrict : ∀ f, mk (p.restrict f) = mk f

theorem rowMeaning_of_opRow {op : Byte} {p : Permits} {mk : Fields → Instr} (h : opRow op = some (p, mk)) :
    RowMeaning op p mk := by
  have hop : op = BitVec.ofNat 8 op.toNat := by simp
  unfold opRow at h
  generalize op.toNat = k at h hop
  subst hop
  split at h
  case h_29 => cases h
  all_goals
    cases h
    refine ⟨fun _ => rfl, fun _ => ?_, fun _ => rfl⟩
    simp [Instr.wellFormed, Permits.nothing, Permits.slotOnly, Permits.seek, Permits.seqOpen, Permits.count]

/-- Every command is in the table, at the OP its match column holds. -/
theorem exists_opRow (i : Instr) : ∃ op p mk f, opRow op = some (p, mk) ∧ mk f = i := by
  refine ⟨i.row.pattern.setWidth 8, ?_⟩
  cases i
  case nop | keyload | clrerr | srcSetpos | srcGetpos | bfcEnc | bfcDec | bteaDec | bteaEnc | vbtDec | vbtEnc =>
    exact ⟨_, _, ⟨0, .fromBegin, .blockTea, 0⟩, rfl, rfl⟩
  case vbtDecn n | vbtEncn n => exact ⟨_, _, ⟨0, .fromBegin, .blockTea, n⟩, rfl, rfl⟩
  case absSeek slot whence | seqSeek slot whence => exact ⟨_, _, ⟨slot, whence, .blockTea, 0⟩, rfl, rfl⟩
  case seqOpen slot kind => exact ⟨_, _, ⟨slot, .fromBegin, kind, 0⟩, rfl, rfl⟩
  all_goals
    rename_i slot
    exact ⟨_, _, ⟨slot, .fromBegin, .blockTea, 0⟩, rfl, rfl⟩

/-! ## A word under the mask of a row -/

@[simp] theorem opField_and (v w : Word) : opField (v &&& w) = opField v &&& opField w := BitVec.extractLsb'_and

@[simp] theorem slotField_and (v w : Word) : slotField (v &&& w) = slotField v &&& slotField w := BitVec.extractLsb'_and

@[simp] theorem whenceField_and (v w : Word) : whenceField (v &&& w) = whenceField v &&& whenceField w :=
  BitVec.extractLsb'_and

@[simp] theorem kindField_and (v w : Word) : kindField (v &&& w) = kindField v &&& kindField w := BitVec.extractLsb'_and

@[simp] theorem nField_and (v w : Word) : nField (v &&& w) = nField v &&& nField w := BitVec.extractLsb'_and

/-- The fields of a row's mask: all ones, or zero where the row permits the field. -/
theorem fields_mask (p : Permits) :
    opField p.mask = BitVec.allOnes 8 ∧ slotField p.mask = (if p.slot then 0 else BitVec.allOnes 4) ∧
      whenceField p.mask = (if p.whence then 0 else BitVec.allOnes 2) ∧
      kindField p.mask = (if p.kind then 0 else BitVec.allOnes 1) ∧
      nField p.mask = (if p.n then 0 else BitVec.allOnes 5) ∧
      p.mask &&& 0xFFE08000#32 = 0xFFE08000#32 := by
  obtain ⟨slot, whence, kind, n⟩ := p
  revert slot whence kind n
  decide

theorem fieldsPermitted_iff (p : Permits) (w : Word) :
    fieldsPermitted p w = true ↔ (p.slot = true ∨ slotField w = 0) ∧ (p.whence = true ∨ whenceField w = 0) ∧
      (p.kind = true ∨ kindField w = 0) ∧ (p.n = true ∨ nField w = 0) := by
  simp only [fieldsPermitted, Bool.and_eq_true, Bool.or_eq_true, beq_iff_eq, and_assoc]

/-- The words that set OP alone. -/
theorem eq_packOp_iff (w : Word) (op : Byte) :
    w = packOp op ↔ reservedSet w = false ∧ opField w = op ∧ slotField w = 0 ∧ whenceField w = 0 ∧ kindField w = 0 ∧
      nField w = 0 := by
  constructor
  · rintro rfl
    simp [packOp]
  · rintro ⟨hres, hop, hslot, hwhence, hkind, hn⟩
    rw [word_of_fields hres, hop, hslot, hwhence, hkind, hn, packOp]

/-- Rule R80's test of a word against a row says that the reserved bits are clear (R71), that OP is the row's, and that
no field is set but those the row permits (R72). -/
theorem and_mask_eq_iff (w : Word) (op : Byte) (p : Permits) :
    w &&& p.mask = packOp op ↔ reservedSet w = false ∧ opField w = op ∧ fieldsPermitted p w = true := by
  obtain ⟨hop, hslot, hwhence, hkind, hn, hres⟩ := fields_mask p
  have reserved : reservedSet (w &&& p.mask) = false ↔ reservedSet w = false := by
    rw [reservedSet_eq_false_iff, reservedSet_eq_false_iff, BitVec.and_assoc, hres]
  have field : ∀ {n : Nat} (permitted : Bool) (v : BitVec n),
      v &&& (if permitted then 0 else BitVec.allOnes n) = 0 ↔ permitted = true ∨ v = 0 := by
    intro n permitted v
    cases permitted <;> simp
  rw [eq_packOp_iff, reserved, opField_and, slotField_and, whenceField_and, kindField_and, nField_and, hop, hslot,
    hwhence, hkind, hn, BitVec.and_allOnes, field, field, field, field, fieldsPermitted_iff]

/-- The decoder accepts a word of a row, as the command the row spells with the word's fields. -/
theorem decode_of_opRow {w : Word} {p : Permits} {mk : Fields → Instr} (hres : reservedSet w = false)
    (hrow : opRow (opField w) = some (p, mk)) (hpermitted : fieldsPermitted p w = true) :
    decode w = .ok (mk (fieldsOf w)) := by
  simp [decode, hres, hrow, hpermitted]

end Sys2Proof

namespace Sys2Proof.Machine

/-! ## What the decoder answers -/

/-- A word that matches a row of rule R80 decodes to a command of that row. -/
theorem decode_of_match {w : Word} {j : Instr} (h : w &&& j.row.mask = j.row.pattern) :
    ∃ i, decode w = .ok i ∧ i.row = j.row := by
  obtain ⟨op, p, mk, f, hrow, rfl⟩ := exists_opRow j
  have meaning := rowMeaning_of_opRow hrow
  rw [meaning.row, and_mask_eq_iff] at h
  obtain ⟨hres, rfl, hpermitted⟩ := h
  exact ⟨_, decode_of_opRow hres hrow hpermitted, by rw [meaning.row, meaning.row]⟩

/-- A word that decodes to a command matches the command's row of rule R80. -/
theorem match_of_decode {w : Word} {i : Instr} (h : decode w = .ok i) : w &&& i.row.mask = i.row.pattern := by
  obtain ⟨hres, p, mk, hrow, hpermitted, rfl⟩ := decode_ok h
  rw [(rowMeaning_of_opRow hrow).row, and_mask_eq_iff]
  exact ⟨hres, rfl, hpermitted⟩

/-- The fields of any word fit their places (R70). -/
theorem wellFormed_of_decode {w : Word} {i : Instr} (h : decode w = .ok i) : i.wellFormed = true := by
  obtain ⟨-, p, mk, hrow, -, rfl⟩ := decode_ok h
  have hslot : slotFits (fieldsOf w).slot = true := decide_eq_true (slotField w).isLt
  have hn : countFits (fieldsOf w).n = true := decide_eq_true (nField w).isLt
  rw [(rowMeaning_of_opRow hrow).wellFormed, hslot, hn, Bool.or_true, Bool.or_true, Bool.and_true]

/-- The word of a row's command sets no field the row does not permit. -/
theorem fieldsPermitted_encode {op : Byte} {p : Permits} {mk : Fields → Instr} (hrow : opRow op = some (p, mk))
    (f : Fields) : fieldsPermitted p (encode (mk f)) = true := by
  have field : ∀ {n : Nat} (permitted : Bool) (v : BitVec n), permitted = true ∨ (if permitted then v else 0) = 0 := by
    intro n permitted v
    cases permitted <;> simp
  rw [encode_of_opRow hrow, fieldsPermitted_iff, slotField_packWord, whenceField_packWord, kindField_packWord,
    nField_packWord]
  exact ⟨field _ _, field _ _, field _ _, field _ _⟩

/-- A number that fits its place is read back from it. -/
theorem toNat_place {permitted : Bool} {n v : Nat} (h : (!permitted) = true ∨ v < 2 ^ n) :
    (if permitted then BitVec.ofNat n v else 0).toNat = if permitted then v else 0 := by
  cases permitted
  · rfl
  · exact Nat.mod_eq_of_lt (h.resolve_left nofun)

/-- The word of a row's command carries the fields the row permits, where they fit their places. -/
theorem fieldsOf_encode {op : Byte} {p : Permits} {mk : Fields → Instr} (hrow : opRow op = some (p, mk)) {f : Fields}
    (hwf : (mk f).wellFormed = true) : fieldsOf (encode (mk f)) = p.restrict f := by
  rw [(rowMeaning_of_opRow hrow).wellFormed, Bool.and_eq_true, Bool.or_eq_true, Bool.or_eq_true] at hwf
  obtain ⟨hslot, hn⟩ := hwf
  have slot := toNat_place (n := 4) (hslot.imp_right of_decide_eq_true)
  have n := toNat_place (n := 5) (hn.imp_right of_decide_eq_true)
  have whence : Whence.ofField (if p.whence then f.whence.toField else 0) = if p.whence then f.whence else .fromBegin := by
    cases p.whence
    · rfl
    · exact Whence.ofField_toField _
  have kind : SeqKind.ofField (if p.kind then f.kind.toField else 0) = if p.kind then f.kind else .blockTea := by
    cases p.kind
    · rfl
    · exact SeqKind.ofField_toField _
  rw [encode_of_opRow hrow, fieldsOf, slotField_packWord, whenceField_packWord, kindField_packWord, nField_packWord,
    slot, whence, kind, n, Permits.restrict]

/-- Settles O1: the command's row gives its word's OP, and the word's fields are those the row permits, which are all
the command carries. -/
theorem decodeOfEncode : Obligations.DecodeOfEncode := by
  intro i hwf
  obtain ⟨op, p, mk, f, hrow, rfl⟩ := exists_opRow i
  have hres : reservedSet (encode (mk f)) = false := by rw [encode_of_opRow hrow, reservedSet_packWord]
  have hop : opField (encode (mk f)) = op := by rw [encode_of_opRow hrow, opField_packWord]
  rw [decode_of_opRow hres (hop.symm ▸ hrow) (fieldsPermitted_encode hrow f), fieldsOf_encode hrow hwf,
    (rowMeaning_of_opRow hrow).restrict]

/-- Settles O2. -/
theorem encodeOfDecode : Obligations.EncodeOfDecode := fun _ _ h => ⟨encode_of_decode h, wellFormed_of_decode h⟩

/-- Settles O3. -/
theorem decoderFollowsMaskAndMatch : Obligations.DecoderFollowsMaskAndMatch := by
  refine fun w j => ⟨decode_of_match, fun ⟨i, hdec, hrow⟩ => ?_⟩
  rw [← hrow]
  exact match_of_decode hdec

/-! ## The rejected words (R71 to R73, R245) -/

/-- The assigned OP values are the rows of the table (R73). -/
theorem opRow_eq_none_iff (op : Byte) : opRow op = none ↔ op.toNat ∉ assignedOps := by
  unfold opRow
  split <;> simp_all [assignedOps]

/-- A word the decoder rejects raises IllegalCommand with the decoder's reason as its DETAIL (R245). -/
theorem raisesIllegalCommand_of_decode {w : Word} {d : DecodeError} (h : decode w = .error d) (s : State) :
    RaisesIllegalCommand w s (illegalCode d) :=
  ⟨_, by rw [runCommand, h], fails_raise _ (.illegalCommand d w), onlyReports_raise _ _⟩

theorem decode_of_reservedSet {w : Word} (h : reservedSet w = true) : decode w = .error .reservedBits := by
  simp [decode, h]

theorem decode_of_unassigned {w : Word} (hres : reservedSet w = false) (hrow : opRow (opField w) = none) :
    decode w = .error .unknownOp := by
  simp [decode, hres, hrow]

/-- A word with an assigned OP that matches no row is rejected for its fields (R72). -/
theorem decode_of_no_match {w : Word} (hres : reservedSet w = false) (hrow : opRow (opField w) ≠ none)
    (hno : ∀ i : Instr, w &&& i.row.mask ≠ i.row.pattern) : decode w = .error .field := by
  cases hdec : decode w with
  | ok i => exact absurd (match_of_decode hdec) (hno i)
  | error d =>
    rcases decode_error hdec with ⟨-, hset⟩ | ⟨-, -, hnone⟩ | ⟨rfl, -⟩
    · rw [hres] at hset
      cases hset
    · exact absurd hnone hrow
    · rfl

/-- Settles O4: each clause is one answer of the decoder, in the order in which it looks at the word. -/
theorem rejectedWordsRaiseIllegalCommand : Obligations.RejectedWordsRaiseIllegalCommand := by
  refine ⟨by decide +kernel, fun w s => ⟨fun hset => ?_, fun hclear hop => ?_, fun hclear hop hno => ?_,
    fun i hmatch => ?_⟩⟩
  · refine raisesIllegalCommand_of_decode (decode_of_reservedSet ?_) s
    rw [← Bool.not_eq_false, reservedSet_eq_false_iff]
    exact hset
  · exact raisesIllegalCommand_of_decode
      (decode_of_unassigned ((reservedSet_eq_false_iff w).2 hclear) ((opRow_eq_none_iff _).2 hop)) s
  · refine raisesIllegalCommand_of_decode
      (decode_of_no_match ((reservedSet_eq_false_iff w).2 hclear) ?_ hno) s
    rw [Ne, opRow_eq_none_iff, not_not]
    exact hop
  · obtain ⟨j, hdec, -⟩ := decode_of_match hmatch
    exact ⟨j, hdec⟩

/-- Settles O5. -/
theorem sampleWordsDecode : Obligations.SampleWordsDecode := by
  unfold Obligations.SampleWordsDecode
  decide

/-! ## Statements (R81) -/

/-- The step of a program takes its first statement. -/
theorem step_withProgram_singleton (s : State) (p : Statement) :
    step (s.withProgram [p]) = act (p.action s.regBase) s := rfl

/-- A `mov` statement writes its whole argument register. -/
theorem act_mov (s : State) (k : Fin 4) (imm : Int) :
    act ((Statement.mov k imm).action s.regBase) s = .next (writeReg s (argReg k) (BitVec.ofInt 64 imm)) := by
  have hoff : windowOffset s (busAddress s.regBase (argReg k)) = (argReg k).offset := by
    rw [busAddress, windowOffset_add]
    fin_cases k <;> rfl
  have hbytes : (argReg k).bytes = 8 := by fin_cases k <;> rfl
  have hcmd : argReg k ≠ .cmd := by fin_cases k <;> nofun
  have hact := act_regWrite_whole hoff hcmd (BitVec.ofInt 64 imm)
  rwa [hbytes] at hact

/-- A command statement writes its command's word to CMD. -/
theorem act_command (s : State) (i : Instr) :
    act ((Statement.command i).action s.regBase) s = runCommand (encode i) s := by
  have hoff : windowOffset s (busAddress s.regBase .cmd) = 0 := windowOffset_add s _
  have hword : ((encode i).setWidth 64).setWidth 32 = encode i := by simp
  exact (act_regWrite_cmd hoff _).trans (by rw [hword])

/-- Settles O8: a word written to CMD runs the command it decodes to, which O1 says is the statement's. -/
theorem statementsRunAsWritten : Obligations.StatementsRunAsWritten := by
  refine fun s i imm => ⟨fun hwf => ?_, act_mov s 0 imm, act_mov s 1 imm, act_mov s 2 imm, act_mov s 3 imm⟩
  rw [step_withProgram_singleton, act_command, runCommand, decodeOfEncode i hwf]

end Sys2Proof.Machine

/-! # The operand checks of the commands (spec/30_encoding.md rules R75, R76, R79; spec/60_exceptions.md R246) -/

namespace Sys2Proof.Machine

/-! ## BUF and BUFN (R75) -/

section BufChecks

variable {s : State} {i : Instr} {count : Int} {f : Failure}

theorem admittedSpan_of_bufSpan_error (h : bufSpan s count = .error f) : admittedSpan s count = .error f := by
  rw [admittedSpan, h, error_bind]

/-- The failure of a check of R75 is all a command of form BUF or BUFN does (R250, R251). -/
theorem TakesBuf.failsCleanly (htakes : TakesBuf s i count) (h : bufSpan s count = .error f) (hphase : f.phase = 0) :
    FailsCleanly i s f.cause f.detail (f.info s.draws) :=
  failsCleanly_of_raise (exec_of_admittedSpan_error htakes (admittedSpan_of_bufSpan_error h)) hphase

theorem bufSpan_startNeg (h : s.a2.toInt < 0) : bufSpan s count = .error (.invalidArgument .startNeg s.a2) := by
  rw [bufSpan, if_pos h]

theorem bufSpan_countNeg (hstart : 0 ≤ s.a2.toInt) (h : count < 0) :
    bufSpan s count = .error (.invalidArgument .countNeg s.a3) := by
  rw [bufSpan, if_neg hstart.not_gt, if_pos h]

theorem bufSpan_buflenNeg (hstart : 0 ≤ s.a2.toInt) (hcount : 0 ≤ count) (h : s.a1.toInt < 0) :
    bufSpan s count = .error (.invalidArgument .buflenNeg s.a1) := by
  rw [bufSpan, if_neg hstart.not_gt, if_neg hcount.not_gt, if_pos h]

theorem bufSpan_tooLarge (hstart : 0 ≤ s.a2.toInt) (hcount : 0 ≤ count) (hbuflen : 0 ≤ s.a1.toInt)
    (h : maxCount < s.a1.toInt ∨ maxCount < count) :
    bufSpan s count = .error (.invalidArgument .tooLarge (BitVec.ofInt 64 (max s.a1.toInt count))) := by
  rw [bufSpan, if_neg hstart.not_gt, if_neg hcount.not_gt, if_neg hbuflen.not_gt, if_pos h]

theorem bufSpan_range (hstart : 0 ≤ s.a2.toInt) (hcount : 0 ≤ count) (hbuflen : 0 ≤ s.a1.toInt)
    (hlarge : ¬(maxCount < s.a1.toInt ∨ maxCount < count)) (h : s.a1.toInt < s.a2.toInt + count) :
    bufSpan s count = .error (.invalidArgument .range (BitVec.ofInt 64 (s.a2.toInt + count))) := by
  rw [bufSpan, if_neg hstart.not_gt, if_neg hcount.not_gt, if_neg hbuflen.not_gt, if_neg hlarge, if_pos h]

end BufChecks

/-- Settles O26: each clause is one check of R75 that fails after those before it have passed. -/
theorem bufChecksRunInOrder : Obligations.BufChecksRunInOrder := by
  intro s i count htakes
  refine ⟨fun h => ?_, fun hstart h => ?_, fun hstart hcount h => ?_, fun hstart hcount hbuflen h => ?_,
    fun hstart hcount hbuflenMax hcountMax hbuflen h => ?_⟩
  · exact htakes.failsCleanly (bufSpan_startNeg h) rfl
  · exact htakes.failsCleanly (bufSpan_countNeg hstart h) rfl
  · exact htakes.failsCleanly (bufSpan_buflenNeg hstart hcount h) rfl
  · exact htakes.failsCleanly (bufSpan_tooLarge hstart hcount hbuflen h) rfl
  · have hlarge : ¬(maxCount < s.a1.toInt ∨ maxCount < count) := by
      rintro (hgt | hgt)
      · exact hbuflenMax.not_gt hgt
      · exact hcountMax.not_gt hgt
    exact htakes.failsCleanly (bufSpan_range hstart hcount hbuflen hlarge h) rfl

/-! ## N of VBT.DECN and VBT.ENCN (R76) -/

/-- A failure that is not InvalidArgument with DETAIL N_RANGE (R242). -/
def NotNRange (f : Failure) : Prop := ¬(f.cause = 1 ∧ f.detail = 8)

theorem notNRange_invalidArgument {d : ArgDetail} (hd : d ≠ .nRange) (info : U64) :
    NotNRange (.invalidArgument d info) := by
  rintro ⟨-, hcode⟩
  cases d with
  | nRange => exact hd rfl
  | _ => cases hcode

theorem notNRange_hostAccess (addr : Nat) : NotNRange (.hostAccess addr) := by
  rintro ⟨hcause, -⟩
  cases hcause

theorem notNRange_of_bufSpan_error {s : State} {count : Int} {f : Failure} (h : bufSpan s count = .error f) :
    NotNRange f := by
  unfold bufSpan at h
  repeat' split at h
  all_goals cases h
  all_goals
    apply notNRange_invalidArgument
    nofun

theorem notNRange_of_checkRange_error {s : State} {a n : Nat} {f : Failure} (h : checkRange s a n = .error f) :
    NotNRange f := by
  rcases checkRange_spec s a n with ⟨hok, -⟩ | ⟨herr, -⟩ | ⟨g, herr, -⟩
  · cases h.symm.trans hok
  · cases h.symm.trans herr
    exact notNRange_hostAccess a
  · cases h.symm.trans herr
    exact notNRange_hostAccess g

/-- No check of an operand range raises N_RANGE. -/
theorem notNRange_of_admittedSpan_error {s : State} {count : Int} {f : Failure} (h : admittedSpan s count = .error f) :
    NotNRange f := by
  rcases bind_error h with hbuf | ⟨r, -, h⟩
  · exact notNRange_of_bufSpan_error hbuf
  · rcases bind_error h with hrange | ⟨u, -, hpure⟩
    · exact notNRange_of_checkRange_error hrange
    · cases hpure

section Count

variable {s : State} {least n : Nat}

theorem cipherOperandN_of_outside (hkey : statusKeyv s.status = true) (hn : ¬(least ≤ n ∧ n ≤ 16)) :
    cipherOperandN s least n = .error (.invalidArgument .nRange (BitVec.ofNat 64 n)) := by
  rw [cipherOperandN, hkey, require_true, ok_bind, decide_eq_false hn, require_false, error_bind]

theorem cipherOperandN_of_inside (hkey : statusKeyv s.status = true) (hleast : least ≤ n) (hn : n ≤ 16) :
    cipherOperandN s least n = admittedSpan s (4 * (n : Int)) := by
  rw [cipherOperandN, hkey, require_true, ok_bind, decide_eq_true ⟨hleast, hn⟩, require_true, ok_bind]

/-- A command of form BUFN whose N is in its range ends without N_RANGE: it raises what the operand range raises, or
succeeds with CAUSE 0. -/
theorem command_cipherN_not_nRange {f : List Byte → List Byte} {t : State} (hkey : statusKeyv s.status = true)
    (hleast : least ≤ n) (hn : n ≤ 16) (h : command s (cipherOperandN s least n) (inPlace s f) = .next t) :
    ¬(statusCause t.status = 1 ∧ statusDetail t.status = 8) := by
  rw [cipherOperandN_of_inside hkey hleast hn] at h
  cases hspan : admittedSpan s (4 * (n : Int)) with
  | error e =>
    rw [hspan, command_error] at h
    cases h
    have hfails := fails_raise s e
    rw [hfails.cause, hfails.detail]
    exact notNRange_of_admittedSpan_error hspan
  | ok r =>
    rw [hspan, command_ok] at h
    cases h
    rw [(succeeds_succeed _ 0).cause]
    rintro ⟨hcause, -⟩
    cases hcause

end Count

/-- Settles O29: N is checked right after KEYV, and no later check has the DETAIL of N_RANGE. -/
theorem wordCountIsChecked : Obligations.WordCountIsChecked := by
  intro s n hkey
  refine ⟨fun hn => ?_, fun hn => ?_, fun t hleast hn h => ?_, fun t hleast hn h => ?_⟩
  · have hchecks : cipherOperandN s 1 n = .error _ := cipherOperandN_of_outside hkey (by omega)
    exact failsCleanly_of_raise (i := .vbtDecn n) (by rw [exec, execVbtDecn, hchecks, command_error]) rfl
  · have hchecks : cipherOperandN s 2 n = .error _ := cipherOperandN_of_outside hkey (by omega)
    exact failsCleanly_of_raise (i := .vbtEncn n) (by rw [exec, execVbtEncn, hchecks, command_error]) rfl
  · exact command_cipherN_not_nRange hkey hleast hn h
  · exact command_cipherN_not_nRange hkey hleast hn h

/-! ## Slots (R79, R246) -/

section Slots

variable {s : State} {i : Instr} {slot : Nat} {f : Failure}

theorem slotOperand_of_range (h : nSlots s ≤ slot) : slotOperand s slot = .error (.slotState .slotRange slot) := by
  rw [slotOperand, List.getElem?_eq_none h]

theorem slotOperand_of_some {v : Slot} (h : s.slots[slot]? = some v) : slotOperand s slot = .ok v := by
  rw [slotOperand, h]

theorem alignedSlot_of_slotOperand_error (h : slotOperand s slot = .error f) : alignedSlot s slot = .error f := by
  rw [alignedSlot, h, error_bind]

theorem alignedSlot_of_closed (h : s.slots[slot]? = some .closed) :
    alignedSlot s slot = .error (.slotState .closed slot) := by
  rw [alignedSlot, slotOperand_of_some h, ok_bind]

theorem alignedSlot_of_sequential {g : Sequential}
    (h : s.slots[slot]? = some (.seqBlockTea g) ∨ s.slots[slot]? = some (.seqVbt g)) :
    alignedSlot s slot = .error (.slotState .wrongKind slot) := by
  rcases h with h | h <;> rw [alignedSlot, slotOperand_of_some h, ok_bind]

theorem seqSlot_of_slotOperand_error (h : slotOperand s slot = .error f) : seqSlot s slot = .error f := by
  rw [seqSlot, h, error_bind]

theorem seqSlot_of_closed (h : s.slots[slot]? = some .closed) : seqSlot s slot = .error (.slotState .closed slot) := by
  rw [seqSlot, slotOperand_of_some h, ok_bind]

theorem seqSlot_of_aligned {g : Aligned} (h : s.slots[slot]? = some (.aligned g)) :
    seqSlot s slot = .error (.slotState .wrongKind slot) := by
  rw [seqSlot, slotOperand_of_some h, ok_bind]

theorem closedSlot_of_slotOperand_error (h : slotOperand s slot = .error f) : closedSlot s slot = .error f := by
  rw [closedSlot, h, error_bind]

theorem closedSlot_of_open {v : Slot} (h : s.slots[slot]? = some v) (hopen : v ≠ .closed) :
    closedSlot s slot = .error (.slotState .alreadyOpen slot) := by
  rw [closedSlot, slotOperand_of_some h, ok_bind]
  cases v with
  | closed => exact absurd rfl hopen
  | aligned g => rfl
  | seqBlockTea g => rfl
  | seqVbt g => rfl

/-- An ABS command on an open stream raises what `require_slot(Aligned)` raises, before any other check (R250). -/
theorem exec_of_alignedSlot_error (hi : IsAbsOn i slot) (h : alignedSlot s slot = .error f) :
    exec i s = .next (raise s f) := by
  simp only [IsAbsOn, List.mem_cons, List.not_mem_nil, or_false] at hi
  rcases hi with (rfl | rfl | rfl | rfl | rfl | rfl) | ⟨whence, rfl⟩
  · rw [exec, execAbsRead, absReadOperand, h, error_bind, command_error]
  · rw [exec, execAbsLen, h, command_error]
  · rw [exec, execAbsPos, h, command_error]
  · rw [exec, execAbsWrite, absUnsupported, h, command_error]
  · rw [exec, execAbsFlush, absUnsupported, h, command_error]
  · rw [exec, execAbsSetlen, absUnsupported, h, command_error]
  · rw [exec, execAbsSeek, absSeekOperand, h, error_bind, command_error]

/-- A SEQ command on an open stream raises what `require_slot(Seq)` raises, before any other check (R250). -/
theorem exec_of_seqSlot_error (hi : IsSeqOn i slot) (h : seqSlot s slot = .error f) :
    exec i s = .next (raise s f) := by
  simp only [IsSeqOn, List.mem_cons, List.not_mem_nil, or_false] at hi
  rcases hi with (rfl | rfl | rfl | rfl) | ⟨whence, rfl⟩
  · rw [exec, execSeqRead, seqReadOperand, h, error_bind, command_error]
  · rw [exec, execSeqWrite, seqUnsupported, h, command_error]
  · rw [exec, execSeqFlush, seqUnsupported, h, command_error]
  · rw [exec, execSeqSetlen, seqUnsupported, h, command_error]
  · rw [exec, execSeqSeek, seqUnsupported, h, command_error]

/-- An OPEN command raises what the check that its slot is Closed raises, before any other check (R250). -/
theorem exec_of_closedSlot_error (hi : IsOpenOn i slot) (h : closedSlot s slot = .error f) :
    exec i s = .next (raise s f) := by
  rcases hi with rfl | ⟨kind, rfl⟩
  · rw [exec, execAbsOpen, absOpenOperand, h, error_bind, command_error]
  · rw [exec, execSeqOpen, seqOpenOperand, h, error_bind, command_error]

/-- Every command that names a slot raises SLOT_RANGE first (R79). -/
theorem exec_of_slotOperand_error (hi : IsAbsOn i slot ∨ IsSeqOn i slot ∨ IsOpenOn i slot ∨ i = .close slot)
    (h : slotOperand s slot = .error f) : exec i s = .next (raise s f) := by
  rcases hi with hi | hi | hi | rfl
  · exact exec_of_alignedSlot_error hi (alignedSlot_of_slotOperand_error h)
  · exact exec_of_seqSlot_error hi (seqSlot_of_slotOperand_error h)
  · exact exec_of_closedSlot_error hi (closedSlot_of_slotOperand_error h)
  · rw [exec, execClose, h, command_error]

end Slots

/-- Settles O30: the slot check is the first of each of these commands. -/
theorem slotsAreChecked : Obligations.SlotsAreChecked := by
  intro s i slot
  refine ⟨fun hrange hi => ?_, fun hclosed hi => ?_, fun g hslot hi => ?_, fun g hslot hi => ?_,
    fun v hslot hopen hi => ?_⟩
  · exact failsCleanly_of_raise (exec_of_slotOperand_error hi (slotOperand_of_range hrange)) rfl
  · rcases hi with hi | hi
    · exact failsCleanly_of_raise (exec_of_alignedSlot_error hi (alignedSlot_of_closed hclosed)) rfl
    · exact failsCleanly_of_raise (exec_of_seqSlot_error hi (seqSlot_of_closed hclosed)) rfl
  · exact failsCleanly_of_raise (exec_of_seqSlot_error hi (seqSlot_of_aligned hslot)) rfl
  · exact failsCleanly_of_raise (exec_of_alignedSlot_error hi (alignedSlot_of_sequential hslot)) rfl
  · exact failsCleanly_of_raise (exec_of_closedSlot_error hi (closedSlot_of_open hslot hopen)) rfl

end Sys2Proof.Machine

/-! # ABS.SEEK and SEQ.OPEN (spec/30_encoding.md rules R77, R78; spec/43_aligned_block_stream.md R177;
spec/44_sequential_stream.md R200) -/

namespace Sys2Proof.Machine

/-! ## ABS.SEEK (R177) -/

/-- The state ABS.SEEK leaves where it moves a stream to `target` (R177). -/
def soughtStream (s : State) (slot : Nat) (f : Aligned) (target : Nat) : State :=
  succeed (srcSeek (setSlot s slot (.aligned { f with pos := BitVec.ofNat 64 target })) f.src
    (BitVec.ofNat 64 (f.origin.toNat + target))) (BitVec.ofNat 64 target)

/-- ABS.SEEK on an open stream over an attached source, from any origin but WHENCE 3. -/
theorem exec_absSeek_of_aligned {s : State} {slot : Nat} {f : Aligned} {src : Source} {whence : Whence}
    (hslot : s.slots[slot]? = some (.aligned f)) (hsrc : sourceOf s f.src = some src) (hwhence : whence ≠ .three) :
    exec (.absSeek slot whence) s = .next (soughtStream s slot f (seekTarget f whence s.a0)) := by
  have hchecks : absSeekOperand slot whence s = .ok f := by
    rw [absSeekOperand, (alignedSlot_ok_iff s slot f).2 hslot, ok_bind, decide_eq_true hwhence, require_true, ok_bind]
    rfl
  rw [exec, execAbsSeek, hchecks, command_ok, absSeekEffect, hsrc, soughtStream]

/-- WHENCE 3 is refused once the slot has passed its check (R177). -/
theorem exec_absSeek_three {s : State} {slot : Nat} {f : Aligned} (hslot : s.slots[slot]? = some (.aligned f)) :
    exec (.absSeek slot .three) s = .next (raise s (.invalidArgument .whence 3)) := by
  rw [exec, execAbsSeek, absSeekOperand, (alignedSlot_ok_iff s slot f).2 hslot, ok_bind, decide_eq_false (by simp),
    require_false, error_bind, command_error]

/-- The bases of the three origins, and the clamped target from each (R77, R177). -/
theorem seekTarget_eq {f : Aligned} {whence : Whence} {offset : U64} {base : Int} {p : Nat}
    (hbase : (whence = .fromBegin ∧ base = 0) ∨ (whence = .fromCurrent ∧ base = (f.pos.toNat : Int)) ∨
      (whence = .fromEnd ∧ base = (f.length.toNat : Int)))
    (hp : (p : Int) = min (max (base + offset.toInt) 0) (f.length.toNat : Int)) : seekTarget f whence offset = p := by
  have hseek : seekBase f whence = base := by
    rcases hbase with ⟨rfl, rfl⟩ | ⟨rfl, rfl⟩ | ⟨rfl, rfl⟩ <;> rfl
  rw [seekTarget, hseek, ← hp, Int.toNat_natCast]

/-- Settles O51: the three origins name the base of the one seek, and WHENCE 3 none. -/
theorem absSeekClampsTheTarget : Obligations.AbsSeekClampsTheTarget := by
  intro s slot f src hslot hsrc
  refine ⟨fun whence base p hbase hp => ?_, failsCleanly_of_raise (exec_absSeek_three hslot) rfl⟩
  have hwhence : whence ≠ .three := by
    rcases hbase with ⟨rfl, -⟩ | ⟨rfl, -⟩ | ⟨rfl, -⟩ <;> nofun
  have hexec := exec_absSeek_of_aligned hslot hsrc hwhence
  rw [seekTarget_eq hbase hp] at hexec
  have hsources : (soughtStream s slot f p).sources = (srcSeek s f.src (f.origin + BitVec.ofNat 64 p)).sources := by
    simp [soughtStream, BitVec.ofNat_add]
  obtain ⟨hcursor, hothers⟩ := cursorSet_srcSeek hsources
  have hinputs : SameInputs s (soughtStream s slot f p) :=
    (sameInputs_setSlot _ _ _).trans ((sameInputs_srcSeek _ _ _).trans (sameInputs_succeed _ _))
  exact ⟨_, hexec, succeeds_succeed _ _, flagsKept_succeed_of_status rfl _, rfl, hcursor, hothers, hinputs, rfl,
    fun _ => rfl⟩

/-! ## SEQ.OPEN (R200) -/

/-- SEQ.OPEN whose checks pass sets its slot and nothing else. -/
theorem exec_seqOpen_of_valid {s : State} {slot : Nat} {src : Source} {K : Key}
    (hslot : s.slots[slot]? = some .closed) (hsrc : sourceOf s s.a0.toNat = some src)
    (hadm : Admitted s s.a2.toNat 16) (hkey : KeyAt s s.a2.toNat K) (kind : SeqKind) :
    exec (.seqOpen slot kind) s = .next (succeed (setSlot s slot (seqSlotOf kind ⟨s.a0.toNat, K⟩)) 0) := by
  rw [exec, execSeqOpen, seqOpenOperand, (closedSlot_ok_iff s slot).2 hslot, ok_bind,
    (sourceOperand_ok_iff s src).2 hsrc, ok_bind, keyBuffer_of_admitted hadm hkey, command_ok]

/-- Settles O53: KIND chooses the kind of the slot, and the rest is the same for both variants. -/
theorem seqOpenOpensTheStream : Obligations.SeqOpenOpensTheStream := by
  intro s slot src K hslot hsrc hadm hkey kind v hvariant
  have hv : seqSlotOf kind ⟨s.a0.toNat, K⟩ = v := by
    rcases hvariant with ⟨rfl, rfl⟩ | ⟨rfl, rfl⟩ <;> rfl
  have hexec := exec_seqOpen_of_valid hslot hsrc hadm hkey kind
  rw [hv] at hexec
  exact ⟨_, hexec, succeeds_succeed _ _, flagsKept_succeed_of_status rfl _, rfl,
    (sameInputs_setSlot _ _ _).trans (sameInputs_succeed _ _), rfl, rfl, fun _ => rfl⟩

end Sys2Proof.Machine

/-! # The byte cipher (spec/40_byte_feedback.md rules R101, R102, R106 and R107) -/

namespace Sys2Proof.Machine

/-! ## The bytes of a sequence -/

/-- The byte before index i, where `p` stands before the first one: the feedback of R101 and R102. -/
theorem byteAt_cons_eq_ite (p : Byte) (x : List Byte) (i : Nat) :
    byteAt (p :: x) i = if i = 0 then p else byteAt x (i - 1) := by
  cases i <;> rfl

theorem byteAt_set_ne {i j : Nat} (h : i ≠ j) (x : List Byte) (b : Byte) : byteAt (x.set j b) i = byteAt x i := by
  rw [byteAt, byteAt, List.getD_eq_getElem?_getD, List.getD_eq_getElem?_getD, List.getElem?_set_ne h.symm]

theorem byteAt_of_length_le {x : List Byte} {i : Nat} (h : x.length ≤ i) : byteAt x i = 0 :=
  List.getD_eq_default _ _ h

/-! ## Decrypt and encrypt undo each other (R106) -/

/-- The steps of R102 undo those of R101 in the opposite order: the rotation, the mask, the addition. -/
theorem bfcDecByte_bfcEncByte (K : Key) (L i : Nat) (p x : Byte) : bfcDecByte K L i p (bfcEncByte K L i p x) = x := by
  rw [bfcDecByte, bfcEncByte, rotl8_rotr8 _ (bfcTurn_lt p), BitVec.xor_assoc, BitVec.xor_self, BitVec.xor_zero,
    BitVec.add_sub_cancel]

theorem bfcEncByte_bfcDecByte (K : Key) (L i : Nat) (p c : Byte) : bfcEncByte K L i p (bfcDecByte K L i p c) = c := by
  rw [bfcEncByte, bfcDecByte, BitVec.sub_add_cancel, BitVec.xor_assoc, BitVec.xor_self, BitVec.xor_zero,
    rotr8_rotl8 _ (bfcTurn_lt p)]

/-- Both loops feed back the ciphertext byte, so each byte is undone with the feedback it was made with. -/
theorem bfcDecFrom_bfcEncFrom (K : Key) (L i : Nat) (p : Byte) (x : List Byte) :
    bfcDecFrom K L i p (bfcEncFrom K L i p x) = x := by
  induction x generalizing i p with
  | nil => rfl
  | cons b x ih => rw [bfcEncFrom, bfcDecFrom, bfcDecByte_bfcEncByte, ih]

theorem bfcEncFrom_bfcDecFrom (K : Key) (L i : Nat) (p : Byte) (y : List Byte) :
    bfcEncFrom K L i p (bfcDecFrom K L i p y) = y := by
  induction y generalizing i p with
  | nil => rfl
  | cons c y ih => rw [bfcDecFrom, bfcEncFrom, bfcEncByte_bfcDecByte, ih]

theorem bfcDec_bfcEnc (K : Key) : Function.LeftInverse (bfcDec K) (bfcEnc K) := fun x => by
  rw [bfcDec, length_bfcEnc, bfcEnc, bfcDecFrom_bfcEncFrom]

theorem bfcEnc_bfcDec (K : Key) : Function.LeftInverse (bfcEnc K) (bfcDec K) := fun y => by
  rw [bfcEnc, length_bfcDec, bfcDec, bfcEncFrom_bfcDecFrom]

/-- Settles O36: each function is the other's inverse on both sides. -/
theorem byteCipherInverse : Obligations.ByteCipherInverse := fun K =>
  ⟨bfcDec_bfcEnc K,
    ⟨(bfcDec_bfcEnc K).injective, (bfcEnc_bfcDec K).surjective⟩,
    ⟨(bfcEnc_bfcDec K).injective, (bfcDec_bfcEnc K).surjective⟩,
    fun x => ⟨length_bfcEnc K x, length_bfcDec K x⟩⟩

/-! ## Each byte from the bytes it depends on (R101, R102) -/

theorem byteAt_bfcDecFrom (K : Key) (L i : Nat) (p : Byte) (y : List Byte) (j : Nat) (hj : j < y.length) :
    byteAt (bfcDecFrom K L i p y) j = bfcDecByte K L (i + j) (byteAt (p :: y) j) (byteAt y j) := by
  induction y generalizing i p j with
  | nil => cases hj
  | cons c y ih =>
    cases j with
    | zero => rfl
    | succ j =>
      have hnext := ih (i + 1) c j (Nat.lt_of_succ_lt_succ hj)
      rwa [Nat.add_right_comm] at hnext

theorem byteAt_bfcDec (K : Key) {y : List Byte} {i : Nat} (hi : i < y.length) :
    byteAt (bfcDec K y) i = bfcDecByte K y.length i (byteAt (0 :: y) i) (byteAt y i) := by
  have h := byteAt_bfcDecFrom K y.length 0 0 y i hi
  rwa [Nat.zero_add] at h

/-- The encrypt's equation is the decrypt's, read backwards on the ciphertext. -/
theorem byteAt_bfcEnc (K : Key) {x : List Byte} {i : Nat} (hi : i < x.length) :
    byteAt (bfcEnc K x) i = bfcEncByte K x.length i (byteAt (0 :: bfcEnc K x) i) (byteAt x i) := by
  have hplain := byteAt_bfcDec K ((length_bfcEnc K x).symm ▸ hi)
  rw [bfcDec_bfcEnc K x, length_bfcEnc] at hplain
  rw [hplain, bfcEncByte_bfcDecByte]

/-- Settles O35: the feedback is the previous byte written on the way in, and the previous byte read on the way out. -/
theorem byteCipherByteByByte : Obligations.ByteCipherByteByByte := by
  refine fun K x => ⟨length_bfcEnc K x, length_bfcDec K x, fun i hi => ⟨?_, ?_⟩⟩
  · rw [← byteAt_cons_eq_ite]
    exact byteAt_bfcEnc K hi
  · rw [← byteAt_cons_eq_ite]
    exact byteAt_bfcDec K hi

/-! ## The decrypt synchronises itself (R107) -/

/-- A byte of the decrypt depends on the ciphertext byte at its index and on the feedback alone. -/
theorem byteAt_bfcDec_congr (K : Key) {y z : List Byte} {i : Nat} (hlen : y.length = z.length) (hi : i < y.length)
    (hown : byteAt y i = byteAt z i) (hprev : i ≠ 0 → byteAt y (i - 1) = byteAt z (i - 1)) :
    byteAt (bfcDec K y) i = byteAt (bfcDec K z) i := by
  have hfeedback : byteAt (0 :: y) i = byteAt (0 :: z) i := by
    cases i with
    | zero => rfl
    | succ i => exact hprev i.succ_ne_zero
  rw [byteAt_bfcDec K hi, byteAt_bfcDec K (hlen ▸ hi), hfeedback, hown, hlen]

/-- A changed ciphertext byte is read for the byte at its own index and for the next one only. -/
theorem byteAt_bfcDec_set (K : Key) (y : List Byte) (b : Byte) {i j : Nat} (hown : i ≠ j) (hnext : i ≠ j + 1) :
    byteAt (bfcDec K (y.set j b)) i = byteAt (bfcDec K y) i := by
  rcases Nat.lt_or_ge i y.length with hi | hi
  · refine byteAt_bfcDec_congr K List.length_set (by rwa [List.length_set]) (byteAt_set_ne hown y b) fun hpos => ?_
    exact byteAt_set_ne (by omega) y b
  · rw [byteAt_of_length_le (by simpa using hi), byteAt_of_length_le (by simpa using hi)]

/-- Settles O37. -/
theorem byteDecryptSynchronisesItself : Obligations.ByteDecryptSynchronisesItself :=
  ⟨fun K _ _ _ => byteAt_bfcDec_congr K, fun K y b _ _ => byteAt_bfcDec_set K y b⟩

end Sys2Proof.Machine

/-! # BlockTeaCipher (spec/41_block_tea.md rules R121 to R124, R127 and R128) -/

namespace Sys2Proof.Machine

/-! ## The recurrences (R122, R123) -/

theorem keyHigh_eq (K : Key) (sum : Word) : keyHigh K sum = K.word (sum.toNat / 2048 % 4) := by
  rw [keyHigh, BitVec.toNat_and, BitVec.toNat_ushiftRight, Nat.shiftRight_eq_div_pow]
  exact congrArg K.word (Nat.and_two_pow_sub_one_eq_mod _ 2)

theorem keyLow_eq (K : Key) (sum : Word) : keyLow K sum = K.word (sum.toNat % 4) := by
  rw [keyLow, BitVec.toNat_and]
  exact congrArg K.word (Nat.and_two_pow_sub_one_eq_mod _ 2)

/-- The sum one pass later. -/
theorem ofNat_succ_mul_delta (j : Nat) : BitVec.ofNat 32 (j + 1) * delta = BitVec.ofNat 32 j * delta + delta := by
  rw [BitVec.ofNat_add, BitVec.add_mul, BitVec.one_mul]

/-- The decrypt passes in order, each with its own sum. -/
theorem btDecPasses_eq_foldl (K : Key) (k : Nat) (sum : Word) (v : Word × Word) :
    btDecPasses K k sum v =
      (List.range k).foldl (fun u j => btDecPass K (sum - BitVec.ofNat 32 j * delta) u) v := by
  induction k generalizing sum v with
  | zero => rfl
  | succ k ih =>
    have hsum (j : Nat) : sum - delta - BitVec.ofNat 32 j * delta = sum - BitVec.ofNat 32 (j + 1) * delta := by
      rw [ofNat_succ_mul_delta]
      ring
    simp [btDecPasses, ih, List.range_succ_eq_map, List.foldl_map, hsum]

/-- The encrypt passes in order, each with its own sum. -/
theorem btEncPasses_eq_foldl (K : Key) (k : Nat) (sum : Word) (v : Word × Word) :
    btEncPasses K k sum v =
      (List.range k).foldl (fun u j => btEncPass K (sum + BitVec.ofNat 32 j * delta) u) v := by
  induction k generalizing sum v with
  | zero => rfl
  | succ k ih =>
    have hsum (j : Nat) : sum + delta + BitVec.ofNat 32 j * delta = sum + BitVec.ofNat 32 (j + 1) * delta := by
      rw [ofNat_succ_mul_delta]
      ring
    simp [btEncPasses, ih, List.range_succ_eq_map, List.foldl_map, hsum]

/-! ## Decrypt undoes encrypt on a block (R127) -/

/-- A decrypt pass from the sum an encrypt pass ends with takes its two steps back, the last one first. -/
theorem btDecPass_btEncPass (K : Key) (sum : Word) (v : Word × Word) :
    btDecPass K (sum + delta) (btEncPass K sum v) = v := by
  simp only [btDecPass, btEncPass, BitVec.add_sub_cancel]

/-- The last decrypt pass set apart, where `btDecPasses` sets the first apart. -/
theorem btDecPasses_succ_last (K : Key) (k : Nat) (sum : Word) (v : Word × Word) :
    btDecPasses K (k + 1) sum v = btDecPass K (sum - BitVec.ofNat 32 k * delta) (btDecPasses K k sum v) := by
  rw [btDecPasses_eq_foldl, List.range_succ, List.foldl_concat, ← btDecPasses_eq_foldl]

/-- The last decrypt pass undoes the first encrypt pass, once the passes between have undone each other (R123). -/
theorem btDecPasses_btEncPasses (K : Key) (k : Nat) (sum : Word) (v : Word × Word) :
    btDecPasses K k (sum + BitVec.ofNat 32 k * delta) (btEncPasses K k sum v) = v := by
  induction k generalizing sum v with
  | zero => rfl
  | succ k ih =>
    have hstart : sum + BitVec.ofNat 32 (k + 1) * delta = sum + delta + BitVec.ofNat 32 k * delta := by
      rw [ofNat_succ_mul_delta]
      ring
    rw [btEncPasses, btDecPasses_succ_last, hstart, ih, BitVec.add_sub_cancel, btDecPass_btEncPass]

theorem btDecBlock_btEncBlock (K : Key) (v : Word × Word) : btDecBlock K (btEncBlock K v) = v := by
  have hsum : bteaSum0 = 0 + BitVec.ofNat 32 bteaRounds * delta := by decide
  rw [btDecBlock, btEncBlock, hsum, btDecPasses_btEncPasses]

/-! ## The blocks of a byte sequence (R124) -/

theorem drop_eq_byteAt_cons {x : List Byte} {i : Nat} (h : i < x.length) : x.drop i = byteAt x i :: x.drop (i + 1) := by
  rw [byteAt, List.getD_eq_getElem _ _ h, List.drop_eq_getElem_cons h]

/-- A complete block at index i, byte by byte. -/
theorem drop_eq_block {x : List Byte} {i : Nat} (h : i + 8 ≤ x.length) :
    x.drop i = byteAt x i :: byteAt x (i + 1) :: byteAt x (i + 2) :: byteAt x (i + 3) :: byteAt x (i + 4) ::
      byteAt x (i + 5) :: byteAt x (i + 6) :: byteAt x (i + 7) :: x.drop (i + 8) := by
  iterate 8 rw [drop_eq_byteAt_cons (by omega)]

/-- What falls under the second equation of `btBlocks` is shorter than a block. -/
theorem length_lt_of_no_block {x : List Byte}
    (h : ∀ b0 b1 b2 b3 b4 b5 b6 b7 rest, x = b0 :: b1 :: b2 :: b3 :: b4 :: b5 :: b6 :: b7 :: rest → False) :
    x.length < 8 := by
  by_contra hge
  exact h _ _ _ _ _ _ _ _ _ (drop_eq_block (i := 0) (by omega))

section Blocks

variable (f g : Word × Word → Word × Word) (x : List Byte)

theorem btBlocks_of_short (h : x.length < 8) : btBlocks f x = x := by
  fun_cases btBlocks f x with
  | case1 b0 b1 b2 b3 b4 b5 b6 b7 rest =>
    simp only [List.length_cons] at h
    omega
  | case2 => rfl

/-- Whole blocks in front are processed apart from what follows them. -/
theorem drop_btBlocks (j : Nat) : (btBlocks f x).drop (8 * j) = btBlocks f (x.drop (8 * j)) := by
  induction j generalizing x with
  | zero => rfl
  | succ j ih =>
    fun_cases btBlocks f x with
    | case1 b0 b1 b2 b3 b4 b5 b6 b7 rest => exact ih rest
    | case2 _ hshort =>
      have hlen := length_lt_of_no_block hshort
      rw [List.drop_eq_nil_of_le (by omega)]
      rfl

theorem take_btBlocks : (btBlocks f x).take 8 = btBlocks f (x.take 8) := by
  fun_cases btBlocks f x with
  | case1 b0 b1 b2 b3 b4 b5 b6 b7 rest => rfl
  | case2 _ hshort =>
    have hlen := length_lt_of_no_block hshort
    rw [List.take_of_length_le hlen.le, btBlocks_of_short f x hlen]

/-- Block j of the result comes from the bytes of block j alone. -/
theorem block_btBlocks (j : Nat) : ((btBlocks f x).drop (8 * j)).take 8 = btBlocks f ((x.drop (8 * j)).take 8) := by
  rw [drop_btBlocks, take_btBlocks]

/-- Block j of the result is `f` on the two little-endian words of block j. -/
theorem block_btBlocks_eq {j : Nat} (h : 8 * j + 8 ≤ x.length) :
    ((btBlocks f x).drop (8 * j)).take 8 = blockBytes (f
      (le32 (byteAt x (8 * j)) (byteAt x (8 * j + 1)) (byteAt x (8 * j + 2)) (byteAt x (8 * j + 3)),
        le32 (byteAt x (8 * j + 4)) (byteAt x (8 * j + 5)) (byteAt x (8 * j + 6)) (byteAt x (8 * j + 7)))) := by
  rw [block_btBlocks, drop_eq_block h]
  rfl

/-- The trailing bytes fill no block and stay as they are. -/
theorem drop_btBlocks_trailing : (btBlocks f x).drop (8 * (x.length / 8)) = x.drop (8 * (x.length / 8)) := by
  rw [drop_btBlocks, btBlocks_of_short f _ (by rw [List.length_drop]; omega)]

variable {f g}

theorem btBlocks_blockBytes_append (v : Word × Word) :
    btBlocks f (blockBytes v ++ x) = blockBytes (f v) ++ btBlocks f x := by
  simp only [blockBytes, bytesLe32, List.cons_append, List.nil_append, btBlocks, le32_bytesLe32]

/-- A block function's left inverse undoes it on every byte sequence, block by block (R127). -/
theorem btBlocks_leftInverse (h : ∀ v, f (g v) = v) : btBlocks f (btBlocks g x) = x := by
  fun_induction btBlocks g x with
  | case1 b0 b1 b2 b3 b4 b5 b6 b7 rest ih =>
    rw [btBlocks_blockBytes_append, h, ih, blockBytes, bytesLe32_le32, bytesLe32_le32]
    rfl
  | case2 _ hshort => exact btBlocks_of_short f _ (length_lt_of_no_block hshort)

end Blocks

/-- Settles O38: the recurrences as folds with the sum of each pass, the byte layout block by block, and the inverse of
the block functions carried from a pass to a block and from a block to a byte sequence. -/
theorem blockTeaInverse : Obligations.BlockTeaInverse := by
  refine fun K => ⟨fun v => ?decrypt, fun v => ?encrypt,
    fun x j h => ⟨block_btBlocks_eq _ x h, block_btBlocks_eq _ x h⟩,
    fun x => ⟨drop_btBlocks_trailing _ x, drop_btBlocks_trailing _ x⟩,
    btDecBlock_btEncBlock K, fun x => btBlocks_leftInverse x (btDecBlock_btEncBlock K)⟩
  case decrypt =>
    simp only [btDecBlock, btDecPasses_eq_foldl, btDecPass, keyHigh_eq, keyLow_eq]
    rfl
  case encrypt =>
    simp only [btEncBlock, btEncPasses_eq_foldl, btEncPass, keyHigh_eq, keyLow_eq, zero_add]
    rfl

/-- Settles O39: either ciphertext block is one function of the bytes of its plaintext block. -/
theorem blockTeaHasNoChaining : Obligations.BlockTeaHasNoChaining := fun K x y j k _ _ hblock => by
  rw [btEnc, btEnc, block_btBlocks, block_btBlocks, hblock]

end Sys2Proof.Machine

/-! # VariableBlockTeaCipher (spec/42_variable_block_tea.md rules R140 to R147, R152 and R153) -/

namespace Sys2Proof.Machine

/-! ## The words of a block -/

theorem wordAt_set_self {v : List Word} {i : Nat} (h : i < v.length) (w : Word) : wordAt (v.set i w) i = w := by
  rw [wordAt, List.getD_eq_getElem _ _ (by rwa [List.length_set]), List.getElem_set_self]

theorem wordAt_set_ne {i j : Nat} (h : i ≠ j) (v : List Word) (w : Word) : wordAt (v.set i w) j = wordAt v j := by
  rw [wordAt, wordAt, List.getD_eq_getElem?_getD, List.getD_eq_getElem?_getD, List.getElem?_set_ne h]

/-- Two blocks of one length with the same words are one block. -/
theorem eq_of_wordAt {v w : List Word} (hlen : v.length = w.length) (h : ∀ i, i < w.length → wordAt v i = wordAt w i) :
    v = w := by
  refine List.ext_getElem hlen fun i hv hw => ?_
  have := h i hw
  rwa [wordAt, wordAt, List.getD_eq_getElem _ _ hv, List.getD_eq_getElem _ _ hw] at this

theorem vbtE_eq (sum : Word) : vbtE sum = sum.toNat / 4 % 4 := by
  rw [vbtE, BitVec.toNat_and, BitVec.toNat_ushiftRight, Nat.shiftRight_eq_div_pow]
  exact Nat.and_two_pow_sub_one_eq_mod _ 2

/-! ## One pass of the decrypt, word by word (R142) -/

section DecryptPass

variable (K : Key) (sum : Word) (e : Nat) {p i : Nat} (v : List Word) (y : Word)

theorem vbtDecInner_succ (p : Nat) : vbtDecInner K sum e (p + 1) v y =
    vbtDecInner K sum e p (v.set (p + 1) (wordAt v (p + 1) - mx K (wordAt v p) y sum (p + 1) e))
      (wordAt v (p + 1) - mx K (wordAt v p) y sum (p + 1) e) := rfl

/-- The inner loop from p downward leaves word 0 and the words above p as they are. -/
theorem wordAt_vbtDecInner_of_not_mem (h : i = 0 ∨ p < i) : wordAt (vbtDecInner K sum e p v y).1 i = wordAt v i := by
  induction p generalizing v y with
  | zero => rfl
  | succ p ih => rw [vbtDecInner_succ, ih _ _ (by omega), wordAt_set_ne (by omega)]

/-- The inner loop carries out the value it wrote last, or the one it was given where it writes none. -/
theorem snd_vbtDecInner (hp : p < v.length) :
    (vbtDecInner K sum e p v y).2 = if 0 = p then y else wordAt (vbtDecInner K sum e p v y).1 1 := by
  induction p generalizing v y with
  | zero => rfl
  | succ p ih =>
    rw [vbtDecInner_succ, ih _ _ (by rw [List.length_set]; omega), if_neg p.succ_ne_zero.symm]
    split
    · next h0 => subst h0; exact (wordAt_set_self hp _).symm
    · rfl

/-- A word the inner loop writes: its left neighbour as it was, its right one as just written. -/
theorem wordAt_vbtDecInner (hi : i < p) (hp : p < v.length) :
    wordAt (vbtDecInner K sum e p v y).1 (i + 1) = wordAt v (i + 1) - mx K (wordAt v i)
      (if i + 1 = p then y else wordAt (vbtDecInner K sum e p v y).1 (i + 2)) sum (i + 1) e := by
  induction p generalizing v y with
  | zero => omega
  | succ p ih =>
    rw [vbtDecInner_succ]
    rcases Nat.lt_succ_iff_lt_or_eq.mp hi with hlt | rfl
    · rw [ih _ _ hlt (by rw [List.length_set]; omega), wordAt_set_ne (by omega), wordAt_set_ne (by omega),
        if_neg (by omega : i + 1 ≠ p + 1)]
      split
      · next hlast =>
        subst hlast
        rw [wordAt_vbtDecInner_of_not_mem _ _ _ _ _ (.inr (by omega)), wordAt_set_self hp]
      · rfl
    · rw [wordAt_vbtDecInner_of_not_mem _ _ _ _ _ (.inr (by omega)), wordAt_set_self hp, if_pos rfl]

theorem wordAt_vbtDecPass_succ_eq_inner : wordAt (vbtDecPass K sum v) (i + 1) =
    wordAt (vbtDecInner K sum (vbtE sum) (v.length - 1) v (wordAt v 0)).1 (i + 1) :=
  wordAt_set_ne i.succ_ne_zero.symm _ _

/-- Words n-1 down to 1 of a decrypt pass; the right neighbour of word n-1 is word 0 as it was. -/
theorem wordAt_vbtDecPass_succ (hi : i + 1 < v.length) : wordAt (vbtDecPass K sum v) (i + 1) =
    wordAt v (i + 1) - mx K (wordAt v i)
      (if i + 2 = v.length then wordAt v 0 else wordAt (vbtDecPass K sum v) (i + 2)) sum (i + 1) (vbtE sum) := by
  have hlast : i + 1 = v.length - 1 ↔ i + 2 = v.length := by omega
  rw [wordAt_vbtDecPass_succ_eq_inner, wordAt_vbtDecPass_succ_eq_inner,
    wordAt_vbtDecInner _ _ _ _ _ (by omega) (by omega)]
  simp only [hlast]

/-- Word 0 of a decrypt pass: both its neighbours are as just written. -/
theorem wordAt_vbtDecPass_zero (hn : 1 ≤ v.length) : wordAt (vbtDecPass K sum v) 0 = wordAt v 0 -
    mx K (if v.length = 1 then wordAt v 0 else wordAt (vbtDecPass K sum v) (v.length - 1))
      (if v.length = 1 then wordAt v 0 else wordAt (vbtDecPass K sum v) 1) sum 0 (vbtE sum) := by
  have hword0 : wordAt (vbtDecPass K sum v) 0 = _ := wordAt_set_self (by rw [length_vbtDecInner]; omega) _
  rw [hword0, snd_vbtDecInner _ _ _ _ _ (by omega), wordAt_vbtDecInner_of_not_mem _ _ _ _ _ (.inl rfl)]
  rcases hn.eq_or_lt with hone | htwo
  · rw [← hone]
    rfl
  · obtain ⟨m, hm⟩ : ∃ m, v.length - 1 = m + 1 := ⟨v.length - 2, by omega⟩
    rw [if_neg (by omega : 0 ≠ v.length - 1), if_neg htwo.ne', if_neg htwo.ne', wordAt_vbtDecPass_succ_eq_inner, hm,
      wordAt_vbtDecPass_succ_eq_inner, hm]

end DecryptPass

/-! ## One pass of the encrypt, word by word (R143) -/

section EncryptPass

variable (K : Key) (sum : Word) (e : Nat) {left p i : Nat} (v : List Word) (z : Word)

theorem vbtEncInner_succ (left p : Nat) : vbtEncInner K sum e (left + 1) p v z =
    vbtEncInner K sum e left (p + 1) (v.set p (wordAt v p + mx K z (wordAt v (p + 1)) sum p e))
      (wordAt v p + mx K z (wordAt v (p + 1)) sum p e) := rfl

/-- The inner loop leaves the words below p and those above the ones it writes as they are. -/
theorem wordAt_vbtEncInner_of_not_mem (h : i < p ∨ p + left ≤ i) :
    wordAt (vbtEncInner K sum e left p v z).1 i = wordAt v i := by
  induction left generalizing p v z with
  | zero => rfl
  | succ left ih => rw [vbtEncInner_succ, ih _ _ (by omega), wordAt_set_ne (by omega)]

/-- The inner loop carries out the value it wrote last, or the one it was given where it writes none. -/
theorem snd_vbtEncInner (hp : p + left ≤ v.length) : (vbtEncInner K sum e left p v z).2 =
    if left = 0 then z else wordAt (vbtEncInner K sum e left p v z).1 (p + left - 1) := by
  induction left generalizing p v z with
  | zero => rfl
  | succ left ih =>
    rw [vbtEncInner_succ, ih _ _ (by rw [List.length_set]; omega), if_neg left.succ_ne_zero]
    split
    · next h0 => subst h0; exact (wordAt_set_self hp _).symm
    · congr 1
      omega

/-- A word the inner loop writes: its left neighbour as just written, its right one as it was. -/
theorem wordAt_vbtEncInner (hpi : p ≤ i) (hi : i < p + left) (hp : p + left ≤ v.length) :
    wordAt (vbtEncInner K sum e left p v z).1 i = wordAt v i +
      mx K (if i = p then z else wordAt (vbtEncInner K sum e left p v z).1 (i - 1)) (wordAt v (i + 1)) sum i e := by
  induction left generalizing p v z with
  | zero => omega
  | succ left ih =>
    rw [vbtEncInner_succ]
    rcases hpi.eq_or_lt with rfl | hlt
    · rw [wordAt_vbtEncInner_of_not_mem _ _ _ _ _ (.inl (by omega)), wordAt_set_self (by omega), if_pos rfl]
    · rw [ih _ _ hlt (by omega) (by rw [List.length_set]; omega), wordAt_set_ne (by omega), wordAt_set_ne (by omega),
        if_neg hlt.ne']
      split
      · next hfirst =>
        subst hfirst
        rw [Nat.succ_sub_one, wordAt_vbtEncInner_of_not_mem _ _ _ _ _ (.inl (by omega)), wordAt_set_self (by omega)]
      · rfl

theorem wordAt_vbtEncPass_eq_inner (hi : i + 1 < v.length) : wordAt (vbtEncPass K sum v) i =
    wordAt (vbtEncInner K sum (vbtE sum) (v.length - 1) 0 v (wordAt v (v.length - 1))).1 i :=
  wordAt_set_ne (by omega) _ _

/-- Words 0 to n-2 of an encrypt pass; the left neighbour of word 0 is word n-1 as it was. -/
theorem wordAt_vbtEncPass (hi : i + 1 < v.length) : wordAt (vbtEncPass K sum v) i = wordAt v i +
    mx K (if i = 0 then wordAt v (v.length - 1) else wordAt (vbtEncPass K sum v) (i - 1)) (wordAt v (i + 1)) sum i
      (vbtE sum) := by
  rw [wordAt_vbtEncPass_eq_inner _ _ _ hi, wordAt_vbtEncPass_eq_inner _ _ _ (by omega : i - 1 + 1 < v.length),
    wordAt_vbtEncInner _ _ _ _ _ i.zero_le (by omega) (by omega)]

/-- Word n-1 of an encrypt pass: both its neighbours are as just written. -/
theorem wordAt_vbtEncPass_last (hn : 2 ≤ v.length) : wordAt (vbtEncPass K sum v) (v.length - 1) =
    wordAt v (v.length - 1) + mx K (wordAt (vbtEncPass K sum v) (v.length - 2)) (wordAt (vbtEncPass K sum v) 0) sum
      (v.length - 1) (vbtE sum) := by
  have hword : wordAt (vbtEncPass K sum v) (v.length - 1) = _ :=
    wordAt_set_self (by rw [length_vbtEncInner]; omega) _
  rw [hword, snd_vbtEncInner _ _ _ _ _ (by omega), if_neg (by omega),
    wordAt_vbtEncInner_of_not_mem _ _ _ _ _ (.inr (by omega)), wordAt_vbtEncPass_eq_inner _ _ _ (by omega),
    wordAt_vbtEncPass_eq_inner _ _ _ (by omega), Nat.zero_add, Nat.sub_sub]

end EncryptPass

/-! ## The passes and their sums (R141 to R143) -/

/-- DELTA is odd, hence a unit mod 2^32, so no sum of 1 to 2^32 - 1 steps is 0 and ends the loop of R142 early. -/
theorem ofNat_mul_delta_ne_zero {k : Nat} (hpos : 0 < k) (hk : k < 2 ^ 32) : BitVec.ofNat 32 k * delta ≠ 0 := by
  intro hzero
  have hunit : delta * 0x144cbc89 = 1#32 := by decide
  have hk0 : BitVec.ofNat 32 k = 0 := by
    rw [← BitVec.mul_one (BitVec.ofNat 32 k), ← hunit, ← BitVec.mul_assoc, hzero]
    rfl
  have hmod := congrArg BitVec.toNat hk0
  rw [BitVec.toNat_ofNat, Nat.mod_eq_of_lt hk] at hmod
  exact hpos.ne' hmod

/-- The loop `while sum != 0` of R142 from the sum k·DELTA makes k passes, with the sums k·DELTA down to DELTA. -/
theorem vbtDecLoop_eq_foldl (K : Key) {k : Nat} (hk : k < 2 ^ 32) (v : List Word) :
    vbtDecLoop K k (BitVec.ofNat 32 k * delta) v =
      (List.range k).foldl (fun u j => vbtDecPass K (BitVec.ofNat 32 (k - j) * delta) u) v := by
  induction k generalizing v with
  | zero => rfl
  | succ k ih =>
    rw [vbtDecLoop, if_neg (ofNat_mul_delta_ne_zero k.succ_pos hk), ofNat_succ_mul_delta, BitVec.add_sub_cancel,
      ih (by omega), ← ofNat_succ_mul_delta]
    simp [List.range_succ_eq_map, List.foldl_map]

theorem vbtEncLoop_eq_foldl (K : Key) (k : Nat) (sum : Word) (v : List Word) :
    vbtEncLoop K k sum v =
      (List.range k).foldl (fun u j => vbtEncPass K (sum + BitVec.ofNat 32 (j + 1) * delta) u) v := by
  induction k generalizing sum v with
  | zero => rfl
  | succ k ih =>
    have hsum (j : Nat) : sum + delta + BitVec.ofNat 32 (j + 1) * delta = sum + BitVec.ofNat 32 (j + 2) * delta := by
      rw [ofNat_succ_mul_delta (j + 1)]
      ring
    simp [vbtEncLoop, ih, List.range_succ_eq_map, List.foldl_map, hsum]

theorem vbtRounds_lt (n : Nat) : vbtRounds n < 2 ^ 32 := by
  have := Nat.div_le_self 52 n
  unfold vbtRounds
  omega

/-- `VBT_dec_words` is rounds(n) passes with the sums downward (R142). -/
theorem vbtDecWords_eq_foldl (K : Key) (v : List Word) : vbtDecWords K v = (List.range (vbtRounds v.length)).foldl
    (fun u j => vbtDecPass K (BitVec.ofNat 32 (vbtRounds v.length - j) * delta) u) v :=
  vbtDecLoop_eq_foldl K (vbtRounds_lt _) v

/-- `VBT_enc_words` is rounds(n) passes with the sums upward (R143). -/
theorem vbtEncWords_eq_foldl (K : Key) (v : List Word) : vbtEncWords K v = (List.range (vbtRounds v.length)).foldl
    (fun u j => vbtEncPass K (BitVec.ofNat 32 (j + 1) * delta) u) v := by
  simp only [vbtEncWords, vbtEncLoop_eq_foldl, zero_add]

/-- Settles O40: the loops as folds with the sum of each pass, and the words of one pass. -/
theorem wordDecryptRunsEveryRound : Obligations.WordDecryptRunsEveryRound := by
  refine fun K => ⟨fun v _ _ => vbtDecWords_eq_foldl K v, fun v _ _ => vbtEncWords_eq_foldl K v, fun sum v => ?_⟩
  intro mix n
  have hmix (z y : Word) (p : Nat) : mix z y p = mx K z y sum p (vbtE sum) := by rw [vbtE_eq]; rfl
  simp only [hmix]
  refine ⟨fun hn => ⟨length_vbtDecPass K sum v, fun p hpos hp => ?_, wordAt_vbtDecPass_zero K sum v hn⟩,
    fun hn => ⟨length_vbtEncPass K sum v, fun p hp => wordAt_vbtEncPass K sum v hp, wordAt_vbtEncPass_last K sum v hn⟩⟩
  obtain ⟨i, rfl⟩ := Nat.exists_eq_add_of_le' hpos
  exact wordAt_vbtDecPass_succ K sum v hp

/-! ## Decrypt undoes encrypt on a block (R152) -/

section UndoPass

variable (K : Key) (sum : Word) {v : List Word}

/-- From word n-1 downward. Word n-1 was encrypted between the new words n-2 and 0, which the decrypt finds as they
are; each word below it between the new word on its left and the old one on its right, which the decrypt has restored
by then. -/
theorem wordAt_vbtDecPass_vbtEncPass_succ {i : Nat} (hi : i + 1 < v.length) :
    wordAt (vbtDecPass K sum (vbtEncPass K sum v)) (i + 1) = wordAt v (i + 1) := by
  rw [wordAt_vbtDecPass_succ _ _ _ (by rwa [length_vbtEncPass]), length_vbtEncPass, sub_eq_iff_eq_add]
  split
  · next hlast =>
    have henc := wordAt_vbtEncPass_last K sum v (by omega)
    rwa [← hlast] at henc
  · next hinner =>
    have henc := wordAt_vbtEncPass K sum v (i := i + 1) (by omega)
    rw [if_neg i.succ_ne_zero] at henc
    rwa [wordAt_vbtDecPass_vbtEncPass_succ (by omega)]
termination_by v.length - i

/-- Word 0 comes last, with both neighbours restored. -/
theorem wordAt_vbtDecPass_vbtEncPass_zero (hn : 2 ≤ v.length) :
    wordAt (vbtDecPass K sum (vbtEncPass K sum v)) 0 = wordAt v 0 := by
  obtain ⟨m, hm⟩ : ∃ m, v.length - 1 = m + 1 := ⟨v.length - 2, by omega⟩
  have henc := wordAt_vbtEncPass K sum v (i := 0) (by omega)
  rw [if_pos rfl, hm] at henc
  rw [wordAt_vbtDecPass_zero _ _ _ (by rw [length_vbtEncPass]; omega), length_vbtEncPass, if_neg (by omega),
    if_neg (by omega), hm, wordAt_vbtDecPass_vbtEncPass_succ _ _ (by omega),
    wordAt_vbtDecPass_vbtEncPass_succ _ _ (by omega), sub_eq_iff_eq_add]
  exact henc

/-- A decrypt pass undoes the encrypt pass of its sum. -/
theorem vbtDecPass_vbtEncPass (hn : 2 ≤ v.length) : vbtDecPass K sum (vbtEncPass K sum v) = v := by
  refine eq_of_wordAt (by rw [length_vbtDecPass, length_vbtEncPass]) fun i hi => ?_
  cases i with
  | zero => exact wordAt_vbtDecPass_vbtEncPass_zero K sum hn
  | succ i => exact wordAt_vbtDecPass_vbtEncPass_succ K sum hi

end UndoPass

/-- The first decrypt pass undoes the last encrypt pass, and the rest undo the rest. -/
theorem decPasses_encPasses (K : Key) (k : Nat) {v : List Word} (hn : 2 ≤ v.length) :
    (List.range k).foldl (fun u j => vbtDecPass K (BitVec.ofNat 32 (k - j) * delta) u)
      ((List.range k).foldl (fun u j => vbtEncPass K (BitVec.ofNat 32 (j + 1) * delta) u) v) = v := by
  induction k with
  | zero => rfl
  | succ k ih =>
    have hlen : ((List.range k).foldl (fun u j => vbtEncPass K (BitVec.ofNat 32 (j + 1) * delta) u) v).length =
        v.length :=
      List.foldlRecOn (motive := fun u => u.length = v.length) _ _ rfl
        fun u hu j _ => (length_vbtEncPass K _ u).trans hu
    rw [List.range_succ_eq_map, List.foldl_cons, List.foldl_map, ← List.range_succ_eq_map, List.range_succ,
      List.foldl_concat, Nat.sub_zero, vbtDecPass_vbtEncPass K _ (hlen.symm ▸ hn)]
    simpa only [Nat.succ_sub_succ] using ih

theorem vbtDecWords_vbtEncWords (K : Key) {v : List Word} (hn : 2 ≤ v.length) :
    vbtDecWords K (vbtEncWords K v) = v := by
  rw [vbtDecWords_eq_foldl, length_vbtEncWords, vbtEncWords_eq_foldl, decPasses_encPasses K _ hn]

/-! ## The byte routing (R145, R146) -/

/-- A word function's left inverse on blocks of 2 to 16 words undoes it on the bytes of such a block. -/
theorem onWords_leftInverse {f g : List Word → List Word} (h : ∀ v, 2 ≤ v.length → v.length ≤ 16 → f (g v) = v)
    {a : List Byte} (h8 : 8 ≤ a.length) (h64 : a.length ≤ 64) (h4 : a.length % 4 = 0) :
    onWords f (onWords g a) = a := by
  have hlen := length_bytesToWords a
  rw [onWords, onWords, bytesToWords_wordsToBytes, h _ (by omega) (by omega), wordsToBytes_bytesToWords a h4]

/-- Every byte sequence falls under one case of R145: a full block in front, a word tail and up to three bytes after it,
or fewer than eight bytes. -/
theorem vbtRoute_induction {P : List Byte → Prop}
    (block : ∀ a y : List Byte, a.length = 64 → P y → P (a ++ y))
    (words : ∀ a y : List Byte, 8 ≤ a.length → a.length < 64 → a.length % 4 = 0 → y.length < 4 → P (a ++ y))
    (short : ∀ x : List Byte, x.length < 8 → P x) (x : List Byte) : P x := by
  rcases Nat.lt_or_ge x.length 64 with htail | hfull
  · rcases Nat.lt_or_ge x.length 8 with hshort | hwords
    · exact short x hshort
    · have := words (x.take (4 * (x.length / 4))) (x.drop (4 * (x.length / 4)))
      simp only [List.length_take, List.length_drop, List.take_append_drop] at this
      exact this (by omega) (by omega) (by omega) (by omega)
  · have := block (x.take 64) (x.drop 64) (by rw [List.length_take]; omega)
      (vbtRoute_induction block words short (x.drop 64))
    rwa [List.take_append_drop] at this
termination_by x.length
decreasing_by rw [List.length_drop]; omega

section Route

variable (fw : List Word → List Word) (fb : List Byte → List Byte) {a x y : List Byte}

theorem vbtRoute_block_append (ha : a.length = 64) :
    vbtRoute fw fb (a ++ y) = onWords fw a ++ vbtRoute fw fb y := by
  have hfull : (a ++ y).length / 64 = y.length / 64 + 1 := by rw [List.length_append]; omega
  rw [vbtRoute, hfull, vbtBlocks, List.take_left' ha, List.drop_left' ha, vbtRoute]

theorem vbtRoute_of_lt (hx : x.length < 64) : vbtRoute fw fb x = vbtTail fw fb x := by
  rw [vbtRoute, Nat.div_eq_of_lt hx, vbtBlocks]

theorem vbtRoute_words_append (h8 : 8 ≤ a.length) (h64 : a.length < 64) (h4 : a.length % 4 = 0) (hy : y.length < 4) :
    vbtRoute fw fb (a ++ y) = onWords fw a ++ fb y := by
  have hwords : 4 * ((a ++ y).length / 4) = a.length := by rw [List.length_append]; omega
  rw [vbtRoute_of_lt _ _ (by rw [List.length_append]; omega), vbtTail, if_pos (by omega), hwords, List.take_left,
    List.drop_left]

theorem vbtRoute_of_short (hx : x.length < 8) : vbtRoute fw fb x = fb x := by
  rw [vbtRoute_of_lt _ _ (by omega), vbtTail, if_neg (by omega)]

variable {fw fb} {gw : List Word → List Word} {gb : List Byte → List Byte}

/-- Left inverses of a word function on blocks of 2 to 16 words and of a byte function undo the routing of the two: the
encrypt keeps the length, so the decrypt finds the same blocks and the same tails. -/
theorem vbtRoute_leftInverse (hgw : ∀ v, (gw v).length = v.length) (hgb : ∀ x, (gb x).length = x.length)
    (hw : ∀ v, 2 ≤ v.length → v.length ≤ 16 → fw (gw v) = v) (hb : ∀ x, fb (gb x) = x) (x : List Byte) :
    vbtRoute fw fb (vbtRoute gw gb x) = x := by
  induction x using vbtRoute_induction with
  | block a x ha ih =>
    rw [vbtRoute_block_append _ _ ha, vbtRoute_block_append _ _ (by rw [length_onWords hgw, ha]),
      onWords_leftInverse hw (by omega) ha.le (by omega), ih]
  | words a x h8 h64 h4 hlt =>
    have hlen : (onWords gw a).length = a.length := by rw [length_onWords hgw]; omega
    rw [vbtRoute_words_append _ _ h8 h64 h4 hlt, vbtRoute_words_append _ _ (by omega) (by omega) (by omega)
      ((hgb x).trans_lt hlt), onWords_leftInverse hw h8 h64.le h4, hb]
  | short x hshort => rw [vbtRoute_of_short _ _ hshort, vbtRoute_of_short _ _ ((hgb x).trans_lt hshort), hb]

end Route

/-- Settles O41: the inverse carried from a pass to a block and, by the routing, to a byte sequence. -/
theorem variableBlockTeaInverse : Obligations.VariableBlockTeaInverse := fun K =>
  ⟨fun _ hn _ => vbtDecWords_vbtEncWords K hn,
    vbtRoute_leftInverse (length_vbtEncWords K) (length_bfcEnc K) (fun _ hn _ => vbtDecWords_vbtEncWords K hn)
      (bfcDec_bfcEnc K)⟩

/-- A full block alone is the word function on its words. -/
theorem vbtDec_of_length_eq (K : Key) {x : List Byte} (hx : x.length = 64) :
    vbtDec K x = onWords (vbtDecWords K) x := by
  have hnil : vbtRoute (vbtDecWords K) (bfcDec K) [] = [] := vbtRoute_of_short _ _ (by decide)
  have h := vbtRoute_block_append (vbtDecWords K) (bfcDec K) (y := []) hx
  rwa [hnil, List.append_nil, List.append_nil] at h

/-- The operand of VBT.DECN with N = 16 is the operand of VBT.DEC with count 64 in every state, errors included. -/
theorem cipherOperandN_sixteen {s : State} (ha3 : s.a3 = 64) : cipherOperandN s 1 16 = cipherOperand s := by
  rw [cipherOperand, bufOperand, ha3]
  rfl

theorem cipherOperand_count {s : State} {r : Span} (h : cipherOperand s = .ok r) : r.count = s.a3.toInt.toNat := by
  obtain ⟨_, hr, _⟩ := admittedSpan_ok_inv (cipherOperand_ok_inv h).2
  rw [hr]

/-- Settles O42: one operand, and one function on the 64 bytes it names. -/
theorem fullBlockPathAgrees : Obligations.FullBlockPathAgrees := by
  refine ⟨fun K x hx => vbtDec_of_length_eq K hx, fun s ha3 => ?_⟩
  rw [exec, exec, execVbtDecn, execVbtDec, cipherOperandN_sixteen ha3]
  cases hr : cipherOperand s with
  | error f => rfl
  | ok r =>
    have hcount : r.count = 64 := by rw [cipherOperand_count hr, ha3]; rfl
    rw [command_ok, command_ok, inPlace, inPlace, vbtDec_of_length_eq s.key (by simp [hcount])]

/-- Settles O43: the three cases of the routing. -/
theorem blocksAreIndependent : Obligations.BlocksAreIndependent :=
  ⟨fun K _ _ hx => vbtRoute_append (fb := bfcDec K) rfl _ _ hx,
    fun K _ hx => vbtRoute_of_short (vbtDecWords K) (bfcDec K) hx,
    fun K _ _ h8 h64 h4 hy _ => vbtRoute_words_append (vbtDecWords K) (bfcDec K) h8 h64 h4 hy⟩

end Sys2Proof.Machine

/-! # AlignedBlockStream (spec/43_aligned_block_stream.md rules R170 to R184) -/

namespace Sys2Proof.Machine

/-! ## What a failing ABS.OPEN leaves (R172, R244, R248) -/

theorem exec_absOpen_of_valid {s : State} {slot : Nat} {src : Source} {K : Key} (hslot : s.slots[slot]? = some .closed)
    (hsrc : sourceOf s s.a0.toNat = some src) (hpos : 0 ≤ s.a1.toInt) (hadm : Admitted s s.a2.toNat 16)
    (hkey : KeyAt s s.a2.toNat K) : exec (.absOpen slot) s = absOpenEffect slot s ⟨src, s.a1, K⟩ := by
  rw [exec, execAbsOpen, absOpenOperand_of_valid hslot hsrc hpos hadm hkey, command_ok]

/-- Whatever its source read did to the cursor, a failing ABS.OPEN puts it back to the open offset (R172). -/
theorem absOpenFailed_raise {s u : State} (hu : OnlyCursor s u s.a0.toNat) (e : Failure) :
    AbsOpenFailed s (raise (srcSeek u s.a0.toNat s.a1) e) e.cause e.phase e.detail (e.info u.draws) := by
  obtain ⟨hcursor, hothers⟩ :=
    cursorSet_srcSeek (t := raise (srcSeek u s.a0.toNat s.a1) e) (hu.seek s.a1)
  exact
    { outcome := fails_raise (srcSeek u s.a0.toNat s.a1) e
      keyv := (onlyReports_raise _ e).keyv.trans (congrArg statusKeyv hu.status)
      inputs := hu.inputs.trans ((sameInputs_srcSeek _ _ _).trans (sameInputs_raise _ _))
      key := hu.key
      slots := hu.slots
      cursor := hcursor
      sources := hothers
      memory := fun x => congrArg (Memory.byte · x) hu.mem }

/-- A read of ABS.OPEN that ends at the end of the source, at its first missing byte (R172). -/
theorem absOpenEffect_short {s u : State} {slot : Nat} {src : Source} {K : Key} {raw : List Byte}
    (hread : srcRead s s.a0.toNat src s.a1.toNat 4 = (u, some raw)) (hraw : raw.length < 4) :
    absOpenEffect slot s ⟨src, s.a1, K⟩ = .next (raise (srcSeek u s.a0.toNat s.a1)
      (.underlyingIO .header .short (BitVec.ofNat 64 (s.a1.toNat + raw.length)))) := by
  simp only [absOpenEffect, hread, if_pos hraw, absOpenFails]

/-- A read of ABS.OPEN that is whole: the decoded length decides between BadLengthPrefix and the stream (R172, R173). -/
theorem absOpenEffect_whole {s u : State} {slot : Nat} {src : Source} {K : Key} {raw : List Byte}
    (hread : srcRead s s.a0.toNat src s.a1.toNat 4 = (u, some raw)) (hraw : raw.length = 4) :
    absOpenEffect slot s ⟨src, s.a1, K⟩ =
      .next (if 2 ^ 31 ≤ (lengthPrefix K raw).toNat then
          raise (srcSeek u s.a0.toNat s.a1) (.badLengthPrefix (lengthPrefix K raw))
        else openedStream s u slot K (lengthPrefix K raw)) := by
  by_cases hbig : 2 ^ 31 ≤ (lengthPrefix K raw).toNat
  · have hwhole : ¬raw.length < 4 := by omega
    simp only [absOpenEffect, hread, if_neg hwhole, if_pos hbig, absOpenFails]
  · rw [if_neg hbig, absOpenEffect_opens hread hraw (by omega)]

/-- Four bytes decrypt to four bytes. -/
theorem exists_vbtDec_eq_four (K : Key) {raw : List Byte} (h : raw.length = 4) :
    ∃ b0 b1 b2 b3, vbtDec K raw = [b0, b1, b2, b3] := by
  have hlen : (vbtDec K raw).length = 4 := (length_vbtDec K raw).trans h
  match vbtDec K raw, hlen with
  | [b0, b1, b2, b3], _ => exact ⟨b0, b1, b2, b3, rfl⟩

/-- Settles O45, by what the source read delivers: nothing, fewer than four bytes, or the four of the length. -/
theorem absOpenReportsItsRead : Obligations.AbsOpenReportsItsRead := by
  intro s slot src K hslot hsrc hpos hadm hkey
  rw [exec_absOpen_of_valid hslot hsrc hpos hadm hkey]
  have hcursor := onlyCursor_srcRead s s.a0.toNat src s.a1.toNat 4
  rcases srcRead_spec s s.a0.toNat src s.a1.toNat 4 with ⟨hread, hmay⟩ | hread <;> rw [hread] at hcursor
  · refine ⟨_, ?_, .inl ⟨hmay, absOpenFailed_raise hcursor (.underlyingIO .header .device s.a1)⟩⟩
    simp only [absOpenEffect, hread, absOpenFails]
  · by_cases hshort : src.data.length < s.a1.toNat + 4
    · have hraw := length_delivery src s.a1.toNat 4
      have hmissing : max s.a1.toNat src.data.length = s.a1.toNat + (delivery src s.a1.toNat 4).length := by omega
      rw [hmissing]
      exact ⟨_, absOpenEffect_short hread (by omega), .inr (.inl ⟨hshort, absOpenFailed_raise hcursor _⟩)⟩
    · have hraw : (delivery src s.a1.toNat 4).length = 4 := length_delivery_of_le (by omega)
      obtain ⟨b0, b1, b2, b3, hdec⟩ := exists_vbtDec_eq_four K hraw
      have heffect := absOpenEffect_whole (slot := slot) (K := K) hread hraw
      rw [lengthPrefix_eq hdec, hraw] at heffect
      refine ⟨_, heffect, .inr (.inr ⟨b0, b1, b2, b3, hdec, ?_⟩)⟩
      split
      · exact absOpenFailed_raise (hraw ▸ hcursor) (.badLengthPrefix _)
      · exact absOpened_openedStream s slot K _

/-! ## ABS.READ over a source that does not fail (R174 to R176) -/

/-- Settles O46: of the outcomes of O49, a source that does not fail leaves the delivery. -/
theorem absReadDeliversContent : Obligations.AbsReadDeliversContent := by
  intro s slot f src hwf hslot hsrc hmay hpos hsource hbuf hadm
  obtain ⟨t, ht, hdone | ⟨hfails, -⟩⟩ :=
    absReadDeliversOrNamesItsRead s slot f src _ _ hwf hslot hsrc hpos hsource hbuf hadm rfl rfl
  · refine ⟨t, ht, hdone, fun h0 => ?_⟩
    have hcount : absReadCount f s.a3.toNat = 0 := h0
    rw [exec_absRead_of_valid hslot hsrc hbuf hadm, if_pos hcount] at ht
    cases ht
    exact onlyReports_succeed s 0
  · rw [hmay] at hfails
    cases hfails

/-! ## The slice law (R184) -/

/-- ABS.SEEK begin with a position of the stream takes it as it is (R177). -/
theorem seekTarget_fromBegin {f : Aligned} {pos : Nat} (hlen : f.length.toNat < 2 ^ 31) (hpos : pos ≤ f.length.toNat) :
    seekTarget f .fromBegin (BitVec.ofNat 64 pos) = pos := by
  refine seekTarget_eq (.inl ⟨rfl, rfl⟩) ?_
  have hoffset : (BitVec.ofNat 64 pos).toInt = pos := by
    rw [BitVec.toInt_eq_toNat_of_lt] <;> rw [BitVec.toNat_ofNat] <;> omega
  omega

theorem getElem?_slots_soughtStream {s : State} {slot : Nat} {f : Aligned} (hslot : s.slots[slot]? = some (.aligned f))
    (target : Nat) :
    (soughtStream s slot f target).slots[slot]? = some (.aligned { f with pos := BitVec.ofNat 64 target }) := by
  obtain ⟨hlt, -⟩ := List.getElem?_eq_some_iff.1 hslot
  exact List.getElem?_set_self hlt

theorem sourceOf_soughtStream {s : State} {f : Aligned} {src : Source} (hsrc : sourceOf s f.src = some src)
    (slot target : Nat) :
    sourceOf (soughtStream s slot f target) f.src
      = some { src with cursor := BitVec.ofNat 64 (f.origin.toNat + target) } := by
  obtain ⟨hcursor, -⟩ := cursorSet_srcSeek (s := s) (t := soughtStream s slot f target) (h := f.src) rfl
  rw [hcursor, hsrc]
  rfl

/-- Settles O47: the seek leaves the stream at `pos` over the same source data, and O46 says what a read from there
delivers. -/
theorem seekThenReadIsASlice : Obligations.SeekThenReadIsASlice := by
  intro s slot pos f src a0 a1 a2 a3 hwf hslot hsrc hmay hlen hpos hsource hbuf hadm
  have hseek := exec_absSeek_of_aligned (s := { s with a0 := BitVec.ofNat 64 pos }) (whence := .fromBegin) hslot hsrc nofun
  rw [seekTarget_fromBegin hlen hpos] at hseek
  have hposition : (BitVec.ofNat 64 pos).toNat = pos := by
    rw [BitVec.toNat_ofNat]
    omega
  have hslot' := getElem?_slots_soughtStream (s := { s with a0 := BitVec.ofNat 64 pos }) hslot pos
  have hsrc' := sourceOf_soughtStream (s := { s with a0 := BitVec.ofNat 64 pos }) hsrc slot pos
  obtain ⟨t, ht, hdone, -⟩ := absReadDeliversContent
    { soughtStream { s with a0 := BitVec.ofNat 64 pos } slot f pos with a0 := a0, a1 := a1, a2 := a2, a3 := a3 }
    slot { f with pos := BitVec.ofNat 64 pos } _ hwf hslot' hsrc' hmay (hposition.trans_le hpos) hsource hbuf hadm
  simp only [hposition] at hdone
  exact ⟨_, t, hseek, ht, hdone.outcome, hdone.range⟩

/-! ## ABS.READ over a source that ends early (R171, R174, R175, R244) -/

/-- The reads of a plan follow one another without a gap, from the position `q` to the position `past`. -/
def Contiguous (past : Nat) : Nat → List ReadStep → Prop
  | q, [] => q = past
  | q, r :: rest => r.first = q ∧ 0 < r.size ∧ Contiguous past (q + r.size) rest

/-- The reads of R174 and R175 run from the start of the first block to the end of the last, or the length. -/
theorem contiguous_readPlan {length pos n : Nat} (hn : n ≠ 0) (h : pos + n ≤ length) :
    Contiguous (min length (64 * ((pos + n - 1) / 64) + 64)) (64 * (pos / 64)) (readPlan length pos n) := by
  simp only [readPlan, blockStep]
  by_cases hblocks : pos / 64 < (pos + n - 1) / 64
  · by_cases hpart : (pos + n) % 64 = 0
    · have hmid : 64 * (pos / 64 + 1) < pos + n := by omega
      simp only [hblocks, hpart, hmid, if_true, List.append_nil, Contiguous, true_and]
      omega
    · by_cases hmid : 64 * (pos / 64 + 1) < 64 * ((pos + n - 1) / 64)
      · simp only [hblocks, hpart, hmid, if_true, if_false, List.cons_append, List.nil_append, Contiguous, true_and]
        omega
      · simp only [hblocks, hpart, hmid, if_true, if_false, List.nil_append, Contiguous, true_and]
        omega
  · simp only [hblocks, if_false, Contiguous, true_and]
    omega

/-- A run of contiguous reads over a source that ends before they do fails SHORT at the first missing byte, with the
phase of the read that byte belongs to (R171, R244). -/
theorem runReads_short {f : Aligned} {src : Source} (hmay : src.mayFail = false) {past q : Nat} {plan : List ReadStep}
    (hplan : Contiguous past q plan) (hq : q < past) (hends : src.data.length < f.origin.toNat + past) (s : State) :
    ∃ r ∈ plan, f.origin.toNat + r.first ≤ max src.data.length (f.origin.toNat + q) ∧
      max src.data.length (f.origin.toNat + q) < f.origin.toNat + r.first + r.size ∧
      (runReads f src plan s).2
        = .error (.underlyingIO r.phase .short (BitVec.ofNat 64 (max src.data.length (f.origin.toNat + q)))) := by
  induction plan generalizing q s with
  | nil =>
    have hend : q = past := hplan
    omega
  | cons r rest ih =>
    obtain ⟨hfirst, hsize, hrest⟩ := hplan
    obtain ⟨s1, hrun⟩ := runReads_cons hmay r rest s
    rw [hrun]
    by_cases hshort : src.data.length < f.origin.toNat + r.first + r.size
    · rw [if_pos ⟨hshort, hsize.ne'⟩, hfirst, max_comm]
      exact ⟨r, by simp, by omega, by omega, rfl⟩
    · rw [if_neg fun h => hshort h.1]
      have hmissing : max src.data.length (f.origin.toNat + q) = max src.data.length (f.origin.toNat + (q + r.size)) := by
        omega
      obtain ⟨r', hr', hlow, hhigh, hfails⟩ := ih hrest (by omega) s1
      rw [hmissing]
      refine ⟨r', List.mem_cons_of_mem r hr', hlow, hhigh, ?_⟩
      generalize runReads f src rest s1 = p at hfails
      obtain ⟨s2, out⟩ := p
      cases hfails
      rfl

/-- PHASE of the read that the source offset `x` belongs to: CONTENT in the whole blocks between the two ends of the
read, and BLOCK_SCRATCH else (R174, R175, R244). -/
theorem phase_code_of_mem_readPlan {length pos n origin x : Nat} {r : ReadStep} (hr : r ∈ readPlan length pos n)
    (hlow : origin + r.first ≤ x) (hhigh : x < origin + r.first + r.size) :
    r.phase.code
      = if origin + 64 * (pos / 64) + 64 ≤ x ∧ x < origin + 64 * ((pos + n) / 64) then 3 else 2 := by
  simp only [readPlan, List.mem_cons, List.mem_ite_nil_right, List.mem_append, List.mem_ite_nil_left,
    List.not_mem_nil, or_false] at hr
  rcases hr with rfl | ⟨hblocks, ⟨hmid, rfl⟩ | ⟨hpart, rfl⟩⟩
  · simp only [blockStep] at hlow hhigh
    exact (if_neg (by omega)).symm
  · simp only at hlow hhigh
    refine (if_pos ?_).symm
    split at hhigh <;> omega
  · simp only [blockStep] at hlow hhigh
    exact (if_neg (by omega)).symm

/-- Settles O48: the reads are contiguous up to `past`, so the run falls short at the source's end, or at its own start
where the source ends before that. -/
theorem absReadReportsAShortSource : Obligations.AbsReadReportsAShortSource := by
  intro s slot f src n stop first past missing hwf hslot hsrc hmay hpos hbuf hadm hn h0 hstop hfirst hpast hends hmissing
  subst hstop hfirst hpast hmissing
  have hcount : absReadCount f s.a3.toNat = n := hn.symm
  have hfit : f.pos.toNat + n ≤ f.length.toNat := by omega
  have hbelow : bufStart s + n ≤ 2 ^ 64 := by
    rcases hadm.below with h | h <;> omega
  obtain ⟨r, hr, hlow, hhigh, hshort⟩ :=
    runReads_short hmay (contiguous_readPlan h0 hfit) (by omega) hends s
  have hphase := phase_code_of_mem_readPlan hr hlow hhigh
  rw [exec_absRead_of_valid hslot hsrc hbuf hadm, hcount, if_neg h0]
  rcases absReadSome_spec hwf slot f src hbelow with ⟨e, t, he, ht, hfails, hframe⟩ | ⟨out, t, hout, -, -⟩
  · cases he.symm.trans hshort
    rw [← hphase]
    exact ⟨t, ht, hframe, hfails⟩
  · cases hout.symm.trans hshort

/-! ## The queries (R178, R179) -/

/-- Settles O52. -/
theorem absQueriesReport : Obligations.AbsQueriesReport := by
  intro s slot f hslot
  have hchecks : alignedSlot s slot = .ok f := (alignedSlot_ok_iff s slot f).2 hslot
  have hlen : exec (.absLen slot) s = .next (succeed s (f.length.setWidth 64)) := by
    rw [exec, execAbsLen, hchecks, command_ok]
  have hpos : exec (.absPos slot) s = .next (succeed s f.pos) := by
    rw [exec, execAbsPos, hchecks, command_ok]
  exact ⟨⟨_, hlen, succeeds_succeed _ _, flagsKept_succeed _ _, onlyReports_succeed _ _⟩,
    _, hpos, succeeds_succeed _ _, flagsKept_succeed _ _, onlyReports_succeed _ _⟩

/-! ## Refused operations (R180 to R182, R204 to R207, R243) -/

theorem absUnsupported_of_aligned {s : State} {slot : Nat} {f : Aligned} (hslot : s.slots[slot]? = some (.aligned f))
    (d : UnsupportedDetail) : absUnsupported slot d s = .next (raise s (.unsupportedOperation d)) := by
  rw [absUnsupported, (alignedSlot_ok_iff s slot f).2 hslot, command_ok]

theorem seqUnsupported_of_open {s : State} {slot : Nat} {f : Sequential}
    (hslot : s.slots[slot]? = some (.seqBlockTea f) ∨ s.slots[slot]? = some (.seqVbt f)) (d : UnsupportedDetail) :
    seqUnsupported slot d s = .next (raise s (.unsupportedOperation d)) := by
  obtain ⟨kind, hseq⟩ := seqSlot_of_open hslot
  rw [seqUnsupported, hseq, command_ok]

/-- Settles O55: each refused command passes its slot check and raises its DETAIL. -/
theorem refusedOperationsAreUnsupported : Obligations.RefusedOperationsAreUnsupported := by
  intro s slot
  refine ⟨fun f hslot => ⟨?_, ?_, ?_⟩, fun f hslot => ⟨fun whence => ?_, ?_, ?_, ?_⟩⟩
  · exact failsCleanly_of_raise (i := .absWrite slot) (absUnsupported_of_aligned hslot .write) rfl
  · exact failsCleanly_of_raise (i := .absFlush slot) (absUnsupported_of_aligned hslot .flush) rfl
  · exact failsCleanly_of_raise (i := .absSetlen slot) (absUnsupported_of_aligned hslot .setlen) rfl
  · exact failsCleanly_of_raise (i := .seqSeek slot whence) (seqUnsupported_of_open hslot .seek) rfl
  · exact failsCleanly_of_raise (i := .seqWrite slot) (seqUnsupported_of_open hslot .write) rfl
  · exact failsCleanly_of_raise (i := .seqFlush slot) (seqUnsupported_of_open hslot .flush) rfl
  · exact failsCleanly_of_raise (i := .seqSetlen slot) (seqUnsupported_of_open hslot .setlen) rfl

end Sys2Proof.Machine

/-! # SequentialCipherStream (spec/44_sequential_stream.md rules R201 to R203) -/

namespace Sys2Proof.Machine

/-! ## SEQ.READ over a source that does not fail -/

/-- SEQ.READ of at least one byte over a source that does not fail delivers, whatever the draw (R63, R201). -/
theorem seqReadSome_of_reliable {s : State} {src : Source} (hmay : src.mayFail = false) (kind : SeqKind)
    (f : Sequential) (n : Nat) :
    seqReadSome s kind f src ⟨bufStart s, n⟩ =
      .next (seqDelivered s kind f src (delivery src src.cursor.toNat n)) := by
  rw [seqReadSome, srcRead_of_reliable hmay]
  rfl

theorem seqDec_nil (kind : SeqKind) (K : Key) : seqDec kind K [] = [] :=
  List.length_eq_zero_iff.1 (length_seqDec kind K [])

/-- A success alone is a read of no byte: no source access stands behind it, and the cursor moves by 0 (R201). -/
theorem seqReadDone_zero {s : State} {f : Sequential} {src : Source} (hsrc : sourceOf s f.src = some src) :
    SeqReadDone s (succeed s 0) f src [] [] where
  outcome := succeeds_succeed _ _
  flags := flagsKept_succeed _ _
  inputs := sameInputs_succeed _ _
  key := rfl
  slots := rfl
  cursor := by
    rw [CursorSet, hsrc, List.length_nil, BitVec.ofNat_eq_ofNat, BitVec.add_zero]
    exact hsrc
  sources := fun _ _ => rfl
  range := rfl
  outside := fun _ _ => rfl

/-- SEQ.READ of either variant over a source that does not fail. A count of 0 is split off: it touches no source, and
its range may start past 2^64 (R51). -/
theorem seqRead_delivers {s : State} {slot : Nat} {kind : SeqKind} {f : Sequential} {src : Source}
    (hwf : Memory.wf s.mem = true) (hslot : seqSlot s slot = .ok (kind, f)) (hsrc : sourceOf s f.src = some src)
    (hmay : src.mayFail = false) (hbuf : BufValid s s.a3.toInt) (hadm : Admitted s (bufStart s) s.a3.toNat) :
    ∃ t, exec (.seqRead slot) s = .next t ∧
      SeqReadDone s t f src (delivery src src.cursor.toNat s.a3.toNat)
        (seqDec kind f.key (delivery src src.cursor.toNat s.a3.toNat)) := by
  have hexec := exec_seqRead_of_valid hslot hsrc hbuf hadm
  by_cases hzero : s.a3.toNat = 0
  · have hnone : delivery src src.cursor.toNat s.a3.toNat = [] := by rw [delivery, hzero, List.take_zero]
    rw [if_pos hzero] at hexec
    rw [hnone, seqDec_nil]
    exact ⟨_, hexec, seqReadDone_zero hsrc⟩
  · rw [if_neg hzero, seqReadSome_of_reliable hmay] at hexec
    have hlen : (delivery src src.cursor.toNat s.a3.toNat).length ≤ s.a3.toNat := List.length_take_le _ _
    have hbelow := hadm.below.resolve_left hzero
    exact ⟨_, hexec, seqReadDone_seqDelivered hwf kind f src (by omega)⟩

/-- Settles O54: the kind of the slot chooses the cipher, and the read is the same for both variants. -/
theorem seqReadDeliversAtTheCursor : Obligations.SeqReadDeliversAtTheCursor := by
  intro s slot f src raw hwf hsrc hmay hbuf hadm hraw
  subst hraw
  exact ⟨fun hslot => seqRead_delivers hwf ((seqSlot_ok_iff s slot .blockTea f).2 hslot) hsrc hmay hbuf hadm,
    fun hslot => seqRead_delivers hwf ((seqSlot_ok_iff s slot .variableBlockTea f).2 hslot) hsrc hmay hbuf hadm⟩

end Sys2Proof.Machine

/-! # The control commands (spec/46_host_control.md rules R220, R222, R224, R225; spec/60_exceptions.md R242) -/

namespace Sys2Proof.Machine

/-! ## Reports in sequence (R240) -/

theorem OnlyReports.trans {s t u : State} (h : OnlyReports s t) (k : OnlyReports t u) : OnlyReports s u where
  inputs := h.inputs.trans k.inputs
  keyv := k.keyv.trans h.keyv
  key := k.key.trans h.key
  slots := k.slots.trans h.slots
  sources := k.sources.trans h.sources
  memory := fun x => (k.memory x).trans (h.memory x)

/-! ## NOP (R220) -/

/-- The word 0 alone is NOP. -/
theorem decode_eq_nop_iff (w : Word) : decode w = .ok .nop ↔ w = 0 := by
  constructor
  · exact fun h => (encode_of_decode h).symm.trans (by decide)
  · rintro rfl
    decide

/-- NOP permits no field: its word with a slot in it is rejected (R72). -/
theorem decode_nop_with_slot : decode 0x100 = .error .field := by decide

theorem exec_nop (s : State) : exec .nop s = .next (succeed s 0) := by rw [exec, execNop]

/-- Settles O19: NOP is a success alone, and a word with its OP and a field set is no command. -/
theorem nopDoesNothing : Obligations.NopDoesNothing :=
  ⟨decode_eq_nop_iff, fun s =>
    ⟨⟨_, exec_nop s, succeeds_succeed _ _, flagsKept_succeed _ _, onlyReports_succeed _ _⟩,
      raisesIllegalCommand_of_decode decode_nop_with_slot s⟩⟩

/-! ## CLRERR (R222) -/

/-- CLRERR's own effect, before the outcome of R240: ERR is 0. -/
def clearErr (s : State) : State := { s with status := statusClearErr s.status }

@[simp] theorem clearErr_status (s : State) : (clearErr s).status = statusClearErr s.status := rfl

theorem exec_clrerr (s : State) : exec .clrerr s = .next (succeed (clearErr s) 0) := by
  rw [exec, execClrerr, clearErr]

/-- Of the state before it CLRERR changes ERR alone. -/
theorem onlyReports_clearErr (s : State) : OnlyReports s (clearErr s) where
  inputs := ⟨rfl, rfl, rfl, rfl, rfl, rfl, rfl, rfl, rfl⟩
  keyv := by rw [clearErr_status, statusKeyv_statusClearErr]
  key := rfl
  slots := rfl
  sources := rfl
  memory := fun _ => rfl

/-- Settles O21: the success that follows keeps the ERR that CLRERR cleared. -/
theorem clrerrClearsErr : Obligations.ClrerrClearsErr := by
  intro s
  have herr : statusErr (succeed (clearErr s) 0).status = false := by
    rw [(flagsKept_succeed (clearErr s) 0).1, clearErr_status, statusErr_statusClearErr]
  exact ⟨_, exec_clrerr s, succeeds_succeed _ _, herr, (onlyReports_clearErr s).trans (onlyReports_succeed _ _)⟩

/-! ## SRC.GETPOS (R224) -/

/-- Settles O23: an attached handle passes the one check of SRC.GETPOS, which is a success alone. -/
theorem getposReportsTheCursor : Obligations.GetposReportsTheCursor := by
  intro s src hsrc
  have hexec : exec .srcGetpos s = .next (succeed s src.cursor) := by
    rw [exec, execSrcGetpos, (sourceOperand_ok_iff s src).2 hsrc, command_ok]
  exact ⟨_, hexec, succeeds_succeed _ _, flagsKept_succeed _ _, onlyReports_succeed _ _⟩

/-! ## CLOSE (R225) -/

/-- CLOSE of a slot in range, whatever it holds. -/
theorem exec_close_of_lt {s : State} {slot : Nat} (h : slot < nSlots s) :
    exec (.close slot) s = .next (succeed (setSlot s slot .closed) 0) := by
  rw [exec, execClose, slotOperand_of_some (List.getElem?_eq_getElem h), command_ok]

/-- Settles O24: the slot check is the only one, and a success follows the one slot that is set. -/
theorem closeClosesTheSlot : Obligations.CloseClosesTheSlot := by
  intro s slot h
  exact ⟨_, exec_close_of_lt h, succeeds_succeed _ _, flagsKept_succeed_of_status rfl _, rfl,
    (sameInputs_setSlot _ _ _).trans (sameInputs_succeed _ _), rfl, rfl, fun _ => rfl⟩

/-! ## Source handles and offsets (R242) -/

section SourceOperands

variable {s : State} {i : Instr} {f : Failure}

theorem offsetOperand_of_neg (h : s.a1.toInt < 0) : offsetOperand s = .error (.invalidArgument .offsetNeg s.a1) := by
  rw [offsetOperand, decide_eq_false h.not_ge, require_false, error_bind]

/-- The handle is the first operand of each command that takes one; the slot of an OPEN comes before it (R250). -/
theorem exec_of_sourceOperand_error
    (hi : i = .srcSetpos ∨ i = .srcGetpos ∨ ∃ slot, s.slots[slot]? = some .closed ∧ IsOpenOn i slot)
    (h : sourceOperand s = .error f) : exec i s = .next (raise s f) := by
  rcases hi with rfl | rfl | ⟨slot, hslot, rfl | ⟨kind, rfl⟩⟩
  · rw [exec, execSrcSetpos, setposOperand, h, error_bind, command_error]
  · rw [exec, execSrcGetpos, h, command_error]
  · rw [exec, execAbsOpen, absOpenOperand, (closedSlot_ok_iff s slot).2 hslot, ok_bind, h, error_bind, command_error]
  · rw [exec, execSeqOpen, seqOpenOperand, (closedSlot_ok_iff s slot).2 hslot, ok_bind, h, error_bind, command_error]

/-- The offset is checked right after the handle (R172, R223). -/
theorem exec_of_offsetOperand_error {src : Source}
    (hi : i = .srcSetpos ∨ ∃ slot, s.slots[slot]? = some .closed ∧ i = .absOpen slot)
    (hsrc : sourceOf s s.a0.toNat = some src) (h : offsetOperand s = .error f) : exec i s = .next (raise s f) := by
  have hsource := (sourceOperand_ok_iff s src).2 hsrc
  rcases hi with rfl | ⟨slot, hslot, rfl⟩
  · rw [exec, execSrcSetpos, setposOperand, hsource, ok_bind, h, command_error]
  · rw [exec, execAbsOpen, absOpenOperand, (closedSlot_ok_iff s slot).2 hslot, ok_bind, hsource, ok_bind, h,
      error_bind, command_error]

end SourceOperands

/-- Settles O25: each command raises what its check of the handle raises, and after it what its check of the offset
raises. -/
theorem sourceOperandsAreChecked : Obligations.SourceOperandsAreChecked := by
  refine fun s => ⟨fun hnone => ?_, fun src hsrc hneg => ?_⟩
  · have hsource := sourceOperand_error hnone
    refine ⟨?_, ?_, fun slot hslot => ⟨?_, fun kind => ?_⟩⟩
    · exact failsCleanly_of_raise (exec_of_sourceOperand_error (.inl rfl) hsource) rfl
    · exact failsCleanly_of_raise (exec_of_sourceOperand_error (.inr (.inl rfl)) hsource) rfl
    · exact failsCleanly_of_raise
        (exec_of_sourceOperand_error (.inr (.inr ⟨slot, hslot, .inl rfl⟩)) hsource) rfl
    · exact failsCleanly_of_raise
        (exec_of_sourceOperand_error (.inr (.inr ⟨slot, hslot, .inr ⟨kind, rfl⟩⟩)) hsource) rfl
  · have hoffset := offsetOperand_of_neg hneg
    refine ⟨?_, fun slot hslot => ?_⟩
    · exact failsCleanly_of_raise (exec_of_offsetOperand_error (.inl rfl) hsrc hoffset) rfl
    · exact failsCleanly_of_raise (exec_of_offsetOperand_error (.inr ⟨slot, hslot, rfl⟩) hsrc hoffset) rfl

end Sys2Proof.Machine

/-! # What a failed command leaves (spec/60_exceptions.md rules R249 and R251) -/

namespace Sys2Proof.Machine

/-! ## The cipher commands without a key (R249) -/

section NoKey

variable {s : State}

theorem command_cipher_of_no_key {effect : Span → Result} (hkey : statusKeyv s.status = false) :
    command s (cipherOperand s) effect = .next (raise s .keyNotLoaded) := by
  rw [cipherOperand, hkey, require_false, error_bind, command_error]

theorem command_cipherN_of_no_key {effect : Span → Result} {least n : Nat} (hkey : statusKeyv s.status = false) :
    command s (cipherOperandN s least n) effect = .next (raise s .keyNotLoaded) := by
  rw [cipherOperandN, hkey, require_false, error_bind, command_error]

/-- KEYV is the first check of every cipher command (R250). -/
theorem exec_cipher_of_no_key {i : Instr} (hkey : statusKeyv s.status = false) (hi : IsCipher i) :
    exec i s = .next (raise s .keyNotLoaded) := by
  simp only [IsCipher, List.mem_cons, List.not_mem_nil, or_false] at hi
  rcases hi with (rfl | rfl | rfl | rfl | rfl | rfl) | ⟨n, rfl⟩ | ⟨n, rfl⟩
  case inr.inl | inr.inr => exact command_cipherN_of_no_key hkey
  all_goals exact command_cipher_of_no_key hkey

end NoKey

/-- Settles O28. -/
theorem ciphersNeedAKey : Obligations.CiphersNeedAKey := fun _ _ hkey hi =>
  failsCleanly_of_raise (exec_cipher_of_no_key hkey hi) rfl

/-! ## The checks raise the causes of the first row of R251 alone -/

/-- The causes of the first row of R251, which leave everything but the report as it was. -/
def Failure.isClean : Failure → Bool
  | .invalidArgument _ _ => true
  | .unsupportedOperation _ => true
  | .underlyingIO _ _ _ => false
  | .illegalCommand _ _ => true
  | .slotState _ _ => true
  | .hostAccess _ => true
  | .badLengthPrefix _ => false
  | .keyNotLoaded => true

/-- The other rows of R251 are those of UnderlyingIOFailure and BadLengthPrefix. -/
theorem Failure.isClean_iff (f : Failure) : f.isClean = true ↔ f.cause ≠ 0x03 ∧ f.cause ≠ 0x83 := by
  cases f <;> simp [Failure.isClean, Failure.cause]

/-- What checks raise, if they raise, is of the first row of R251. -/
def CleanChecks {α : Type} (checks : Except Failure α) : Prop := ∀ f, checks = .error f → f.isClean = true

section CleanChecks

variable {α β : Type}

theorem cleanChecks_ok (a : α) : CleanChecks (.ok a) := nofun

theorem cleanChecks_error {f : Failure} (hf : f.isClean = true) : CleanChecks (.error f : Except Failure α) := by
  intro g hg
  cases hg
  exact hf

theorem CleanChecks.bind {x : Except Failure α} {k : α → Except Failure β} (hx : CleanChecks x)
    (hk : ∀ a, CleanChecks (k a)) : CleanChecks (x >>= k) := by
  intro f hf
  rcases bind_error hf with hf | ⟨a, -, hf⟩
  · exact hx f hf
  · exact hk a f hf

theorem cleanChecks_require (ok : Bool) {f : Failure} (hf : f.isClean = true) : CleanChecks (require ok f) := by
  cases ok with
  | false => exact cleanChecks_error hf
  | true => exact cleanChecks_ok ()

variable (s : State) (slot : Nat)

theorem cleanChecks_bufSpan (count : Int) : CleanChecks (bufSpan s count) := by
  intro f hf
  obtain ⟨d, info, rfl⟩ := bufSpan_error hf
  rfl

theorem cleanChecks_checkRange (a n : Nat) : CleanChecks (checkRange s a n) := by
  rcases checkRange_spec s a n with ⟨h, -⟩ | ⟨h, -⟩ | ⟨g, h, -⟩ <;> rw [h]
  · exact cleanChecks_ok ()
  · exact cleanChecks_error rfl
  · exact cleanChecks_error rfl

theorem cleanChecks_admittedSpan (count : Int) : CleanChecks (admittedSpan s count) :=
  (cleanChecks_bufSpan s count).bind fun r => (cleanChecks_checkRange s r.addr r.count).bind fun _ => cleanChecks_ok r

theorem cleanChecks_cipherOperand : CleanChecks (cipherOperand s) :=
  (cleanChecks_require _ rfl).bind fun _ => cleanChecks_admittedSpan s _

theorem cleanChecks_cipherOperandN (least n : Nat) : CleanChecks (cipherOperandN s least n) :=
  (cleanChecks_require _ rfl).bind fun _ => (cleanChecks_require _ rfl).bind fun _ => cleanChecks_admittedSpan s _

theorem cleanChecks_keyBuffer (addr : U64) : CleanChecks (keyBuffer s addr) :=
  (cleanChecks_checkRange s _ _).bind fun _ => cleanChecks_ok _

theorem cleanChecks_sourceOperand : CleanChecks (sourceOperand s) := by
  unfold sourceOperand
  split
  · exact cleanChecks_error rfl
  · exact cleanChecks_ok _

theorem cleanChecks_offsetOperand : CleanChecks (offsetOperand s) :=
  (cleanChecks_require _ rfl).bind fun _ => cleanChecks_ok _

theorem cleanChecks_setposOperand : CleanChecks (setposOperand s) :=
  (cleanChecks_sourceOperand s).bind fun _ => cleanChecks_offsetOperand s

theorem cleanChecks_slotOperand : CleanChecks (slotOperand s slot) := by
  intro f hf
  obtain ⟨rfl, -⟩ := slotOperand_error hf
  rfl

theorem cleanChecks_alignedSlot : CleanChecks (alignedSlot s slot) := by
  refine (cleanChecks_slotOperand s slot).bind fun v => ?_
  cases v with
  | aligned f => exact cleanChecks_ok f
  | _ => exact cleanChecks_error rfl

theorem cleanChecks_seqSlot : CleanChecks (seqSlot s slot) := by
  refine (cleanChecks_slotOperand s slot).bind fun v => ?_
  cases v with
  | seqBlockTea f => exact cleanChecks_ok _
  | seqVbt f => exact cleanChecks_ok _
  | _ => exact cleanChecks_error rfl

theorem cleanChecks_closedSlot : CleanChecks (closedSlot s slot) := by
  refine (cleanChecks_slotOperand s slot).bind fun v => ?_
  cases v with
  | closed => exact cleanChecks_ok ()
  | _ => exact cleanChecks_error rfl

theorem cleanChecks_absOpenOperand : CleanChecks (absOpenOperand slot s) :=
  (cleanChecks_closedSlot s slot).bind fun _ => (cleanChecks_sourceOperand s).bind fun _ =>
    (cleanChecks_offsetOperand s).bind fun _ => (cleanChecks_keyBuffer s s.a2).bind fun _ => cleanChecks_ok _

theorem cleanChecks_absReadOperand : CleanChecks (absReadOperand slot s) :=
  (cleanChecks_alignedSlot s slot).bind fun _ => (cleanChecks_admittedSpan s _).bind fun _ => cleanChecks_ok _

theorem cleanChecks_absSeekOperand (whence : Whence) : CleanChecks (absSeekOperand slot whence s) :=
  (cleanChecks_alignedSlot s slot).bind fun _ => (cleanChecks_require _ rfl).bind fun _ => cleanChecks_ok _

theorem cleanChecks_seqOpenOperand : CleanChecks (seqOpenOperand slot s) :=
  (cleanChecks_closedSlot s slot).bind fun _ => (cleanChecks_sourceOperand s).bind fun _ => cleanChecks_keyBuffer s s.a2

theorem cleanChecks_seqReadOperand : CleanChecks (seqReadOperand slot s) :=
  (cleanChecks_seqSlot s slot).bind fun _ => (cleanChecks_admittedSpan s _).bind fun _ => cleanChecks_ok _

end CleanChecks

/-! ## What the checks that pass say of the state -/

section Passed

variable {s : State}

theorem admitted_of_checkRange {a n : Nat} (h : checkRange s a n = .ok ()) : Admitted s a n := by
  rcases checkRange_spec s a n with ⟨-, hadm⟩ | ⟨herr, -⟩ | ⟨g, herr, -⟩
  · exact hadm
  · cases h.symm.trans herr
  · cases h.symm.trans herr

theorem bufOperand_ok_inv {r : Span} (h : bufOperand s = .ok r) :
    BufValid s s.a3.toInt ∧ Admitted s (bufStart s) s.a3.toNat := by
  obtain ⟨hbuf, rfl, hrange⟩ := admittedSpan_ok_inv h
  have ⟨_, hnonneg, _⟩ := hbuf
  have hcount : s.a3.toInt.toNat = s.a3.toNat := toNat_of_toInt_nonneg hnonneg
  rw [hcount] at hrange
  exact ⟨hbuf, admitted_of_checkRange hrange⟩

/-- The key of a key buffer is the one `KeyAt` names. -/
theorem keyAt_keyOfBytes (a : Nat) : KeyAt s a (keyOfBytes (memRead s a 16)) := by
  have hbyte : ∀ i, i < 16 → byteAt (memRead s a 16) i = Memory.byte s.mem (a + i) := fun i hi => getD_memRead s a hi
  intro j hj
  interval_cases j <;> simp [Key.word, keyOfBytes, hbyte]

theorem keyBuffer_ok_inv {addr : U64} {K : Key} (h : keyBuffer s addr = .ok K) :
    Admitted s addr.toNat 16 ∧ KeyAt s addr.toNat K := by
  obtain ⟨⟨⟩, hrange, hkey⟩ := bind_ok h
  cases hkey
  exact ⟨admitted_of_checkRange hrange, keyAt_keyOfBytes _⟩

end Passed

/-! ## How every command ends -/

/-- The ends of a command: success, or a failure of one of the rows of R251. -/
inductive Ended : Instr → State → State → Prop where
  /-- Success (R240). -/
  | succeeded {i : Instr} {s t : State} (hcause : statusCause t.status = 0) : Ended i s t
  /-- A failure of the first row, raised in the state the command began in. -/
  | raised {i : Instr} {s : State} {f : Failure} (hf : f.isClean = true) : Ended i s (raise s f)
  /-- UnderlyingIOFailure or BadLengthPrefix in ABS.OPEN. -/
  | absOpenFailed {slot : Nat} {s t : State} {cause detail : BitVec 8} {phase : BitVec 4} {info : U64}
      (hslot : s.slots[slot]? = some .closed) (hcause : cause = 0x03 ∨ cause = 0x83)
      (hfailed : AbsOpenFailed s t cause phase detail info) : Ended (.absOpen slot) s t
  /-- UnderlyingIOFailure in ABS.READ. -/
  | absReadFailed {slot : Nat} {s t : State} {f : Aligned} (hslot : s.slots[slot]? = some (.aligned f))
      (hcause : statusCause t.status = 0x03) (hfailed : StreamReadFailed s t f.src (absReadCount f s.a3.toNat)) :
      Ended (.absRead slot) s t
  /-- UnderlyingIOFailure in SEQ.READ. -/
  | seqReadFailed {slot : Nat} {s t : State} (hcause : statusCause t.status = 0x03) : Ended (.seqRead slot) s t

section Ended

variable {i : Instr} {s t : State} {slot : Nat}

theorem ended_succeed (u : State) (r : U64) : Ended i s (succeed u r) :=
  .succeeded (succeeds_succeed u r).cause

/-- A command that is its checks and its effect ends as its effect does, or raises what its checks raise. -/
theorem ended_command {α : Type} {checks : Except Failure α} {effect : α → Result} (hchecks : CleanChecks checks)
    (heffect : ∀ x, checks = .ok x → effect x = .next t → Ended i s t) (h : command s checks effect = .next t) :
    Ended i s t := by
  rcases command_spec s checks effect with ⟨f, hf, hc⟩ | ⟨x, hx, hc⟩
  · cases hc.symm.trans h
    exact .raised (hchecks f hf)
  · exact heffect x hx (hc.symm.trans h)

/-- A command whose effect is a success. -/
theorem ended_command_succeed {α : Type} {checks : Except Failure α} {u : α → State} {r : α → U64}
    (hchecks : CleanChecks checks) (h : command s checks (fun x => .next (succeed (u x) (r x))) = .next t) :
    Ended i s t := by
  refine ended_command hchecks (fun x _ hx => ?_) h
  cases hx
  exact ended_succeed (u x) (r x)

/-- A refused operation (R243). -/
theorem ended_command_unsupported {α : Type} {checks : Except Failure α} {d : UnsupportedDetail}
    (hchecks : CleanChecks checks)
    (h : command s checks (fun _ => .next (raise s (.unsupportedOperation d))) = .next t) : Ended i s t := by
  refine ended_command hchecks (fun x _ hx => ?_) h
  cases hx
  exact .raised rfl

theorem ended_absSeek {whence : Whence} (h : exec (.absSeek slot whence) s = .next t) :
    Ended (.absSeek slot whence) s t := by
  refine ended_command (cleanChecks_absSeekOperand s slot whence) (fun f _ hf => ?_) h
  unfold absSeekEffect at hf
  split at hf
  · cases hf
  · cases hf
    exact ended_succeed _ _

/-- Once its checks have passed, ABS.OPEN ends as O45 says. -/
theorem ended_absOpen (h : exec (.absOpen slot) s = .next t) : Ended (.absOpen slot) s t := by
  refine ended_command (cleanChecks_absOpenOperand s slot) (fun o ho _ => ?_) h
  obtain ⟨⟨⟩, hclosed, ho⟩ := bind_ok ho
  obtain ⟨src, hsrc, ho⟩ := bind_ok ho
  obtain ⟨off, hoff, ho⟩ := bind_ok ho
  obtain ⟨K, hK, -⟩ := bind_ok ho
  have hslot := (closedSlot_ok_iff s slot).1 hclosed
  obtain ⟨hadm, hkey⟩ := keyBuffer_ok_inv hK
  obtain ⟨u, hu, hends⟩ := absOpenReportsItsRead s slot src K hslot ((sourceOperand_ok_iff s src).1 hsrc)
    (offsetOperand_ok_inv hoff).2 hadm hkey
  cases h.symm.trans hu
  rcases hends with ⟨-, hfailed⟩ | ⟨-, hfailed⟩ | ⟨b0, b1, b2, b3, -, hends⟩
  · exact .absOpenFailed hslot (.inl rfl) hfailed
  · exact .absOpenFailed hslot (.inl rfl) hfailed
  · split at hends
    · exact .absOpenFailed hslot (.inr rfl) hends
    · exact .succeeded hends.outcome.cause

theorem cause_of_runReads_error {f : Aligned} {src : Source} {plan : List ReadStep} {e : Failure}
    (h : (runReads f src plan s).2 = .error e) : e.cause = 0x03 := by
  rcases runReads_error h with ⟨-, r, -, rfl⟩ | ⟨r, -, off, rfl⟩ <;> rfl

/-- ABS.READ whose source reads all succeed is a success (R174). -/
theorem absReadSome_of_ok {f : Aligned} {src : Source} {n : Nat} {out : List Byte}
    (h : (runReads f src (readPlan f.length.toNat f.pos.toNat n) s).2 = .ok out) :
    ∃ u, absReadSome slot s f src (bufStart s) n = .next (succeed u (BitVec.ofNat 64 n)) := by
  unfold absReadSome
  generalize runReads f src (readPlan f.length.toNat f.pos.toNat n) s = p at h
  obtain ⟨s1, r⟩ := p
  cases h
  exact ⟨_, rfl⟩

/-- Once its checks have passed, ABS.READ ends as its source reads do (R174, R176). -/
theorem ended_absRead (hg : s.Good) (h : exec (.absRead slot) s = .next t) : Ended (.absRead slot) s t := by
  refine ended_command (cleanChecks_absReadOperand s slot) (fun o ho _ => ?_) h
  obtain ⟨f, hf, ho⟩ := bind_ok ho
  obtain ⟨r, hr, -⟩ := bind_ok ho
  have hslot := (alignedSlot_ok_iff s slot f).1 hf
  obtain ⟨hbuf, hadm⟩ := bufOperand_ok_inv hr
  obtain ⟨src, hsrc⟩ := Option.ne_none_iff_exists'.1 (hg.slots _ (List.mem_of_getElem? hslot)).1
  rw [exec_absRead_of_valid hslot hsrc hbuf hadm] at h
  split at h
  · cases h
    exact ended_succeed _ _
  · next hn =>
    have hcount : absReadCount f s.a3.toNat = min s.a3.toNat (f.length.toNat - f.pos.toNat) := rfl
    have hbelow : bufStart s + absReadCount f s.a3.toNat ≤ 2 ^ 64 := by
      rcases hadm.below with hle | hle <;> omega
    rcases absReadSome_spec hg.mem slot f src hbelow with ⟨e, u, he, hu, hfails, hframe⟩ | ⟨out, -, hout, -⟩
    · cases h.symm.trans hu
      exact .absReadFailed hslot (hfails.cause.trans (cause_of_runReads_error he)) hframe
    · obtain ⟨u, hu⟩ := absReadSome_of_ok (slot := slot) hout
      cases h.symm.trans hu
      exact ended_succeed _ _

/-- Once its checks have passed, SEQ.READ ends as its source read does, which fails by the draw alone (R63, R201). -/
theorem ended_seqRead (hg : s.Good) (h : exec (.seqRead slot) s = .next t) : Ended (.seqRead slot) s t := by
  refine ended_command (cleanChecks_seqReadOperand s slot) (fun o ho _ => ?_) h
  obtain ⟨⟨kind, f⟩, hf, ho⟩ := bind_ok ho
  obtain ⟨r, hr, -⟩ := bind_ok ho
  obtain ⟨hbuf, hadm⟩ := bufOperand_ok_inv hr
  have hattached : sourceOf s f.src ≠ none := by
    have hgood := hg.slots _ (List.mem_of_getElem? ((seqSlot_ok_iff s slot kind f).1 hf))
    cases kind <;> exact hgood
  obtain ⟨src, hsrc⟩ := Option.ne_none_iff_exists'.1 hattached
  rw [exec_seqRead_of_valid hf hsrc hbuf hadm] at h
  split at h
  · cases h
    exact ended_succeed _ _
  · cases hmay : src.mayFail with
    | false =>
      rw [seqReadSome_of_reliable hmay] at h
      cases h
      exact ended_succeed _ _
    | true =>
      rw [seqReadSome_of_draw hmay] at h
      cases h
      split
      · exact .seqReadFailed (fails_raise _ _).cause
      · exact ended_succeed _ _

/-- Every command ends with success or in one of the rows of R251. -/
theorem ended_of_exec (hg : s.Good) (h : exec i s = .next t) : Ended i s t := by
  cases i with
  | nop => cases h; exact ended_succeed _ _
  | clrerr => cases h; exact ended_succeed _ _
  | keyload => exact ended_command_succeed (cleanChecks_keyBuffer s s.a0) h
  | srcSetpos => exact ended_command_succeed (cleanChecks_setposOperand s) h
  | srcGetpos => exact ended_command_succeed (cleanChecks_sourceOperand s) h
  | bfcEnc => exact ended_command_succeed (cleanChecks_cipherOperand s) h
  | bfcDec => exact ended_command_succeed (cleanChecks_cipherOperand s) h
  | bteaDec => exact ended_command_succeed (cleanChecks_cipherOperand s) h
  | bteaEnc => exact ended_command_succeed (cleanChecks_cipherOperand s) h
  | vbtDec => exact ended_command_succeed (cleanChecks_cipherOperand s) h
  | vbtEnc => exact ended_command_succeed (cleanChecks_cipherOperand s) h
  | vbtDecn n => exact ended_command_succeed (cleanChecks_cipherOperandN s 1 n) h
  | vbtEncn n => exact ended_command_succeed (cleanChecks_cipherOperandN s 2 n) h
  | absOpen slot => exact ended_absOpen h
  | absRead slot => exact ended_absRead hg h
  | absSeek slot whence => exact ended_absSeek h
  | absLen slot => exact ended_command_succeed (cleanChecks_alignedSlot s slot) h
  | absPos slot => exact ended_command_succeed (cleanChecks_alignedSlot s slot) h
  | absWrite slot => exact ended_command_unsupported (cleanChecks_alignedSlot s slot) h
  | absFlush slot => exact ended_command_unsupported (cleanChecks_alignedSlot s slot) h
  | absSetlen slot => exact ended_command_unsupported (cleanChecks_alignedSlot s slot) h
  | seqOpen slot kind => exact ended_command_succeed (cleanChecks_seqOpenOperand s slot) h
  | seqRead slot => exact ended_seqRead hg h
  | seqSeek slot whence => exact ended_command_unsupported (cleanChecks_seqSlot s slot) h
  | seqWrite slot => exact ended_command_unsupported (cleanChecks_seqSlot s slot) h
  | seqFlush slot => exact ended_command_unsupported (cleanChecks_seqSlot s slot) h
  | seqSetlen slot => exact ended_command_unsupported (cleanChecks_seqSlot s slot) h
  | close slot => exact ended_command_succeed (cleanChecks_slotOperand s slot) h

/-! ## The rows of R251 -/

theorem cause_raise_of_isClean {f : Failure} (hf : f.isClean = true) (s : State) :
    statusCause (raise s f).status ≠ 0x03 ∧ statusCause (raise s f).status ≠ 0x83 := by
  rw [(fails_raise s f).cause]
  exact f.isClean_iff.1 hf

/-- The first row of R251. -/
theorem Ended.onlyReports (h : Ended i s t) (h0 : statusCause t.status ≠ 0) (h3 : statusCause t.status ≠ 0x03)
    (h83 : statusCause t.status ≠ 0x83) : OnlyReports s t := by
  cases h with
  | succeeded hcause => exact absurd hcause h0
  | raised => exact onlyReports_raise _ _
  | absOpenFailed _ hcause hfailed =>
    rw [hfailed.outcome.cause] at h3 h83
    exact absurd hcause (not_or.2 ⟨h3, h83⟩)
  | absReadFailed _ hcause => exact absurd hcause h3
  | seqReadFailed hcause => exact absurd hcause h3

/-- The commands that raise UnderlyingIOFailure. -/
theorem Ended.readsSource (h : Ended i s t) (h3 : statusCause t.status = 0x03) :
    ∃ slot, i = .absOpen slot ∨ i = .absRead slot ∨ i = .seqRead slot := by
  cases h with
  | succeeded hcause => cases hcause.symm.trans h3
  | raised hf => exact absurd h3 (cause_raise_of_isClean hf _).1
  | absOpenFailed => exact ⟨_, .inl rfl⟩
  | absReadFailed => exact ⟨_, .inr (.inl rfl)⟩
  | seqReadFailed => exact ⟨_, .inr (.inr rfl)⟩

/-- BadLengthPrefix is raised by ABS.OPEN alone. -/
theorem Ended.opensStream (h : Ended i s t) (h83 : statusCause t.status = 0x83) : ∃ slot, i = .absOpen slot := by
  cases h with
  | succeeded hcause => cases hcause.symm.trans h83
  | raised hf => exact absurd h83 (cause_raise_of_isClean hf _).2
  | absOpenFailed => exact ⟨_, rfl⟩
  | absReadFailed _ hcause => cases hcause.symm.trans h83
  | seqReadFailed hcause => cases hcause.symm.trans h83

/-- The rows of ABS.OPEN. -/
theorem Ended.absOpen (h : Ended (.absOpen slot) s t)
    (hcause : statusCause t.status = 0x03 ∨ statusCause t.status = 0x83) :
    SameMemory s t ∧ t.slots = s.slots ∧ s.slots[slot]? = some .closed ∧ CursorSet s t s.a0.toNat s.a1 ∧
      OtherSourcesKept s t s.a0.toNat := by
  cases h with
  | succeeded hzero => rcases hcause with hcause | hcause <;> cases hzero.symm.trans hcause
  | raised hf =>
    obtain ⟨h3, h83⟩ := cause_raise_of_isClean hf s
    exact absurd hcause (not_or.2 ⟨h3, h83⟩)
  | absOpenFailed hslot _ hfailed => exact ⟨hfailed.memory, hfailed.slots, hslot, hfailed.cursor, hfailed.sources⟩

/-- The row of ABS.READ. -/
theorem Ended.absRead {f : Aligned} (h : Ended (.absRead slot) s t) (hslot : s.slots[slot]? = some (.aligned f))
    (h3 : statusCause t.status = 0x03) : StreamReadFailed s t f.src (absReadCount f s.a3.toNat) := by
  cases h with
  | succeeded hcause => cases hcause.symm.trans h3
  | raised hf => exact absurd h3 (cause_raise_of_isClean hf _).1
  | absReadFailed hslot' _ hfailed =>
    cases hslot.symm.trans hslot'
    exact hfailed

end Ended

/-- CMD is no part of the invariant. -/
theorem State.Good.withCmd {s : State} (hg : s.Good) (w : Word) : ({ s with cmd := w }).Good where
  mem := hg.mem
  status := hg.status
  slots := fun v hv => (hg.slots v hv).of_launch (sameLaunch_cmd s w)
  launch := hg.launch.of_launch (sameLaunch_cmd s w)

theorem key_runCommand_of_fails {w : Word} {s t : State} (h : runCommand w s = .next t)
    (hc : statusCause t.status ≠ 0) : t.key = s.key ∧ statusKeyv t.status = statusKeyv s.status := by
  obtain ⟨i, -, hran⟩ := ran_runCommand h
  exact hran.failed hc

/-- Settles O18: a rejected word is a failure of the first row, and a command ends in one of the rows. -/
theorem failuresLeaveWhatTheTableSays : Obligations.FailuresLeaveWhatTheTableSays := by
  intro w s t hg hrun h0
  obtain ⟨hkey, hkeyv⟩ := key_runCommand_of_fails hrun h0
  refine ⟨hkey, hkeyv, sameLaunch_runCommand hrun, ?_⟩
  rcases runCommand_cases hrun with ⟨d, hrejected, rfl⟩ | ⟨i, hdecode, hexec⟩
  · obtain ⟨h3, h83⟩ := cause_raise_of_isClean (f := .illegalCommand d w) rfl { s with cmd := w }
    rw [hrejected]
    exact ⟨fun _ _ => onlyReports_raise _ _, fun h => absurd h h3, fun h => absurd h h83, nofun, nofun⟩
  · have hended := ended_of_exec (hg.withCmd w) hexec
    rw [hdecode]
    simp only [Except.ok.injEq]
    refine ⟨hended.onlyReports h0, hended.readsSource, hended.opensStream, ?_, ?_⟩
    · rintro slot rfl
      exact hended.absOpen
    · rintro slot f rfl
      exact hended.absRead

end Sys2Proof.Machine

/-! # Reset inside a command (spec/70_reset_and_hazards.md rule R270) -/

namespace Sys2Proof.Machine

/-! ## The reset state (R40, R270) -/

/-- An interrupted command leaves no more than a reset of some state does. -/
theorem exists_interruptedReset_eq (w : Word) (s : State) : ∃ u, interruptedReset w s = resetCore u := by
  unfold interruptedReset
  split <;> exact ⟨_, rfl⟩

/-- The registers are those of any reset, and the number of slots and the launch are those of `s`. -/
theorem coreIsReset_interruptedReset (w : Word) (s : State) : CoreIsReset s (interruptedReset w s) := by
  have hreset := wasReset_interruptedReset w s
  obtain ⟨u, hu⟩ := exists_interruptedReset_eq w s
  rw [hu] at hreset ⊢
  exact { coreIsReset_resetCore u with
    slots := hreset.slots.trans (List.map_const' ..)
    launch := hreset.launch }

/-! ## The free values of a footprint (R270) -/

section Havoc

variable {p : Footprint} {s : State}

theorem byte_havocFootprint_outside (hw : Memory.wf s.mem = true)
    (hbelow : ∀ r, p.span = some r → r.count ≠ 0 → r.addr + r.count ≤ 2 ^ 64) {x : Nat}
    (hx : ∀ r, p.span = some r → ¬(r.addr ≤ x ∧ x < r.addr + r.count)) :
    Memory.byte (havocFootprint p s).mem x = Memory.byte s.mem x := by
  obtain ⟨span, source⟩ := p
  cases span with
  | none => cases source <;> rfl
  | some r =>
    have hkept := byte_memHavoc_outside hw (hbelow r rfl) (hx r rfl)
    cases source <;> exact hkept

theorem havocFootprint_sources_of_none (h : p.source = none) : (havocFootprint p s).sources = s.sources := by
  obtain ⟨span, source⟩ := p
  cases h
  cases span <;> rfl

theorem havocFootprint_sources_of_some {k : Nat} (h : p.source = some k) :
    ∃ c, (havocFootprint p s).sources = (srcSeek s k c).sources := by
  obtain ⟨span, source⟩ := p
  cases h
  cases span <;> exact ⟨_, rfl⟩

/-- The free values lie in the footprint. -/
theorem onlyFootprint_havocFootprint (hw : Memory.wf s.mem = true)
    (hbelow : ∀ r, p.span = some r → r.count ≠ 0 → r.addr + r.count ≤ 2 ^ 64) :
    OnlyFootprint p s (havocFootprint p s) := by
  have hbytes := fun x => byte_havocFootprint_outside hw hbelow (x := x)
  cases hsource : p.source with
  | none =>
    have hkept : ∀ k, sourceOf (havocFootprint p s) k = sourceOf s k := fun k => by
      rw [sourceOf, havocFootprint_sources_of_none hsource, sourceOf]
    exact ⟨hbytes, fun k _ => hkept k, fun k _ => .inl (hkept k)⟩
  | some k => exact onlyFootprint_seek hsource (.inr (havocFootprint_sources_of_some hsource)) hbytes

/-- A reset touches neither host memory nor a source. -/
theorem OnlyFootprint.resetCore {t : State} (h : OnlyFootprint p s t) : OnlyFootprint p s (resetCore t) :=
  ⟨h.bytes, h.others, h.cursor⟩

end Havoc

theorem onlyFootprint_interruptedReset {w : Word} {i : Instr} {s : State} (hw : Memory.wf s.mem = true)
    (h : decode w = .ok i) : OnlyFootprint (footprint i s) s (interruptedReset w s) := by
  rw [interruptedReset, h]
  exact (onlyFootprint_havocFootprint hw fun _ => footprint_below).resetCore

theorem onlyFootprint_interruptedReset_of_error {w : Word} {d : DecodeError} (s : State) (h : decode w = .error d) :
    OnlyFootprint ⟨none, none⟩ s (interruptedReset w s) := by
  rw [interruptedReset, h]
  exact onlyFootprint_quiet rfl rfl

/-! ## A command whose checks fail has no footprint (R250, R251) -/

/-- STATUS.CAUSE is one that the checks of a command raise, or UnsupportedOperation. -/
def FailedEarly (t : State) : Prop := statusCause t.status ∈ ([0x01, 0x02, 0x81, 0x82, 0x84] : List (BitVec 8))

theorem not_failedEarly_succeed (s : State) (r : U64) : ¬FailedEarly (succeed s r) := by
  rw [FailedEarly, (succeeds_succeed s r).cause]
  decide

theorem not_failedEarly_raise {f : Failure} (hf : f.cause = 0x03 ∨ f.cause = 0x83) (s : State) :
    ¬FailedEarly (raise s f) := by
  rw [FailedEarly, (fails_raise s f).cause]
  rcases hf with hf | hf <;> rw [hf] <;> decide

/-- The effect, which runs once the checks have passed, ends with success, UnderlyingIOFailure or BadLengthPrefix. -/
def EndsLate (r : Result) : Prop := ∀ t, r = .next t → ¬FailedEarly t

theorem endsLate_succeed (s : State) (r : U64) : EndsLate (.next (succeed s r)) := by
  rintro _ ⟨⟩
  exact not_failedEarly_succeed s r

theorem endsLate_raise {f : Failure} (hf : f.cause = 0x03 ∨ f.cause = 0x83) (s : State) :
    EndsLate (.next (raise s f)) := by
  rintro _ ⟨⟩
  exact not_failedEarly_raise hf s

theorem endsLate_fault (e : Fault) : EndsLate (.fault e) := nofun

theorem endsLate_absOpenEffect (slot : Nat) (s : State) (o : OpenOperand) : EndsLate (absOpenEffect slot s o) := by
  unfold absOpenEffect
  split
  · exact endsLate_raise (.inl rfl) _
  · split
    · exact endsLate_raise (.inl rfl) _
    · dsimp only
      split
      · exact endsLate_raise (.inr rfl) _
      · exact endsLate_succeed _ _

theorem endsLate_absReadSome (slot : Nat) (s : State) (f : Aligned) (src : Source) (addr n : Nat) :
    EndsLate (absReadSome slot s f src addr n) := by
  unfold absReadSome
  split
  · next hreads => exact endsLate_raise (.inl (cause_of_runReads_error (congrArg Prod.snd hreads))) _
  · exact endsLate_succeed _ _

theorem endsLate_absReadEffect (slot : Nat) (s : State) (o : Aligned × Span) : EndsLate (absReadEffect slot s o) := by
  unfold absReadEffect
  split
  · exact endsLate_succeed _ _
  · split
    · exact endsLate_fault _
    · exact endsLate_absReadSome _ _ _ _ _ _

theorem endsLate_absSeekEffect (slot : Nat) (s : State) (f : Aligned) (target : Nat) :
    EndsLate (absSeekEffect slot s f target) := by
  unfold absSeekEffect
  split
  · exact endsLate_fault _
  · exact endsLate_succeed _ _

theorem endsLate_seqReadEffect (s : State) (o : (SeqKind × Sequential) × Span) : EndsLate (seqReadEffect s o) := by
  unfold seqReadEffect
  split
  · exact endsLate_succeed _ _
  · split
    · exact endsLate_fault _
    · unfold seqReadSome
      split
      · exact endsLate_raise (.inl rfl) _
      · exact endsLate_succeed _ _

section FailedEarly

variable {s t : State} {α : Type} {checks : Except Failure α} {effect : α → Result}

/-- A command that failed early failed in its checks. -/
theorem checks_error_of_failedEarly (h : command s checks effect = .next t) (ht : FailedEarly t)
    (heffect : ∀ x, EndsLate (effect x)) : ∃ f, checks = .error f := by
  rcases command_spec s checks effect with ⟨f, hf, -⟩ | ⟨x, -, hx⟩
  · exact ⟨f, hf⟩
  · exact absurd ht (heffect x t (hx.symm.trans h))

theorem cipherFootprint_of_failedEarly {f : List Byte → List Byte} {operand : Except Failure Span}
    (h : command s operand (inPlace s f) = .next t) (ht : FailedEarly t) :
    cipherFootprint operand = ⟨none, none⟩ := by
  obtain ⟨e, rfl⟩ := checks_error_of_failedEarly h ht fun _ => endsLate_succeed _ _
  rfl

theorem sourceFootprint_of_failedEarly (g : α → Nat) (h : command s checks effect = .next t) (ht : FailedEarly t)
    (heffect : ∀ x, EndsLate (effect x)) : sourceFootprint checks g = ⟨none, none⟩ := by
  obtain ⟨e, rfl⟩ := checks_error_of_failedEarly h ht heffect
  rfl

theorem absReadFootprint_of_failedEarly {slot : Nat} (h : exec (.absRead slot) s = .next t) (ht : FailedEarly t) :
    absReadFootprint slot s = ⟨none, none⟩ := by
  obtain ⟨e, he⟩ := checks_error_of_failedEarly h ht (endsLate_absReadEffect slot s)
  rw [absReadFootprint, he]
  rfl

theorem seqReadFootprint_of_failedEarly {slot : Nat} (h : exec (.seqRead slot) s = .next t) (ht : FailedEarly t) :
    seqReadFootprint slot s = ⟨none, none⟩ := by
  obtain ⟨e, he⟩ := checks_error_of_failedEarly h ht (endsLate_seqReadEffect s)
  rw [seqReadFootprint, he]
  rfl

/-- The commands that touch host memory or a source do so once their checks have passed; the others never do. -/
theorem footprint_of_failedEarly {i : Instr} (h : exec i s = .next t) (ht : FailedEarly t) :
    footprint i s = ⟨none, none⟩ := by
  cases i with
  | srcSetpos => exact sourceFootprint_of_failedEarly _ h ht fun _ => endsLate_succeed _ _
  | bfcEnc => exact cipherFootprint_of_failedEarly h ht
  | bfcDec => exact cipherFootprint_of_failedEarly h ht
  | bteaDec => exact cipherFootprint_of_failedEarly h ht
  | bteaEnc => exact cipherFootprint_of_failedEarly h ht
  | vbtDec => exact cipherFootprint_of_failedEarly h ht
  | vbtEnc => exact cipherFootprint_of_failedEarly h ht
  | vbtDecn n => exact cipherFootprint_of_failedEarly h ht
  | vbtEncn n => exact cipherFootprint_of_failedEarly h ht
  | absOpen slot => exact sourceFootprint_of_failedEarly _ h ht (endsLate_absOpenEffect slot s)
  | absRead slot => exact absReadFootprint_of_failedEarly h ht
  | absSeek slot whence => exact sourceFootprint_of_failedEarly _ h ht fun _ => endsLate_absSeekEffect _ _ _ _
  | seqRead slot => exact seqReadFootprint_of_failedEarly h ht
  | _ => rfl

end FailedEarly

/-! ## The footprint of a command whose checks pass -/

section Footprints

variable {s : State} {i : Instr} {slot : Nat}

/-- The cipher commands of form BUF: the operand range. -/
theorem footprint_cipher
    (hi : i ∈ ([.bfcEnc, .bfcDec, .bteaDec, .bteaEnc, .vbtDec, .vbtEnc] : List Instr))
    (hkey : statusKeyv s.status = true) (hbuf : BufValid s s.a3.toInt) (hadm : Admitted s (bufStart s) s.a3.toNat) :
    footprint i s = ⟨some ⟨bufStart s, s.a3.toNat⟩, none⟩ := by
  have hcipher : footprint i s = cipherFootprint (cipherOperand s) := by
    simp only [List.mem_cons, List.not_mem_nil, or_false] at hi
    rcases hi with rfl | rfl | rfl | rfl | rfl | rfl <;> rfl
  rw [hcipher, cipherOperand_of_valid hkey hbuf hadm, cipherFootprint]

/-- The cipher commands of form BUFN: 4·N bytes. -/
theorem footprint_cipherN {n : Nat} (hi : i = .vbtDecn n ∧ 1 ≤ n ∨ i = .vbtEncn n ∧ 2 ≤ n) (hn : n ≤ 16)
    (hkey : statusKeyv s.status = true) (hbuf : BufValid s (4 * (n : Int)))
    (hadm : Admitted s (bufStart s) (4 * n)) : footprint i s = ⟨some ⟨bufStart s, 4 * n⟩, none⟩ := by
  rcases hi with ⟨rfl, hleast⟩ | ⟨rfl, hleast⟩ <;>
    rw [footprint, cipherOperandN_of_valid hkey hleast hn hbuf hadm, cipherFootprint]

theorem setposOperand_of_valid {src : Source} (hsrc : sourceOf s s.a0.toNat = some src) (hpos : 0 ≤ s.a1.toInt) :
    setposOperand s = .ok s.a1 := by
  rw [setposOperand, (sourceOperand_ok_iff s src).2 hsrc, ok_bind, offsetOperand_ok hpos]

theorem footprint_srcSetpos {src : Source} (hsrc : sourceOf s s.a0.toNat = some src) (hpos : 0 ≤ s.a1.toInt) :
    footprint .srcSetpos s = ⟨none, some s.a0.toNat⟩ := by
  rw [footprint, setposOperand_of_valid hsrc hpos, sourceFootprint]

theorem footprint_absOpen {src : Source} (hslot : s.slots[slot]? = some .closed)
    (hsrc : sourceOf s s.a0.toNat = some src) (hpos : 0 ≤ s.a1.toInt) (hadm : Admitted s s.a2.toNat 16) :
    footprint (.absOpen slot) s = ⟨none, some s.a0.toNat⟩ := by
  rw [footprint, absOpenOperand_of_valid hslot hsrc hpos hadm (keyAt_keyOfBytes _), sourceFootprint]

theorem absSeekOperand_of_valid {whence : Whence} {f : Aligned} (hwhence : whence ≠ .three)
    (hslot : s.slots[slot]? = some (.aligned f)) : absSeekOperand slot whence s = .ok f := by
  rw [absSeekOperand, (alignedSlot_ok_iff s slot f).2 hslot, ok_bind, decide_eq_true hwhence, require_true, ok_bind]
  rfl

theorem footprint_absSeek {whence : Whence} {f : Aligned} (hwhence : whence ≠ .three)
    (hslot : s.slots[slot]? = some (.aligned f)) : footprint (.absSeek slot whence) s = ⟨none, some f.src⟩ := by
  rw [footprint, absSeekOperand_of_valid hwhence hslot, sourceFootprint]

/-- ABS.READ: the bytes the stream has left for it, unless there are none. -/
theorem footprint_absRead {f : Aligned} (hslot : s.slots[slot]? = some (.aligned f))
    (hbuf : BufValid s s.a3.toInt) (hadm : Admitted s (bufStart s) s.a3.toNat) :
    footprint (.absRead slot) s = if absReadCount f s.a3.toNat = 0 then ⟨none, none⟩
      else ⟨some ⟨bufStart s, absReadCount f s.a3.toNat⟩, some f.src⟩ := by
  rw [footprint, absReadFootprint, absReadOperand_of_valid hslot hbuf hadm]
  rfl

/-- SEQ.READ: the bytes its source delivers, unless it asks for none. -/
theorem footprint_seqRead {f : Sequential} {src : Source}
    (hslot : s.slots[slot]? = some (.seqBlockTea f) ∨ s.slots[slot]? = some (.seqVbt f))
    (hsrc : sourceOf s f.src = some src) (hbuf : BufValid s s.a3.toInt)
    (hadm : Admitted s (bufStart s) s.a3.toNat) :
    footprint (.seqRead slot) s = if s.a3 = 0 then ⟨none, none⟩
      else ⟨some ⟨bufStart s, min s.a3.toNat (src.data.length - src.cursor.toNat)⟩, some f.src⟩ := by
  obtain ⟨kind, hseq⟩ := seqSlot_of_open hslot
  have hzero : s.a3.toNat = 0 ↔ s.a3 = 0 := BitVec.toNat_inj (y := 0)
  simp only [footprint, seqReadFootprint, seqReadOperand_of_valid hseq hbuf hadm, hsrc, length_delivery, hzero,
    Footprint.nothing]

end Footprints

/-- Settles O59: the reset and the free values under it, the footprint that an early failure leaves empty, and that of
each command. -/
theorem resetInsideACommand : Obligations.ResetInsideACommand := by
  intro s w i hw
  refine ⟨fun h => ⟨_, rfl, coreIsReset_interruptedReset w s, onlyFootprint_interruptedReset hw h⟩,
    fun d h => ⟨_, rfl, coreIsReset_interruptedReset w s, onlyFootprint_interruptedReset_of_error s h⟩,
    fun t => onlyFootprint_of_exec hw, fun t => footprint_of_failedEarly, fun hi => ?quiet,
    fun slot kind hi => ?quietSlot,
    footprint_cipher, fun n => footprint_cipherN, ?_, ?_, ?_, ?_, ?_⟩
  case quiet | quietSlot =>
    simp only [List.mem_cons, List.not_mem_nil, or_false] at hi
    rcases hi with rfl | rfl | rfl | rfl <;> rfl
  · rintro src rfl
    exact footprint_srcSetpos
  · rintro slot src rfl
    exact footprint_absOpen
  · rintro slot whence f rfl
    exact footprint_absSeek
  · rintro slot f n rfl hslot hbuf hadm rfl
    exact footprint_absRead hslot hbuf hadm
  · rintro slot f src rfl
    exact footprint_seqRead

end Sys2Proof.Machine
